-- ==== Sys2Proof/Word.lean ====
section
/-! DEFINITION. The widths the block computes with. Every one is a width the spec gives (00_scope.md R3, R4, R6). -/

namespace Sys2Proof

/-- A register or a CMD word: `REGW = 32` bits (R4). -/
abbrev Word := BitVec 32

/-- One byte of a window or of a palette file. -/
abbrev Byte := BitVec 8

/-- A hardware colour, "an integer in [0,64)" of 6 bits (R3, R120). The quantizer's 64 candidate nodes carry the same
numbers, one node for each hardware colour (R198). -/
abbrev HwColor := BitVec 6

/-- A palette index 0..15, one nibble of the colour plane (R3). -/
abbrev SlotIx := BitVec 4

/-- The bit pattern of an IEEE 754 binary64 number (R6). -/
abbrev F64 := BitVec 64

end Sys2Proof
end

