-- ==== Sys2Proof/Syntax.lean ====
section
/-! DEFINITION. The commands of CHRON-IBC (30_encoding.md R92) and the fields of a CMD word (R91). -/

namespace Sys2Proof

/-- One constructor for each row of the opcode map (R92). No operand stands in the command word (R94), so the only
field a command carries is the bit RGN, and only the commands that R92 marks "R" have it: `rgn = true` takes the
region from the region registers, `rgn = false` takes the full region (20_memory.md R71). -/
inductive Instr where
  | nop
  | hw2rgb
  | nearest
  | gdist
  | ldist
  | create
  | resize
  | clear (rgn : Bool)
  | clearAlpha
  | getColor (rgn : Bool)
  | quantize
  | decode
  | point (rgn : Bool)
  | line (rgn : Bool)
  | rect (rgn : Bool)
  | lineRect (rgn : Bool)
  | circle (rgn : Bool)
  | ellipse (rgn : Bool)
  | ellipseQb (rgn : Bool)
  | text (rgn : Bool)
  deriving DecidableEq, Repr

/-- The fields of a 32-bit CMD word (R91): OPC in [7:0], RGN in [8], reserved bits in [31:9]. -/
structure CmdFields where
  reserved : BitVec 23
  rgn : Bool
  opc : BitVec 8
  deriving DecidableEq, Repr

end Sys2Proof
end

