-- ==== Sys2Proof/WellFormed.lean ====
section
/-! DEFINITION. When the fields of a CMD word form a legal command (30_encoding.md R91, R92, R97). A term of `Instr` is
legal by its type: a command that takes no region has no RGN bit to set. -/

namespace Sys2Proof

/-- The opcodes of the opcode map (R92). -/
def definedOpcodes : List (BitVec 8) :=
  [0x00, 0x10, 0x11, 0x12, 0x13, 0x20, 0x21, 0x22, 0x23, 0x24,
   0x30, 0x40, 0x50, 0x51, 0x52, 0x53, 0x54, 0x55, 0x56, 0x57]

/-- The opcodes R92 marks "R": those that accept `RGN = 1`. -/
def regionOpcodes : List (BitVec 8) :=
  [0x22, 0x24, 0x50, 0x51, 0x52, 0x53, 0x54, 0x55, 0x56, 0x57]

/-- R91: the reserved bits must be 0. -/
abbrev CmdFields.ReservedZero (f : CmdFields) : Prop := f.reserved = 0

/-- R97: the opcode is one of R92. -/
abbrev CmdFields.OpcodeDefined (f : CmdFields) : Prop := f.opc ∈ definedOpcodes

/-- R92: RGN is 1 only on a command marked "R". -/
abbrev CmdFields.RegionAllowed (f : CmdFields) : Prop := f.rgn = true → f.opc ∈ regionOpcodes

/-- A legal command word: none of the illegal classes of R97. -/
abbrev CmdFields.WellFormed (f : CmdFields) : Prop :=
  f.ReservedZero ∧ f.OpcodeDefined ∧ f.RegionAllowed

end Sys2Proof
end

