-- ==== Sys2Proof/Decode.lean ====
section
/-! DEFINITION. The decoder of 30_encoding.md R93, total on every 32-bit word, and after it the encoder of R91 and R92. -/

namespace Sys2Proof

/-- Why a CMD word is illegal (R93, R97). The engine reports each of them as E_CMD. -/
inductive DecodeError where
  /-- `CMD[31:9]` is not 0. -/
  | reservedBits
  /-- `CMD[7:0]` is no opcode of R92. -/
  | unknownOpcode
  /-- `RGN = 1` on a command that R92 does not mark "R". -/
  | regionNotAllowed
  deriving DecidableEq, Repr

/-- A command that takes no region requires `RGN = 0` (R92, R93). -/
def withoutRegion (i : Instr) (rgn : Bool) : Except DecodeError Instr :=
  if rgn then .error .regionNotAllowed else .ok i

/-- The opcode map of R92, with the test of RGN that R93 makes once the opcode is known. -/
def decodeOpcode (opc : BitVec 8) (rgn : Bool) : Except DecodeError Instr :=
  match opc.toNat with
  | 0x00 => withoutRegion .nop rgn
  | 0x10 => withoutRegion .hw2rgb rgn
  | 0x11 => withoutRegion .nearest rgn
  | 0x12 => withoutRegion .gdist rgn
  | 0x13 => withoutRegion .ldist rgn
  | 0x20 => withoutRegion .create rgn
  | 0x21 => withoutRegion .resize rgn
  | 0x22 => .ok (.clear rgn)
  | 0x23 => withoutRegion .clearAlpha rgn
  | 0x24 => .ok (.getColor rgn)
  | 0x30 => withoutRegion .quantize rgn
  | 0x40 => withoutRegion .decode rgn
  | 0x50 => .ok (.point rgn)
  | 0x51 => .ok (.line rgn)
  | 0x52 => .ok (.rect rgn)
  | 0x53 => .ok (.lineRect rgn)
  | 0x54 => .ok (.circle rgn)
  | 0x55 => .ok (.ellipse rgn)
  | 0x56 => .ok (.ellipseQb rgn)
  | 0x57 => .ok (.text rgn)
  | _ => .error .unknownOpcode

/-- The fields of a CMD word (R91). -/
def cmdFields (c : Word) : CmdFields :=
  { reserved := c.extractLsb' 9 23, rgn := c.getLsbD 8, opc := c.extractLsb' 0 8 }

/-- R93, less its last line: the reserved primitives decode to their own instruction, whose meaning raises E_UNIMPL. -/
def decode (c : Word) : Except DecodeError Instr :=
  let f := cmdFields c
  if f.reserved ≠ 0 then .error .reservedBits else decodeOpcode f.opc f.rgn

/-- The opcode of a command (R92). -/
def Instr.opcode : Instr → BitVec 8
  | .nop => 0x00
  | .hw2rgb => 0x10
  | .nearest => 0x11
  | .gdist => 0x12
  | .ldist => 0x13
  | .create => 0x20
  | .resize => 0x21
  | .clear _ => 0x22
  | .clearAlpha => 0x23
  | .getColor _ => 0x24
  | .quantize => 0x30
  | .decode => 0x40
  | .point _ => 0x50
  | .line _ => 0x51
  | .rect _ => 0x52
  | .lineRect _ => 0x53
  | .circle _ => 0x54
  | .ellipse _ => 0x55
  | .ellipseQb _ => 0x56
  | .text _ => 0x57

/-- The bit RGN of a command: 0 for a command that takes no region (R92). -/
def Instr.region : Instr → Bool
  | .nop | .hw2rgb | .nearest | .gdist | .ldist | .create | .resize | .clearAlpha | .quantize | .decode => false
  | .clear rgn | .getColor rgn | .point rgn | .line rgn | .rect rgn | .lineRect rgn | .circle rgn | .ellipse rgn
  | .ellipseQb rgn | .text rgn => rgn

/-- The fields of the CMD word of a command. -/
def Instr.fields (i : Instr) : CmdFields := { reserved := 0, rgn := i.region, opc := i.opcode }

/-- A CMD word from its fields (R91), most significant bit first: 23 reserved bits, RGN, the opcode. -/
def assembleCmd (f : CmdFields) : Word := f.reserved ++ BitVec.ofBool f.rgn ++ f.opc

/-- The CMD word of a command: `(r ? 0x100 : 0) | OPC` (R100). -/
def encode (i : Instr) : Word := assembleCmd i.fields

/-- The command the decoder reads from a table row's bits. A command is always one 32-bit word (R98), and the block
reads it from a register, so no byte order comes in. -/
def decodeTableWord (nbits w : Nat) : Option Instr :=
  let bits := w % 2 ^ nbits
  if bits < 2 ^ 32 then
    match decode (BitVec.ofNat 32 bits) with
    | .ok i => some i
    | .error _ => none
  else none

end Sys2Proof
end

