-- ==== Sys2Proof/Config.lean ====
section
/-! DEFINITION. What an implementation of CHRON-IBC fixes (00_scope.md R4) and the free values (70_reset_and_hazards.md
R342). The colour layout and the two transfer tables, which are configuration with a value that the spec gives, stand in
Machine/ColorTables.lean. -/

namespace Sys2Proof.Config

/-- `SENT_UNDEFINED`: the template byte of a free slot (R4, 10_state.md R32). -/
def sentUndefined : Byte := 0xFF

/-- `SENT_UNUSED`: the template byte of an excluded slot (R4, 10_state.md R32). -/
def sentUnused : Byte := 0xFE

/-- `MAX_W - 1`. `MAX_W` is OPEN, an integer in [1, 2^16] (R4, D4), so the number below it ranges over `Fin 2^16`, and
nothing else is known of it (log 3). -/
opaque maxWPred : Fin 65536

/-- `MAX_H - 1`, likewise (R4, D4; log 3). -/
opaque maxHPred : Fin 65536

/-- `MAX_W`, the capacity width (R4). -/
def maxW : Word := BitVec.ofNat 32 (maxWPred.val + 1)

/-- `MAX_H`, the capacity height (R4). -/
def maxH : Word := BitVec.ofNat 32 (maxHPred.val + 1)

/-- `REG_BASE`, an OPEN platform address (20_memory.md R76; log 4). -/
opaque regBase : Nat

/-- `SRC_BASE`, an OPEN platform address (R76). -/
opaque srcBase : Nat

/-- `ALPHA_BASE`, an OPEN platform address (R76). -/
opaque alphaBase : Nat

/-- `COLOR_BASE`, an OPEN platform address (R76). -/
opaque colorBase : Nat

/-- `OUT_BASE`, an OPEN platform address (R76). -/
opaque outBase : Nat

/-- The free value of an unspecified byte: a function of the number of the draw and of the byte's offset (R342, R73,
41_bitmap_store.md R156, R157; log 5). It has no body, so nothing can be proved of its values. -/
opaque freeByte : Nat → Nat → Byte

end Sys2Proof.Config
end

