-- ==== Sys2Proof/Machine/State.lean ====
section
/-! DEFINITION. The state of CHRON-IBC as plain data (10_state.md), its reset (70_reset_and_hazards.md R340), the
accesses the host can make, and the reasons a step of the model can stop. -/

namespace Sys2Proof.Machine

/-- The values STATUS.ECODE takes (60_exceptions.md R300); "every other ECODE value is never produced". Each is an
architectural result of a command that goes on to a next state, not a fault of the model. -/
inductive ECode where
  | ok
  | cmd
  | unimpl
  | arg
  | bounds
  | template
  | quant
  | size
  | palette
  | alloc
  deriving DecidableEq, Repr

/-- The fields of STATUS (10_state.md R24). The reserved bits read 0 and have no storage. -/
structure Status where
  busy : Bool
  err : Bool
  fatal : Bool
  dirty : Bool
  hit : Bool
  ecode : ECode
  deriving DecidableEq, Repr

/-- A palette file: byte `i` for slot `i`, `i = 0..15` (R30). -/
abbrev Palette := Vector Byte 16

/-- A sparse byte memory: the specified bytes with their offsets, strictly rising. An unlisted offset has NO value at
this level; what the block shows there is the window's business. -/
abbrev Memory := List Host.Cell

/-- The one canonical form of a memory: offsets strictly rising. An unlisted offset has no value, so no entry can
equal what an unlisted offset reads as, and equal memories are equal lists. -/
abbrev Memory.wf (m : Memory) : Prop := m.Pairwise (fun x y => x.1 < y.1)

/-- One byte window. `cells` holds the bytes whose value the spec fixes; every other byte of the window is
unspecified, and belongs to the draw with number `draw` (R342; log 5). -/
structure Window where
  cells : Memory
  draw : Nat
  deriving DecidableEq, Repr

/-- The four windows (20_memory.md section 1). -/
inductive Space where
  | src
  | alpha
  | color
  | out
  deriving DecidableEq, Repr

/-- The quantizer's working state (10_state.md R39), under the names of that rule. -/
structure QuantWork where
  /-- `CLASS[p]`, row-major. -/
  cls : List HwColor
  /-- `CNT[t]`. -/
  cnt : List Nat
  totalCount : Nat
  /-- `FSLOT[c]`; `none` is NONE. -/
  fslot : List (Option SlotIx)
  alive : List Bool
  remov : List Bool
  /-- `D[n][t]`: row `n`, column `t`. -/
  dist : List (List F64)
  /-- `LIST[t]`. -/
  list : List (List HwColor)
  cost : List F64
  /-- `NSLOT[n]`; `none` is NONE. -/
  nslot : List (Option SlotIx)
  lut : List SlotIx
  deriving DecidableEq, Repr

/-- A move of the host (30_encoding.md R99, 20_memory.md R63) or of the platform. Widths the spec does not allow have
no constructor; offsets it does not allow are refused when the move is made (log 9). -/
inductive HostOp where
  /-- `wr REG, imm32`: a 32-bit write at a byte offset of the register block. -/
  | wr (off : BitVec 8) (v : Word)
  /-- `rd REG`. -/
  | rd (off : BitVec 8)
  /-- `wrb SPACE[off], imm8`. -/
  | wrb (sp : Space) (off : Nat) (v : Byte)
  /-- `ww SPACE[off], imm32`. -/
  | ww (sp : Space) (off : Nat) (v : Word)
  /-- `rdb SPACE[off]`. -/
  | rdb (sp : Space) (off : Nat)
  /-- The aligned 32-bit window read of R63. -/
  | rdw (sp : Space) (off : Nat)
  /-- `wait`: read STATUS until `BUSY = 0`. -/
  | wait
  /-- The platform's reset input (70_reset_and_hazards.md R340). -/
  | reset
  deriving DecidableEq, Repr

/-- The state of the block (10_state.md R40) with the model's own fields, which stand last. -/
@[ext]
structure State where
  /-- The accepted command word (R23). -/
  cmdLatch : Word
  status : Status
  /-- `W` (R27). -/
  width : Word
  /-- `H` (R27). -/
  height : Word
  /-- MAXW, the capacity (R22; log 3). -/
  maxW : Word
  /-- MAXH, the capacity (R22; log 3). -/
  maxH : Word
  /-- ARG0 .. ARG7 (R25). -/
  args : Vector Word 8
  rgnOx : Word
  rgnOy : Word
  rgnW : Word
  rgnH : Word
  res0 : Word
  res1 : Word
  palIn : Palette
  template : Palette
  palOut : Palette
  cachePal : Palette
  src : Window
  alpha : Window
  color : Window
  out : Window
  work : QuantWork
  /-- The model's own: how many draws of unspecified bytes have been made (log 5). -/
  draws : Nat
  /-- The model's own: the moves the host and the platform have still to make, the next one first (log 1). -/
  host : List HostOp
  /-- The model's own: the value the host's last read returned (log 2). -/
  hostData : Word
  deriving DecidableEq, Repr

/-- Why a step of the model stops with a fault. There is no reason, and no step faults: an error of the block is a next
state (60_exceptions.md R302, R306), and its only access checks are those of 20_memory.md R61 and R63 (R77). -/
inductive Fault where
  deriving DecidableEq, Repr

/-- Why a step of the model is refused. No meaning of an instruction answers with one of these. -/
inductive Refusal where
  /-- An instruction without a meaning. Every instruction has one, so nothing raises it. Safe. -/
  | notModelled (mnemonic : String)
  /-- Raised by a host access at an offset that is not a multiple of 4 where R63 asks for one: "a model gives the host
  no such move" (20_memory.md R63, 70_reset_and_hazards.md R352). Safe (log 9). -/
  | misalignedAccess
  /-- Raised by a host access other than a STATUS read or a CMD write while `BUSY = 1`: "a model gives the host no such
  move" (70_reset_and_hazards.md R350). Safe (log 10). -/
  | busyAccess
  deriving DecidableEq, Repr

/-- STATUS after reset: `0x0000_0008` (R24, R340). -/
def Status.reset : Status :=
  { busy := false, err := false, fatal := false, dirty := true, hit := false, ecode := .ok }

/-- A window with every byte unspecified, of draw `k`. -/
def Window.unspecified (k : Nat) : Window := { cells := [], draw := k }

/-- The working state at reset. The spec calls it unspecified and unobservable (R39, R340); DESIGN CHOICE: zero and
empty throughout (log 7). -/
def QuantWork.reset : QuantWork :=
  { cls := []
    cnt := List.replicate 64 0
    totalCount := 0
    fslot := List.replicate 64 none
    alive := List.replicate 64 false
    remov := List.replicate 64 false
    dist := List.replicate 64 (List.replicate 64 0)
    list := List.replicate 64 []
    cost := List.replicate 64 0
    nslot := List.replicate 64 none
    lut := List.replicate 64 0 }

/-- The block right after reset (70_reset_and_hazards.md R340). SRC is a draw; ALPHA, COLOR and OUT have no bytes,
because `W = H = 0`. -/
def State.reset : State :=
  { cmdLatch := 0
    status := Status.reset
    width := 0
    height := 0
    maxW := Config.maxW
    maxH := Config.maxH
    args := Vector.replicate 8 0
    rgnOx := 0
    rgnOy := 0
    rgnW := 0
    rgnH := 0
    res0 := 0
    res1 := 0
    palIn := Vector.replicate 16 0
    template := Vector.replicate 16 0xFF
    palOut := Vector.replicate 16 0
    cachePal := Vector.replicate 16 0
    src := Window.unspecified 0
    alpha := Window.unspecified 0
    color := Window.unspecified 0
    out := Window.unspecified 0
    work := QuantWork.reset
    draws := 1
    host := []
    hostData := 0 }

end Sys2Proof.Machine
end

