-- ==== Sys2Proof/Machine/Flags.lean ====
section
/-! DEFINITION. STATUS: its codes, its word, and the updates every command makes (10_state.md R24, 60_exceptions.md R300). -/

namespace Sys2Proof.Machine

/-- The number of an error code (R300). -/
def ECode.code : ECode → Byte
  | .ok => 0x00
  | .cmd => 0x01
  | .unimpl => 0x02
  | .arg => 0x03
  | .bounds => 0x04
  | .template => 0x05
  | .quant => 0x06
  | .size => 0x07
  | .palette => 0x08
  | .alloc => 0x80

/-- STATUS as the host reads it (R24): ECODE in [15:8], HIT, DIRTY, FATAL, ERR, BUSY in [4:0], the rest 0. -/
def Status.word (st : Status) : Word :=
  0#16 ++ st.ecode.code ++ 0#3 ++ BitVec.ofBool st.hit ++ BitVec.ofBool st.dirty ++ BitVec.ofBool st.fatal
    ++ BitVec.ofBool st.err ++ BitVec.ofBool st.busy

/-- "At the start of every command the engine sets ERR <- 0, ECODE <- 0 and HIT <- 0" (R24). -/
def State.startCommand (s : State) : State :=
  { s with status := { s.status with err := false, ecode := .ok, hit := false } }

/-- "At its end the engine sets BUSY <- 0" (R24). -/
def State.completeCommand (s : State) : State :=
  { s with status := { s.status with busy := false } }

/-- `DIRTY <- 1` (R35). -/
def State.markDirty (s : State) : State :=
  { s with status := { s.status with dirty := true } }

/-- `DIRTY <- 0`, a recomputing DECODE (R35, 43_decoder.md R244). -/
def State.clearDirty (s : State) : State :=
  { s with status := { s.status with dirty := false } }

/-- `HIT <- 1`, a DECODE that does not recompute (43_decoder.md R243). -/
def State.markHit (s : State) : State :=
  { s with status := { s.status with hit := true } }

end Sys2Proof.Machine
end

