-- ==== Sys2Proof/Machine/Operands.lean ====
section
/-! DEFINITION. The operand forms of 30_encoding.md R95 and R96, RGBA words (00_scope.md R8), and regions
(20_memory.md R71, R72). -/

namespace Sys2Proof.Machine

/-- An RGBA colour (00_scope.md R8). -/
structure Rgba where
  r : Byte
  g : Byte
  b : Byte
  a : Byte
  deriving DecidableEq, Repr

/-- The 32-bit value `{A, B, G, R}` of a colour (R8). -/
def Rgba.word (c : Rgba) : Word := c.a ++ c.b ++ c.g ++ c.r

/-- The `k`-th byte of a stored pixel: R, G, B, A at offsets 0..3 (20_memory.md R62). -/
def Rgba.channel (c : Rgba) (k : Nat) : Byte :=
  match k with
  | 0 => c.r
  | 1 => c.g
  | 2 => c.b
  | _ => c.a

/-- The operand form rgba: every value is legal (R96). -/
def rgbaOperand (v : Word) : Rgba :=
  { r := v.extractLsb' 0 8, g := v.extractLsb' 8 8, b := v.extractLsb' 16 8, a := v.extractLsb' 24 8 }

/-- The operand form col4: `ARGk[3:0]`, with no value when `ARGk[31:4] != 0`, which raises E_ARG (R96). -/
def col4Operand (v : Word) : Option SlotIx :=
  if v.extractLsb' 4 28 = 0 then some (v.extractLsb' 0 4) else none

/-- The operand form hwc6: `ARG0[5:0]`, with no value when `ARG0[31:6] != 0`, which raises E_ARG (R96). -/
def hwc6Operand (v : Word) : Option HwColor :=
  if v.extractLsb' 6 26 = 0 then some (v.extractLsb' 0 6) else none

/-- The operand form u32 (R5, R96). -/
def u32Operand (v : Word) : Nat := v.toNat

/-- The operand form s32 (R5, R96). -/
def s32Operand (v : Word) : Int := v.toInt

/-- A region `{originX, originY, width, height}` (10_state.md R26), on exact integers. -/
structure Region where
  ox : Int
  oy : Int
  rw : Int
  rh : Int
  deriving DecidableEq, Repr

/-- The full region `{0, 0, W, H}`. -/
def State.fullRegion (s : State) : Region :=
  { ox := 0, oy := 0, rw := s.width.toNat, rh := s.height.toNat }

/-- `ResolveRegion()` (R71): `RGN = 0` takes the full region, `RGN = 1` the region registers. -/
def State.resolveRegion (s : State) (rgn : Bool) : Region :=
  if rgn then
    { ox := s32Operand s.rgnOx, oy := s32Operand s.rgnOy, rw := s32Operand s.rgnW, rh := s32Operand s.rgnH }
  else s.fullRegion

/-- `InBitmap(x, y)` (20_memory.md R69). -/
abbrev State.InBitmap (s : State) (x y : Int) : Prop :=
  0 ≤ x ∧ x < s.width.toNat ∧ 0 ≤ y ∧ y < s.height.toNat

/-- `InRegion(x, y)` (R72): inside the region's extent, and the absolute pixel inside the bitmap. -/
abbrev State.InRegion (s : State) (r : Region) (x y : Int) : Prop :=
  0 ≤ x ∧ x < r.rw ∧ 0 ≤ y ∧ y < r.rh ∧ s.InBitmap (r.ox + x) (r.oy + y)

end Sys2Proof.Machine
end

