-- ==== Sys2Proof/Machine/Ops.lean ====
section
/-! DEFINITION. The shared operations of the engine: memory, windows, the packed bitmap layout (20_memory.md R64 to R72),
results, allocation (41_bitmap_store.md R151), and raising an error or halting (60_exceptions.md R302, R306). -/

namespace Sys2Proof.Machine

/-! ### Memory -/

/-- The value listed for offset `a`, if any. -/
def Memory.lookup : Memory → Nat → Option Byte
  | [], _ => none
  | (k, v) :: m, a => if a = k then some v else Memory.lookup m a

/-- Writing one byte keeps the offsets rising. -/
def Memory.write : Memory → Nat → Byte → Memory
  | [], a, b => [(a, b)]
  | (k, v) :: m, a, b =>
    if a < k then (a, b) :: (k, v) :: m
    else if a = k then (a, b) :: m
    else (k, v) :: Memory.write m a b

/-- The memory that lists the offsets `[0, n)` with the values of `f`. -/
def Memory.tabulate (n : Nat) (f : Nat → Byte) : Memory := (List.range n).map fun a => (a, f a)

/-- `n` bytes of `b`. -/
def Memory.fill (n : Nat) (b : Byte) : Memory := Memory.tabulate n fun _ => b

/-- What a window shows at offset `a`: the listed byte, else the byte of the window's draw (R342; log 5). This is the
one definition of what an unlisted offset reads as. -/
def Window.byte (w : Window) (a : Nat) : Byte := (Memory.lookup w.cells a).getD (Config.freeByte w.draw a)

/-- One byte written to a window. -/
def Window.write (w : Window) (a : Nat) (b : Byte) : Window := { w with cells := Memory.write w.cells a b }

/-- `n` bytes of `b` in a window, and no other byte specified. -/
def Window.fill (w : Window) (n : Nat) (b : Byte) : Window := { w with cells := Memory.fill n b }

/-! ### Palette files -/

/-- Byte `i` of a palette file (10_state.md R30). -/
def Palette.slot (p : Palette) (i : SlotIx) : Byte := p[i.toNat]'i.isLt

/-- The palette file with byte `f i` in slot `i`. -/
def Palette.ofSlots (f : SlotIx → Byte) : Palette :=
  #v[f 0, f 1, f 2, f 3, f 4, f 5, f 6, f 7, f 8, f 9, f 10, f 11, f 12, f 13, f 14, f 15]

/-- The slots 0..15 in ascending order. -/
def allSlots : List SlotIx := (List.range 16).map (BitVec.ofNat 4)

/-! ### The packed bitmap -/

/-- `W` as a number (R27). -/
abbrev State.w (s : State) : Nat := s.width.toNat

/-- `H` as a number (R27). -/
abbrev State.h (s : State) : Nat := s.height.toNat

/-- `ARB = ceil(W/8)` (R64). -/
def alphaRowBytes (w : Nat) : Nat := (w + 7) / 8

/-- `CRB = W div 2 + 1` (R65). -/
def colorRowBytes (w : Nat) : Nat := w / 2 + 1

/-- The size of ALPHA, `H * ARB` bytes (R64). -/
def State.alphaSize (s : State) : Nat := s.h * alphaRowBytes s.w

/-- The size of COLOR, `H * CRB` bytes (R65). -/
def State.colorSize (s : State) : Nat := s.h * colorRowBytes s.w

/-- The size of OUT, `4 * W * H` bytes (R70). -/
def State.outSize (s : State) : Nat := 4 * s.w * s.h

/-- The size of SRC, `4 * MAX_W * MAX_H` bytes (10_state.md R38). -/
def State.srcSize (s : State) : Nat := 4 * s.maxW.toNat * s.maxH.toNat

/-- The offset of the ALPHA byte that holds pixel `(x, y)` (R66). -/
def State.alphaOffset (s : State) (x y : Nat) : Nat := y * alphaRowBytes s.w + x / 8

/-- The offset of the COLOR byte that holds pixel `(x, y)` (R67). -/
def State.colorOffset (s : State) (x y : Nat) : Nat := y * colorRowBytes s.w + x / 2

/-- `AlphaGet(x, y)` (R66): bit `x mod 8`, pixel 0 in bit 0. -/
def State.alphaGet (s : State) (x y : Nat) : Bool := (s.alpha.byte (s.alphaOffset x y)).getLsbD (x % 8)

/-- Bit `k` of a byte set to `b`, the others unchanged (R66). -/
def setBit (v : Byte) (k : Nat) (b : Bool) : Byte :=
  if b then v ||| 1#8 <<< k else v &&& ~~~(1#8 <<< k)

/-- `AlphaSet(x, y, b)` (R66). -/
def State.alphaSet (s : State) (x y : Nat) (b : Bool) : State :=
  let a := s.alphaOffset x y
  { s with alpha := s.alpha.write a (setBit (s.alpha.byte a) (x % 8) b) }

/-- The nibble of pixel column `x` in its byte: low when `x` is even, high when it is odd (R67). -/
def nibbleOf (v : Byte) (x : Nat) : SlotIx :=
  if x % 2 = 0 then v.extractLsb' 0 4 else v.extractLsb' 4 4

/-- The byte with the nibble of pixel column `x` replaced, the other nibble unchanged (R67). -/
def setNibble (v : Byte) (x : Nat) (c : SlotIx) : Byte :=
  if x % 2 = 0 then v.extractLsb' 4 4 ++ c else c ++ v.extractLsb' 0 4

/-- `NibGet(x, y)` (R67). -/
def State.nibGet (s : State) (x y : Nat) : SlotIx := nibbleOf (s.color.byte (s.colorOffset x y)) x

/-- `NibSet(x, y, v)` (R67). -/
def State.nibSet (s : State) (x y : Nat) (c : SlotIx) : State :=
  let a := s.colorOffset x y
  { s with color := s.color.write a (setNibble (s.color.byte a) x c) }

/-- An opaque pixel of colour `c` at `(x, y)`: its alpha bit and its nibble (41_bitmap_store.md R161, 44_drawing.md R260). -/
def State.setPixel (s : State) (x y : Nat) (c : SlotIx) : State := (s.alphaSet x y true).nibSet x y c

/-- `Plot` (44_drawing.md R260): the pixel and DIRTY when the point is inside, nothing when it is not. -/
def State.plot (r : Region) (c : SlotIx) (s : State) (p : Int × Int) : State :=
  if s.InRegion r p.1 p.2 then (s.setPixel (r.ox + p.1).toNat (r.oy + p.2).toNat c).markDirty else s

/-! ### Draws -/

/-- OUT resized, its contents unspecified: a new draw (41_bitmap_store.md R156). -/
def State.redrawOut (s : State) : State :=
  { s with out := Window.unspecified s.draws, draws := s.draws + 1 }

/-- COLOR reallocated, its contents unspecified: a new draw (41_bitmap_store.md R157). -/
def State.redrawColor (s : State) : State :=
  { s with color := Window.unspecified s.draws, draws := s.draws + 1 }

/-! ### Results, allocation, errors -/

/-- RES0 and RES1 receive a command's result (10_state.md R28). -/
def State.setResult (s : State) (lo hi : Word) : State := { s with res0 := lo, res1 := hi }

/-- WIDTH and HEIGHT (10_state.md R27). -/
def State.setSize (s : State) (w h : Word) : State := { s with width := w, height := h }

/-- ALPHA as `H*ARB` bytes of `b` (R152, R155, R160, R165). -/
def State.fillAlpha (s : State) (b : Byte) : State := { s with alpha := s.alpha.fill s.alphaSize b }

/-- COLOR as `H*CRB` bytes of `b` (R152, R160). -/
def State.fillColor (s : State) (b : Byte) : State := { s with color := s.color.fill s.colorSize b }

/-- `Alloc(w, h)` fails: the capacity is the only limit (41_bitmap_store.md R151). -/
abbrev State.ExceedsCapacity (s : State) (w h : Word) : Prop :=
  s.maxW.toNat < u32Operand w ∨ s.maxH.toNat < u32Operand h

/-- A bitmap of `w x h` with zeroed planes, OUT unspecified and DIRTY set: CREATE after its check (R152), and the start of
QUANTIZE's step 11 (42_quantizer.md R212). -/
def State.createBitmap (s : State) (w h : Word) : State :=
  ((((s.setSize w h).fillAlpha 0).fillColor 0).redrawOut).markDirty

/-- `raise E(code)` (60_exceptions.md R302): the block's one way to take a recoverable error. There is no handler, no
saved state and no return (R309). -/
def State.raiseError (s : State) (code : ECode) : State :=
  { s with status := { s.status with err := true, ecode := code, hit := false, busy := false } }

/-- `halt FATAL(F_ALLOC)` (60_exceptions.md R306). -/
def State.haltFatal (s : State) : State :=
  { s with status := { s.status with fatal := true, err := true, ecode := .alloc, hit := false, busy := false } }

end Sys2Proof.Machine
end

