-- ==== Sys2Proof/Machine/BitmapStore.lean ====
section
/-! DEFINITION. The packed bitmap store (41_bitmap_store.md): NOP, CREATE, RESIZE, CLEAR, CLEARALPHA, GETCOLOR. -/

namespace Sys2Proof.Machine

/-- NOP (R150). -/
def execNop (s : State) : Host.Outcome State Fault Refusal :=
  .next s.startCommand.completeCommand

/-- CREATE (R152). -/
def execCreate (s : State) : Host.Outcome State Fault Refusal :=
  let s := s.startCommand
  let w := s.args[0]
  let h := s.args[1]
  .next <| if s.ExceedsCapacity w h then s.haltFatal else (s.createBitmap w h).completeCommand

/-- RESIZE past its checks (R155): ALPHA zeroed, COLOR and OUT unspecified. -/
def State.resizeBitmap (s : State) (w h : Word) : State :=
  ((((s.setSize w h).fillAlpha 0).redrawColor).redrawOut).markDirty

/-- RESIZE (R155): the test for an unchanged size comes before the allocation. -/
def execResize (s : State) : Host.Outcome State Fault Refusal :=
  let s := s.startCommand
  let w := s.args[0]
  let h := s.args[1]
  .next <|
    if w = s.width ∧ h = s.height then s.completeCommand
    else if s.ExceedsCapacity w h then s.haltFatal
    else (s.resizeBitmap w h).completeCommand

/-- `IsFullRegion` (20_memory.md R71). -/
abbrev State.IsFullRegion (s : State) (r : Region) : Prop := r = s.fullRegion

/-- The absolute pixels of the bitmap that lie in a region (R161), row by row. -/
def State.regionPixels (s : State) (r : Region) : List (Nat × Nat) :=
  ((List.range s.h).flatMap fun y => (List.range s.w).map fun x => (x, y)).filter fun p =>
    s.InRegion r ((p.1 : Int) - r.ox) ((p.2 : Int) - r.oy)

/-- `ClearRegion` (R161): "exactly the pixels (px, py) with ox <= px < ox + rw, oy <= py < oy + rh and
InBitmap(px, py)"; DIRTY only when it writes one. The visiting order cannot be observed, and here it is that of the
bitmap (log 15). -/
def State.clearRegion (s : State) (r : Region) (c : SlotIx) : State :=
  let pixels := s.regionPixels r
  let s' := pixels.foldl (fun t p => t.setPixel p.1 p.2 c) s
  if pixels.isEmpty then s' else s'.markDirty

/-- The full-region fill (R160): every byte of both planes, padding included. -/
def State.clearFull (s : State) (c : SlotIx) : State := ((s.fillAlpha 0xFF).fillColor (c ++ c)).markDirty

/-- CLEAR (R160, R161). -/
def execClear (rgn : Bool) (s : State) : Host.Outcome State Fault Refusal :=
  let s := s.startCommand
  .next <| match col4Operand s.args[0] with
    | none => s.raiseError .arg
    | some c =>
      let r := s.resolveRegion rgn
      (if s.IsFullRegion r then s.clearFull c else s.clearRegion r c).completeCommand

/-- CLEARALPHA (R165). -/
def execClearAlpha (s : State) : Host.Outcome State Fault Refusal :=
  .next (s.startCommand.fillAlpha 0).markDirty.completeCommand

/-- GETCOLOR (R170). -/
def execGetColor (rgn : Bool) (s : State) : Host.Outcome State Fault Refusal :=
  let s := s.startCommand
  let x := s32Operand s.args[0]
  let y := s32Operand s.args[1]
  let r := s.resolveRegion rgn
  .next <|
    if s.InRegion r x y then
      (s.setResult ((s.nibGet (r.ox + x).toNat (r.oy + y).toNat).setWidth 32) 0).completeCommand
    else s.raiseError .bounds

end Sys2Proof.Machine
end

