-- ==== Sys2Proof/Machine/ColorTables.lean ====
section
/-! DEFINITION. The configuration of the colour model with the values the spec gives it (00_scope.md R4, 10_state.md R21):
HWC_LAYOUT (40_color_model.md R120; log 12), GAMMA_TABLE (R122) and LIN_TABLE (R123; log 13). -/

namespace Sys2Proof.Config

/-- `HWC_LAYOUT`: which bit of a hardware colour is the low and the high bit of each channel (R120). -/
structure HwcLayout where
  redLow : Nat
  greenLow : Nat
  blueLow : Nat
  redHigh : Nat
  greenHigh : Nat
  blueHigh : Nat
  deriving DecidableEq, Repr

/-- The EGA `rgbRGB` layout of R120, most significant bit first: r g b R G B. -/
def hwcLayout : HwcLayout :=
  { redLow := 5, greenLow := 4, blueLow := 3, redHigh := 2, greenHigh := 1, blueHigh := 0 }

/-- `GAMMA_TABLE` (R122): the entries 0 to 31. -/
def gammaRows0 : List F64 :=
  [0x0000000000000000, 0x3ED54B71665FD808, 0x3EF8761046218A54, 0x3F0DD7E8FA315A0D,
   0x3F1C1938DCFAB696, 0x3F26F42F832248A5, 0x3F3123F9DF4C5AAA, 0x3F380F8645A4145E,
   0x3F40236BD45ECF27, 0x3F44E97737CE0D27, 0x3F4A5DF6F84D3C18, 0x3F504251CB9BE4BF,
   0x3F53B075FC9EA7EF, 0x3F577B008C60C7E7, 0x3F5BA36F87788733, 0x3F6015950D996310,
   0x3F6289C1BA29E4C4, 0x3F652EDE8BCEBA94, 0x3F68058469B058F9, 0x3F6B0E453058EDFC,
   0x3F6E49AC62759428, 0x3F70DC1FE000CB2E, 0x3F72AD3FE45204F8, 0x3F749874167A2DA1,
   0x3F769DF818C73648, 0x3F78BE058322D633, 0x3F7AF8D409A8ED79, 0x3F7D4E999EFB2138,
   0x3F7FBF8A92EF02D4, 0x3F8125ECD70C3A38, 0x3F8279DC254E02B1, 0x3F83DBAB3551B0EC]

/-- `GAMMA_TABLE` (R122): the entries 32 to 63. -/
def gammaRows1 : List F64 :=
  [0x3F854B71665FD80B, 0x3F86C9457F3D0C1D, 0x3F88553DB6A49588, 0x3F89EF6FBB0CFEB6,
   0x3F8B97F0B9CAA097, 0x3F8D4ED565A19711, 0x3F8F1431FCD63949, 0x3F90740D2764A0AE,
   0x3F916550E0959445, 0x3F925DEDAA686AE7, 0x3F935DECD5194422, 0x3F94655782CE6F47,
   0x3F957436A98D7B8F, 0x3F968A93150FF02A, 0x3F97A875687A7114, 0x3F98CDE61FF8CB14,
   0x3F99FAED92411F16, 0x3F9B2F93F2002C07, 0x3F9C6BE14F30830C, 0x3F9DAFDD985E45D3,
   0x3F9EFB909BD8E67B, 0x3FA02781046A1F10, 0x3FA0D51CB83D1799, 0x3FA1869F2376F6C6,
   0x3FA23C0BF220F669, 0x3FA2F566C2B0AFE3, 0x3FA3B2B326770F86, 0x3FA473F4A209DE03,
   0x3FA5392EADA83A11, 0x3FA60264B59A554A, 0x3FA6CF9A1A8CC07D, 0x3FA7A0D231E78DEF]

/-- `GAMMA_TABLE` (R122): the entries 64 to 95. -/
def gammaRows2 : List F64 :=
  [0x3FA8761046218A58, 0x3FA94F57970FC8CA, 0x3FAA2CAB5A31B8F0, 0x3FAB0E0EBAF9FB29,
   0x3FABF384DB142255, 0x3FACDD10D2A78F80, 0x3FADCAB5B09790D5, 0x3FAEBC767AC0EA09,
   0x3FAFB2562E34EA54, 0x3FB0562BDFB91872, 0x3FB0D53F0D4D9FAD, 0x3FB1566611D57B8B,
   0x3FB1D9A25B538E71, 0x3FB25EF553E87E14, 0x3FB2E66061EA20ED, 0x3FB36FE4E7FA129E,
   0x3FB3FB84451B79F4, 0x3FB4893FD4C80A38, 0x3FB51918EF044945, 0x3FB5AB10E87322FF,
   0x3FB63F291268D28C, 0x3FB6D562BAFD28F1, 0x3FB76DBF2D1D3875, 0x3FB8083FB09C6BA7,
   0x3FB8A4E58A450EAF, 0x3FB943B1FBE850E4, 0x3FB9E4A6446DC49B, 0x3FBA87C39FE262AB,
   0x3FBB2D0B478716E9, 0x3FBBD47E71DEDA81, 0x3FBC7E1E52BC60E2, 0x3FBD29EC1B4F5BB2]

/-- `GAMMA_TABLE` (R122): the entries 96 to 127. -/
def gammaRows3 : List F64 :=
  [0x3FBDD7E8FA315A12, 0x3FBE88161B724718, 0x3FBF3A74A8A48B68, 0x3FBFEF05C8E8D57A,
   0x3FC052E5507CC60E, 0x3FC0AF62299AF72B, 0x3FC10CF9FFD671EF, 0x3FC16BAD6213C08F,
   0x3FC1CB7CDE19A0D2, 0x3FC22C690095FDCA, 0x3FC28E725522C76E, 0x3FC2F199664AA938,
   0x3FC355DEBD8DA113, 0x3FC3BB42E3657795, 0x3FC421C65F4A1AB8, 0x3FC48969B7B5DBFA,
   0x3FC4F22D7229930A, 0x3FC55C121330A5BD, 0x3FC5C7181E64F661, 0x3FC633401672B929,
   0x3FC6A08A7D1C31A1, 0x3FC70EF7D33D58D9, 0x3FC77E8898CF6D22, 0x3FC7EF3D4CEC6BFD,
   0x3FC861166DD27714, 0x3FC8D41478E724BF, 0x3FC94837EABABCD3, 0x3FC9BD813F0B6252,
   0x3FCA33F0F0C82A9E, 0x3FCAAB877A1422A7, 0x3FCB2445544942C2, 0x3FCB9E2AF7FB5191]

/-- `GAMMA_TABLE` (R122): the entries 128 to 159. -/
def gammaRows4 : List F64 :=
  [0x3FCC1938DCFAB69B, 0x3FCC956F7A573CF6, 0x3FCD12CF4662C68E, 0x3FCD9158B6B3F076,
   0x3FCE110C4028A8B2, 0x3FCE91EA56E8B5DB, 0x3FCF13F36E683134, 0x3FCF9727F969F345,
   0x3FD00DC43500F9D1, 0x3FD0508A98CBCE0B, 0x3FD093E7607407CF, 0x3FD0D7DAC40432BB,
   0x3FD11C64FB33EC59, 0x3FD161863D68F632, 0x3FD1A73EC1B8428F, 0x3FD1ED8EBEE6FBCB,
   0x3FD234766B6B867E, 0x3FD27BF5FD6E7EA4, 0x3FD2C40DAACBAFD7, 0x3FD30CBDA91308BF,
   0x3FD356062D8989DF, 0x3FD39FE76D2A2FCF, 0x3FD3EA619CA6D91D, 0x3FD43574F06927CE,
   0x3FD481219C935EAF, 0x3FD4CD67D5013A94, 0x3FD51A47CD48C798, 0x3FD567C1B8BB3272,
   0x3FD5B5D5CA659609, 0x3FD604843511C543, 0x3FD653CD2B47114F, 0x3FD6A3B0DF4B0C51]

/-- `GAMMA_TABLE` (R122): the entries 160 to 191. -/
def gammaRows5 : List F64 :=
  [0x3FD6F42F832248A9, 0x3FD74549489114DE, 0x3FD796FE611C3439, 0x3FD7E94EFE099437,
   0x3FD83C3B5060FED6, 0x3FD88FC388ECC9C4, 0x3FD8E3E7D83A82B6, 0x3FD938A86E9B98B3,
   0x3FD98E057C260290, 0x3FD9E3FF30B4E2AB, 0x3FDA3A95BBE927E1, 0x3FDA91C94D2A2BE5,
   0x3FDAE99A13A64EF6, 0x3FDB42083E539109, 0x3FDB9B13FBF02880, 0x3FDBF4BD7B03166B,
   0x3FDC4F04E9DCB861, 0x3FDCA9EA76975812, 0x3FDD056E4F17B88B, 0x3FDD6190A10DA13B,
   0x3FDDBE5199F466DA, 0x3FDE1BB16713720B, 0x3FDE79B0357EC416, 0x3FDED84E3217796E,
   0x3FDF378B898C4A49, 0x3FDF9768685A093C, 0x3FDFF7E4FACC1FEC, 0x3FE02C80B67E84EF,
   0x3FE05D5EF56B66B7, 0x3FE08E8D5009B976, 0x3FE0C00BDC1EBD0B, 0x3FE0F1DAAF5826D4]

/-- `GAMMA_TABLE` (R122): the entries 192 to 223. -/
def gammaRows6 : List F64 :=
  [0x3FE123F9DF4C5AAD, 0x3FE15669817AA310, 0x3FE18929AB4B686F, 0x3FE1BC3A721067B1,
   0x3FE1EF9BEB04E7F7, 0x3FE2234E2B4DEF8B, 0x3FE2575147FA781D, 0x3FE28BA55603A23C,
   0x3FE2C04A6A4CE811, 0x3FE2F54099A44F67, 0x3FE32A87F8C29B04, 0x3FE360209C4B7B4F,
   0x3FE3960A98CDBE44, 0x3FE3CC4602C37EC8, 0x3FE402D2EE925356, 0x3FE439B1708B7C03,
   0x3FE470E19CEC0FE6, 0x3FE4A86387DD29E4, 0x3FE4E037457414E2, 0x3FE5185CE9B2775C,
   0x3FE550D488867E6C, 0x3FE5899E35CB0837, 0x3FE5C2BA0547CDDC, 0x3FE5FC280AB18CC4,
   0x3FE635E859AA2F6E, 0x3FE66FFB05C0F5B6, 0x3FE6AA6022729C97, 0x3FE6E517C3298565,
   0x3FE72021FB3DDC89, 0x3FE75B7EDDF5BFBB, 0x3FE7972E7E8563CE, 0x3FE7D330F00F39EA]

/-- `GAMMA_TABLE` (R122): the entries 224 to 255. -/
def gammaRows7 : List F64 :=
  [0x3FE80F8645A41462, 0x3FE84C2E92434B0B, 0x3FE88929E8DADF20, 0x3FE8C6785C479EB3,
   0x3FE90419FF5547B3, 0x3FE9420EE4BEAA78, 0x3FE980571F2DCBF4, 0x3FE9BEF2C13C0768,
   0x3FE9FDE1DD722FBC, 0x3FEA3D248648B067, 0x3FEA7CBACE27ADFB, 0x3FEABCA4C7672641,
   0x3FEAFCE2844F1003, 0x3FEB3D7417177A5E, 0x3FEB7E5991E8ABD2, 0x3FEBBF9306DB40DB,
   0x3FEC012087F84A3B, 0x3FEC430227396AE8, 0x3FEC8537F688F59C, 0x3FECC7C207C20A12,
   0x3FED0AA06CB0B1EC, 0x3FED4DD33711FD3C, 0x3FED915A78941ECC, 0x3FEDD53642D687FD,
   0x3FEE1966A76A0465, 0x3FEE5DEBB7D0D513, 0x3FEEA2C5857ECB8D, 0x3FEEE7F421D9647B,
   0x3FEF2D779E37E205, 0x3FEF73500BE365E5, 0x3FEFB97D7C170B39, 0x3FF0000000000000]

/-- `GAMMA_TABLE[v]` for `v` in [0, 256), as binary64 patterns (R122): entry `v` is entry `v % 32` of
row `v / 32`. -/
def gammaTable : List (List F64) :=
  [gammaRows0, gammaRows1, gammaRows2, gammaRows3, gammaRows4, gammaRows5, gammaRows6, gammaRows7]

/-- `LIN_TABLE` (R123): the entries 0 to 31. -/
def linRows0 : List F64 :=
  [0x0000000000000000, 0x3F33E45677C176F7, 0x3F43E45677C176F7, 0x3F4DD681B3A23272,
   0x3F53E45677C176F7, 0x3F58DD6C15B1D4B4, 0x3F5DD681B3A23272, 0x3F6167CBA8C94818,
   0x3F63E45677C176F7, 0x3F6660E146B9A5D5, 0x3F68DD6C15B1D4B4, 0x3F6B6A31B5259C99,
   0x3F6E1E31D70C99DD, 0x3F707C38BF8583A9, 0x3F71FCC2BEED6421, 0x3F7390FFAF95E279,
   0x3F753936CC7BC928, 0x3F76F5ADDB50C915, 0x3F78C6A94031B561, 0x3F7AAC6C0FB97351,
   0x3F7CA7381F9F602B, 0x3F7EB74E160978D0, 0x3F806E76BBDA92B8, 0x3F818C2A5A8A8044,
   0x3F82B4E09B3F0AE3, 0x3F83E8B7B3BDE965, 0x3F8527CD60AF8B85, 0x3F86723EEA8D3709,
   0x3F87C8292A3DB6B3, 0x3F8929A88D67B521, 0x3F8A96D91A8016BD, 0x3F8C0FD67499FAB6]

/-- `LIN_TABLE` (R123): the entries 32 to 63. -/
def linRows1 : List F64 :=
  [0x3F8D94BBDEFD740E, 0x3F8F25A44089883F, 0x3F9061551372C694, 0x3F9135F3E4C2CCE2,
   0x3F9210BB8642B172, 0x3F92F1B8C1AE46BD, 0x3F93D8F839B79C0B, 0x3F94C6866B3E9FA4,
   0x3F95BA6FAE794313, 0x3F96B4C0380D2DEE, 0x3F97B5841A1BF3AC, 0x3F98BCC74542ADDB,
   0x3F99CA95898DC8B5, 0x3F9ADEFA9761C020, 0x3F9BFA0200597BD9, 0x3F9D1BB7381AEC1F,
   0x3F9E442595227BCA, 0x3F9F73585185E1B5, 0x3FA054AD45D76878, 0x3FA0F31BA386FF26,
   0x3FA194FCB663747B, 0x3FA23A55E62A662A, 0x3FA2E32C8E148D11, 0x3FA38F85FD21EACF,
   0x3FA43F67766310FF, 0x3FA4F2D6313FA8D0, 0x3FA5A9D759BA5ED0, 0x3FA6647010B254EE,
   0x3FA722A56C2239EE, 0x3FA7E47C775D2427, 0x3FA8A9FA33494B07, 0x3FA973239698B9CC]

/-- `LIN_TABLE` (R123): the entries 64 to 95. -/
def linRows2 : List F64 :=
  [0x3FAA3FFD8E001389, 0x3FAB108CFC6B7FBC, 0x3FABE4D6BB31D522, 0x3FACBCDF9A4616F2,
   0x3FAD98AC60675833, 0x3FAE7841CB4F16DF, 0x3FAF5BA48FDE2048, 0x3FB0216CAD240765,
   0x3FB096F2671EB815, 0x3FB10E65C38A5192, 0x3FB187C90BF8BCE2, 0x3FB2031E85F5D6DA,
   0x3FB28068731A1952, 0x3FB2FFA9111CB94B, 0x3FB380E299E53F92, 0x3FB40417439CA10F,
   0x3FB4894940BDDBFB, 0x3FB5107AC0261E59, 0x3FB599ADED247AAC, 0x3FB624E4EF892ED4,
   0x3FB6B221EBB4817E, 0x3FB7416702A539D1, 0x3FB7D2B65206B527, 0x3FB86611F43E9E6A,
   0x3FB8FB7C007A4A70, 0x3FB992F68ABBBC89, 0x3FBA2C83A3E6566D, 0x3FBAC82559CB3644,
   0x3FBB65DDB7354604, 0x3FBC05AEC3F4FE5E, 0x3FBCA79A84EBE030, 0x3FBD4BA2FC17A6A5]

/-- `LIN_TABLE` (R123): the entries 96 to 127. -/
def linRows3 : List F64 :=
  [0x3FBDF1CA289D34B8, 0x3FBE9A1206D34003, 0x3FBF447C904CBB4E, 0x3FBFF10BBBE302C2,
   0x3FC04FE0BEDFE5F1, 0x3FC0A84FE3B36D8F, 0x3FC101D443DFC06F, 0x3FC15C6ED58EEFDF,
   0x3FC1B8208DA5FEF0, 0x3FC214EA5FC9514A, 0x3FC272CD3E610123, 0x3FC2D1CA1A9D1CFB,
   0x3FC331E1E479CDF5, 0x3FC393158AC3674E, 0x3FC3F565FB1A5FD5, 0x3FC458D421F735DF,
   0x3FC4BD60EAAE3E73, 0x3FC5230D3F736034, 0x3FC589DA095DBAA1, 0x3FC5F1C8306B3A3C,
   0x3FC65AD89B841A2B, 0x3FC6C50C307E53BF, 0x3FC73063D420FC80, 0x3FC79CE06A279303,
   0x3FC80A82D5453B5D, 0x3FC8794BF727EB3F, 0x3FC8E93CB07B8679, 0x3FC95A55E0ECEC0B,
   0x3FC9CC98672CF47E, 0x3FCA400520F3619C, 0x3FCAB49CEB01C003, 0x3FCB2A60A1263B0A]

/-- `LIN_TABLE` (R123): the entries 128 to 159. -/
def linRows4 : List F64 :=
  [0x3FCBA1511E3E632D, 0x3FCC196F3C39E76F, 0x3FCC92BBD41D41FE, 0x3FCD0D37BE045851,
   0x3FCD88E3D1250F68, 0x3FCE05C0E3D1D3E0, 0x3FCE83CFCB7C16F0, 0x3FCF03115CB6BFD3,
   0x3FCF83866B38924D, 0x3FD00297E4EF4553, 0x3FD044072557177A, 0x3FD086115F6BEB3A,
   0x3FD0C8B6FB5C735E, 0x3FD10BF860EF039A, 0x3FD14FD5F782A5A6, 0x3FD1945026102997,
   0x3FD1D967532B31B1, 0x3FD21F1BE50339E7, 0x3FD2656E41649AE3, 0x3FD2AC5ECDB988F8,
   0x3FD2F3EDEF0B0ED8, 0x3FD33C1C0A020438, 0x3FD384E982E800B1, 0x3FD3CE56BDA84A81,
   0x3FD418641DD0C1BC, 0x3FD463120692C7AF, 0x3FD4AE60DAC4229D, 0x3FD4FA50FCDFDE15,
   0x3FD546E2CF0727A9, 0x3FD59416B3022858, 0x3FD5E1ED0A40DAAB, 0x3FD6306635DBDD7B]

/-- `LIN_TABLE` (R123): the entries 160 to 191. -/
def linRows5 : List F64 :=
  [0x3FD67F82969543A2, 0x3FD6CF428CD96079, 0x3FD71FA678BF915D, 0x3FD770AEBA0B042A,
   0x3FD7C25BB02B7AC5, 0x3FD814ADBA3E0BD9, 0x3FD867A5370DE0B1, 0x3FD8BB428514F067,
   0x3FD90F86027CB84E, 0x3FD964700D1EF1B1, 0x3FD9BA0102864521, 0x3FDA10393FEEFAFD,
   0x3FDA67192247A9BE, 0x3FDABEA10631E195, 0x3FDB16D14802D5CA, 0x3FDB6FAA43C403BB,
   0x3FDBC92C5533D785, 0x3FDC2357D7C64E5D, 0x3FDC7E2D26A596DE, 0x3FDCD9AC9CB2AEF2,
   0x3FDD35D69485FFC5, 0x3FDD92AB686FF782, 0x3FDDF02B7279A10D, 0x3FDE4E570C6539C5,
   0x3FDEAD2E8FAEC526, 0x3FDF0CB2558C9EA4, 0x3FDF6CE2B6F00983, 0x3FDFCDC00C85BEC2,
   0x3FE017A5575B3CB2, 0x3FE048C17AD3C04B, 0x3FE07A349C9D9837, 0x3FE0ABFEE888C050]

/-- `LIN_TABLE` (R123): the entries 192 to 223. -/
def linRows6 : List F64 :=
  [0x3FE0DE208A4444C8, 0x3FE11099AD5E83EB, 0x3FE1436A7D456EEF, 0x3FE176932546CA12,
   0x3FE1AA13D0906BDA, 0x3FE1DDECAA307B85, 0x3FE2121DDD15AECE, 0x3FE246A7940F86D1,
   0x3FE27B89F9CE8C4B, 0x3FE2B0C538E48B07, 0x3FE2E6597BC4CCA0, 0x3FE31C46ECC4528D,
   0x3FE3528DB61A0F73, 0x3FE3892E01DF1FCC, 0x3FE3C027FA0F01EB, 0x3FE3F77BC887CD3B,
   0x3FE42F29970A68F8, 0x3FE467318F3AC22D, 0x3FE49F93DAA00113, 0x3FE4D850A2A4BDE1,
   0x3FE51168109734E5, 0x3FE54ADA4DA97A1B, 0x3FE584A782F1AC23, 0x3FE5BECFD96A2698,
   0x3FE5F95379F1B3ED, 0x3FE634328D4BBE97, 0x3FE66F6D3C2081CF, 0x3FE6AB03AEFD39AA,
   0x3FE6E6F60E5452B1, 0x3FE72344827D98F6, 0x3FE75FEF33B6669B, 0x3FE79CF64A21D1E2]

/-- `LIN_TABLE` (R123): the entries 224 to 255. -/
def linRows7 : List F64 :=
  [0x3FE7DA59EDC8DAB0, 0x3FE8181A469A9787, 0x3FE856377C6C6224, 0x3FE894B1B6FA0377,
   0x3FE8D3891DE5DF49, 0x3FE912BDD8B91F45, 0x3FE952500EE3DDA5, 0x3FE9923FE7BD4F67,
   0x3FE9D28D8A83EDFC, 0x3FEA13391E5DA09F, 0x3FEA5442CA57E52E, 0x3FEA95AAB567F88F,
   0x3FEAD771066AFEC2, 0x3FEB1995E4262A69, 0x3FEB5C197546E3F8, 0x3FEB9EFBE062F086,
   0x3FEBE23D4BF8981B, 0x3FEC25DDDE6ECBBB, 0x3FEC69DDBE154AF1, 0x3FECAE3D1124C90B,
   0x3FECF2FBFDBF11F1, 0x3FED381AA9EF2E82, 0x3FED7D993BA988D4, 0x3FEDC377D8CC0FD5,
   0x3FEE09B6A71E5AA6, 0x3FEE5055CC51CBB4, 0x3FEE97556E01B351, 0x3FEEDEB5B1B37216,
   0x3FEF2676BCD69ADE, 0x3FEF6E98B4C51466, 0x3FEFB71BBEC33AB2, 0x3FF0000000000000]

/-- `LIN_TABLE[v]` for `v` in [0, 256), as binary64 patterns (R123): entry `v` is entry `v % 32` of
row `v / 32`. -/
def linTable : List (List F64) :=
  [linRows0, linRows1, linRows2, linRows3, linRows4, linRows5, linRows6, linRows7]

end Sys2Proof.Config
end

