-- ==== Sys2Proof/Machine/Float64.lean ====
section
/-! DEFINITION. IEEE 754 binary64 arithmetic on bit patterns, with round to nearest, ties to even (00_scope.md R6; log 11).

Every finite binary64 number is an integer multiple of 2^-1074, so sums and products are computed exactly on integers
and rounded once. The rules use finite values only (R6, 42_quantizer.md R205). -/

namespace Sys2Proof.Binary64

/-- 2^52, the hidden bit of a normal number's significand. -/
def hiddenBit : Nat := 0x10000000000000

/-- 2^63, the weight of the sign bit. -/
def signWeight : Nat := 0x8000000000000000

/-- Bits [62:0] of the pattern of infinity. -/
def infinityBits : Nat := 0x7FF0000000000000

/-- The sign bit of a pattern. -/
def signBit (x : F64) : Bool := x.getLsbD 63

/-- The biased exponent of a pattern. -/
def expField (x : F64) : Nat := (x.extractLsb' 52 11).toNat

/-- The fraction of a pattern. -/
def fracField (x : F64) : Nat := (x.extractLsb' 0 52).toNat

/-- `|x|` in units of 2^-1074, for a finite pattern: a subnormal is its fraction, a normal number has the hidden bit
and is shifted by its exponent less 1. -/
def magnitude (x : F64) : Nat :=
  if expField x = 0 then fracField x else (hiddenBit + fracField x) <<< (expField x - 1)

/-- The exact value of a finite pattern in units of 2^-1074. -/
def value (x : F64) : Int := if signBit x then -(magnitude x : Int) else (magnitude x : Int)

/-- `m / 2^t` rounded to the nearest integer, a tie going to the even one. -/
def shiftRoundEven (m t : Nat) : Nat :=
  let q := m >>> t
  let r := m - q <<< t
  let half := 1 <<< t
  if half < 2 * r ∨ (half = 2 * r ∧ q % 2 = 1) then q + 1 else q

/-- The number of bits of an `m` below `2^(2^k)`, found by halving. -/
def bitLengthBelow : Nat → Nat → Nat
  | 0, m => m
  | k + 1, m =>
    if m >>> (1 <<< k) = 0 then bitLengthBelow k m else 1 <<< k + bitLengthBelow k (m >>> (1 <<< k))

/-- The number of bits of `m`; 0 for 0. A magnitude has at most 2098 bits and a product of two at most 4196, below the
`2^13` this covers. -/
def bitLength (m : Nat) : Nat := bitLengthBelow 13 m

/-- The bits [62:0] of `RN64` of the magnitude `m * 2^-(1074 + k)`. `e` binades lie above the subnormal range, so the
number keeps 53 bits above `k + e`. A significand of 52 bits with `e = 0` is a subnormal, one that rounds up to 2^53
carries into the exponent, and both come out of the one sum; what rounds past the largest finite number is infinity,
which R6 excludes. -/
def roundMagnitude (m k : Nat) : Nat :=
  let e := bitLength m - k - 53
  min (e <<< 52 + shiftRoundEven m (k + e)) infinityBits

/-- A pattern from its sign bit and its bits [62:0]. -/
def pattern (neg : Bool) (bits : Nat) : F64 :=
  BitVec.ofNat 64 (if neg then signWeight + bits else bits)

/-- `RN64` of the exact value `v * 2^-1074`; an exact zero takes the sign `zeroNeg`. -/
def roundSum (v : Int) (zeroNeg : Bool) : F64 :=
  if v = 0 then pattern zeroNeg 0 else pattern (decide (v < 0)) (roundMagnitude v.natAbs 0)

/-- `a +. b` (R6). A sum that is exactly 0 is +0, but for two negative zeros. -/
def add (a b : F64) : F64 := roundSum (value a + value b) (signBit a && signBit b)

/-- `a -. b` (R6). A difference that is exactly 0 is +0, but for -0 less +0. -/
def sub (a b : F64) : F64 := roundSum (value a - value b) (signBit a && !signBit b)

/-- `a *. b` (R6): the exact product is a multiple of 2^-2148. -/
def mul (a b : F64) : F64 :=
  pattern (signBit a != signBit b) (roundMagnitude (magnitude a * magnitude b) 1074)

/-- `f64(n)` (R6), exact for `n <= 2^53`. -/
def ofNat (n : Nat) : F64 := pattern false (roundMagnitude (n <<< 1074) 0)

/-- `a < b`, the exact numeric comparison (R6). -/
def lt (a b : F64) : Bool := decide (value a < value b)

/-- `a = 0`, the exact numeric comparison (R6). -/
def isZero (a : F64) : Bool := decide (value a = 0)

end Sys2Proof.Binary64
end

