-- ==== Sys2Proof/Machine/ColorModel.lean ====
section
/-! DEFINITION. The colour model (40_color_model.md) and its commands HW2RGB, NEAREST, GDIST and LDIST. -/

namespace Sys2Proof.Machine

/-- The 64 hardware colours in ascending order. -/
def allColors : List HwColor := (List.range 64).map (BitVec.ofNat 6)

/-- `LEVEL` (R120). -/
def level (low high : Bool) : Byte :=
  match low.toNat + 2 * high.toNat with
  | 0 => 0
  | 1 => 85
  | 2 => 170
  | _ => 255

/-- `rgb(c)` under a bit layout (R120, R121), with the alpha of an opaque pixel: HW2RGB and DECODE both show it as 255
(R128, 43_decoder.md R245), and the distances do not read it (R96). -/
def rgbWith (l : Config.HwcLayout) (c : HwColor) : Rgba :=
  { r := level (c.getLsbD l.redLow) (c.getLsbD l.redHigh)
    g := level (c.getLsbD l.greenLow) (c.getLsbD l.greenHigh)
    b := level (c.getLsbD l.blueLow) (c.getLsbD l.blueHigh)
    a := 0xFF }

/-- `rgb(c)` (R121). -/
def rgb (c : HwColor) : Rgba := rgbWith Config.hwcLayout c

/-- The entry of a transfer table for a channel value (R122, R123). -/
def tableEntry (table : List (List F64)) (v : Byte) : F64 := (table.getD (v.toNat / 32) []).getD (v.toNat % 32) 0

/-- The difference of two channels under a transfer table, squared (R124). -/
def squaredGap (table : List (List F64)) (u v : Byte) : F64 :=
  let d := Binary64.sub (tableEntry table u) (tableEntry table v)
  Binary64.mul d d

/-- The distance of R124 under a transfer table, in its order of evaluation; alpha is not read. -/
def distanceWith (table : List (List F64)) (p q : Rgba) : F64 :=
  Binary64.add (Binary64.add (squaredGap table p.r q.r) (squaredGap table p.g q.g)) (squaredGap table p.b q.b)

/-- `gdist` (R124). -/
def gdist (p q : Rgba) : F64 := distanceWith Config.gammaTable p q

/-- `ldist` (R125). -/
def ldist (p q : Rgba) : F64 := distanceWith Config.linTable p q

/-- One turn of the scan of R126: a strictly smaller distance replaces the best, so the lower colour keeps a tie. -/
def nearestStep (p : Rgba) (best : HwColor × F64) (c : HwColor) : HwColor × F64 :=
  let d := gdist p (rgb c)
  if Binary64.lt d best.2 then (c, d) else best

/-- `nearest(p)` (R126). -/
def nearest (p : Rgba) : HwColor :=
  ((allColors.drop 1).foldl (nearestStep p) (0, gdist p (rgb 0))).1

/-- A distance as a result: RES0 the low word, RES1 the high word of its pattern (R130). -/
def State.setDistance (s : State) (d : F64) : State := s.setResult (d.extractLsb' 0 32) (d.extractLsb' 32 32)

/-- HW2RGB (R128). -/
def execHw2rgb (s : State) : Host.Outcome State Fault Refusal :=
  let s := s.startCommand
  .next <| match hwc6Operand s.args[0] with
    | none => s.raiseError .arg
    | some c => (s.setResult (rgb c).word 0).completeCommand

/-- NEAREST (R129). -/
def execNearest (s : State) : Host.Outcome State Fault Refusal :=
  let s := s.startCommand
  .next (s.setResult ((nearest (rgbaOperand s.args[0])).setWidth 32) 0).completeCommand

/-- GDIST (R130). -/
def execGdist (s : State) : Host.Outcome State Fault Refusal :=
  let s := s.startCommand
  .next (s.setDistance (gdist (rgbaOperand s.args[0]) (rgbaOperand s.args[1]))).completeCommand

/-- LDIST (R131). -/
def execLdist (s : State) : Host.Outcome State Fault Refusal :=
  let s := s.startCommand
  .next (s.setDistance (ldist (rgbaOperand s.args[0]) (rgbaOperand s.args[1]))).completeCommand

end Sys2Proof.Machine
end

