-- ==== Sys2Proof/Machine/Decoder.lean ====
section
/-! DEFINITION. The decoder and its cache (43_decoder.md): DECODE. -/

namespace Sys2Proof.Machine

/-- The RGBA pixel of `DecodeImage(P)` at `(x, y)` (R245). A palette byte that DECODE accepts is below 64, so its low
six bits are the hardware colour. -/
def State.decodePixel (s : State) (p : Palette) (x y : Nat) : Rgba :=
  if s.alphaGet x y then rgb ((Palette.slot p (s.nibGet x y)).setWidth 6) else { r := 0, g := 0, b := 0, a := 0 }

/-- Byte `i` of `DecodeImage(P)`: pixel `(x, y)` stands at offset `4*(y*W + x)` (R245, 20_memory.md R70). -/
def State.decodeByte (s : State) (p : Palette) (i : Nat) : Byte :=
  (s.decodePixel p (i / 4 % s.w) (i / 4 / s.w)).channel (i % 4)

/-- `DecodeImage(P)` (R245): all `4*W*H` bytes of OUT. -/
def State.decodeImage (s : State) (p : Palette) : Memory := Memory.tabulate s.outSize (s.decodeByte p)

/-- Every byte of PAL_IN is a hardware colour (R241). -/
abbrev PaletteLegal (p : Palette) : Prop := ∀ i ∈ allSlots, (Palette.slot p i).toNat < 64

/-- A recomputing DECODE (R244). -/
def State.recompute (s : State) : State :=
  { s with out := { s.out with cells := s.decodeImage s.palIn }, cachePal := s.palIn }.clearDirty

/-- DECODE (R240 to R244). -/
def execDecode (s : State) : Host.Outcome State Fault Refusal :=
  let s := s.startCommand
  .next <|
    if s.args[0] ≠ s.width ∨ s.args[1] ≠ s.height then s.raiseError .size
    else if ¬ PaletteLegal s.palIn then s.raiseError .palette
    else if s.status.dirty = false ∧ s.palIn = s.cachePal then s.markHit.completeCommand
    else s.recompute.completeCommand

end Sys2Proof.Machine
end

