-- ==== Sys2Proof/Machine/Drawing.lean ====
section
/-! DEFINITION. The drawing primitives (44_drawing.md): POINT, LINE and the six reserved commands. -/

namespace Sys2Proof.Machine

/-- POINT (R260). -/
def execPoint (rgn : Bool) (s : State) : Host.Outcome State Fault Refusal :=
  let s := s.startCommand
  .next <| match col4Operand s.args[2] with
    | none => s.raiseError .arg
    | some c =>
      (State.plot (s.resolveRegion rgn) c s (s32Operand s.args[0], s32Operand s.args[1])).completeCommand

/-- The walk of R265 once the endpoints are ordered along the major axis: the points `(u1 + i, tdiv(v1*n + dv*i, n))` for
`i` in `[0, n)`, `n = u2 - u1 > 0` the major and `dv` the minor distance, and then the end point. `tdiv` rounds
toward zero. -/
def orderedWalk (u1 v1 u2 v2 : Int) : List (Int × Int) :=
  let n := u2 - u1
  let dv := v2 - v1
  ((List.range n.toNat).map fun (i : Nat) => (u1 + i, Int.tdiv (v1 * n + dv * i) n)) ++ [(u2, v2)]

/-- The walk along a major axis: the endpoints are swapped when the major coordinate would fall (R265). -/
def majorWalk (u1 v1 u2 v2 : Int) : List (Int × Int) :=
  if u2 - u1 < 0 then orderedWalk u2 v2 u1 v1 else orderedWalk u1 v1 u2 v2

/-- The plotted sequence of a line (R265): nothing for equal endpoints; x is the major axis when `|dx| >= |dy|`. -/
def linePoints (x1 y1 x2 y2 : Int) : List (Int × Int) :=
  if x1 = x2 ∧ y1 = y2 then []
  else if (y2 - y1).natAbs ≤ (x2 - x1).natAbs then majorWalk x1 y1 x2 y2
  else (majorWalk y1 x1 y2 x2).map Prod.swap

/-- LINE (R265). -/
def execLine (rgn : Bool) (s : State) : Host.Outcome State Fault Refusal :=
  let s := s.startCommand
  .next <| match col4Operand s.args[4] with
    | none => s.raiseError .arg
    | some c =>
      let points := linePoints (s32Operand s.args[0]) (s32Operand s.args[1])
        (s32Operand s.args[2]) (s32Operand s.args[3])
      (points.foldl (State.plot (s.resolveRegion rgn) c) s).completeCommand

/-- RECT, reserved (R270): E_UNIMPL with RGN 0 or 1, no operand read. -/
def execRect (_rgn : Bool) (s : State) : Host.Outcome State Fault Refusal :=
  .next (s.startCommand.raiseError .unimpl)

/-- LINERECT, reserved (R270). -/
def execLineRect (_rgn : Bool) (s : State) : Host.Outcome State Fault Refusal :=
  .next (s.startCommand.raiseError .unimpl)

/-- CIRCLE, reserved (R270). -/
def execCircle (_rgn : Bool) (s : State) : Host.Outcome State Fault Refusal :=
  .next (s.startCommand.raiseError .unimpl)

/-- ELLIPSE, reserved (R270). -/
def execEllipse (_rgn : Bool) (s : State) : Host.Outcome State Fault Refusal :=
  .next (s.startCommand.raiseError .unimpl)

/-- ELLIPSEQB, reserved (R270). -/
def execEllipseQb (_rgn : Bool) (s : State) : Host.Outcome State Fault Refusal :=
  .next (s.startCommand.raiseError .unimpl)

/-- TEXT, reserved (R270). -/
def execText (_rgn : Bool) (s : State) : Host.Outcome State Fault Refusal :=
  .next (s.startCommand.raiseError .unimpl)

end Sys2Proof.Machine
end

