-- ==== Sys2Proof/Machine/Quantizer.lean ====
section
/-! DEFINITION. The palette quantizer (42_quantizer.md), step by step, over the working state of 10_state.md R39. -/

namespace Sys2Proof.Machine

/-! ### Checks (R192 to R194) -/

/-- A template byte is a hardware colour or one of the two sentinels (R192). -/
abbrev TemplateByteLegal (t : Byte) : Prop :=
  t.toNat < 64 ∨ t = Config.sentUndefined ∨ t = Config.sentUnused

/-- The template check of R192: legal bytes, and no hardware colour pinned in two slots. -/
abbrev TemplateLegal (t : Palette) : Prop :=
  (∀ i ∈ allSlots, TemplateByteLegal (Palette.slot t i)) ∧
  (∀ i ∈ allSlots, ∀ j ∈ allSlots,
    i ≠ j → (Palette.slot t i).toNat < 64 → Palette.slot t i ≠ Palette.slot t j)

/-- `totalCount` (R193). -/
def usableSlots (t : Palette) : Nat := allSlots.countP fun i => Palette.slot t i != Config.sentUnused

/-! ### Steps 1 to 4 (R195 to R197) -/

/-- Pixel `p` of the source image in row-major order; `p = y*sw + x` stands at offset `4*p` of SRC (20_memory.md R60). -/
def State.srcPixel (s : State) (p : Nat) : Rgba :=
  { r := s.src.byte (4 * p), g := s.src.byte (4 * p + 1), b := s.src.byte (4 * p + 2), a := s.src.byte (4 * p + 3) }

/-- "A source pixel is opaque iff its alpha byte is 255" (R195). -/
def Rgba.opaquePixel (c : Rgba) : Bool := c.a == 0xFF

/-- `CLASS` of one pixel (R195). -/
def classOf (c : Rgba) : HwColor := if c.opaquePixel then nearest c else 0

/-- `CNT[t]` (R196). -/
def classCount (pixels : List Rgba) (cls : List HwColor) (t : HwColor) : Nat :=
  (pixels.zip cls).countP fun pc => pc.1.opaquePixel && pc.2 == t

/-- `FSLOT` (R197). -/
def forcedSlots (t : Palette) : List (Option SlotIx) :=
  allSlots.foldl
    (fun f i => if (Palette.slot t i).toNat < 64 then f.set (Palette.slot t i).toNat (some i) else f)
    (List.replicate 64 none)

/-! ### Step 5: nodes and target lists (R198 to R200) -/

/-- `x` before the first element that it precedes: into a sorted list, after its equals. -/
def insertSorted {α : Type} (precedes : α → α → Bool) (x : α) : List α → List α
  | [] => [x]
  | y :: ys => if precedes x y then x :: y :: ys else y :: insertSorted precedes x ys

/-- The list sorted by `precedes`, equals in their order of arrival. -/
def sortStable {α : Type} (precedes : α → α → Bool) (xs : List α) : List α :=
  xs.foldl (fun sorted x => insertSorted precedes x sorted) []

/-- `D[n][t]` for all `n` and `t` (R198). -/
def distanceTable : List (List F64) := allColors.map fun n => allColors.map fun t => gdist (rgb n) (rgb t)

/-- An entry of `D`. -/
def tableAt (dist : List (List F64)) (n t : HwColor) : F64 := (dist.getD n.toNat []).getD t.toNat 0

/-- `LIST[t]` at the start: all nodes by distance ascending, then id ascending (R198). -/
def rankedNodes (dist : List (List F64)) (t : HwColor) : List HwColor :=
  sortStable (fun x y => Binary64.lt (tableAt dist x t) (tableAt dist y t)) allColors

/-- The working state after steps 1 to 5. -/
def buildWork (template : Palette) (pixels : List Rgba) : QuantWork :=
  let cls := pixels.map classOf
  let fslot := forcedSlots template
  let dist := distanceTable
  { cls := cls
    cnt := allColors.map (classCount pixels cls)
    totalCount := usableSlots template
    fslot := fslot
    alive := List.replicate 64 true
    remov := fslot.map Option.isNone
    dist := dist
    list := allColors.map (rankedNodes dist)
    cost := List.replicate 64 0
    nslot := List.replicate 64 none
    lut := List.replicate 64 0 }

/-- `ALIVE[n]`. -/
def QuantWork.isAlive (q : QuantWork) (n : HwColor) : Bool := q.alive.getD n.toNat false

/-- `REMOV[n]`. -/
def QuantWork.isRemovable (q : QuantWork) (n : HwColor) : Bool := q.remov.getD n.toNat false

/-- `LIST[t]`. -/
def QuantWork.targetList (q : QuantWork) (t : HwColor) : List HwColor := q.list.getD t.toNat []

/-- `COST[n]`. -/
def QuantWork.costAt (q : QuantWork) (n : HwColor) : F64 := q.cost.getD n.toNat 0

/-- `COST[n] <- c`. -/
def QuantWork.setCost (q : QuantWork) (n : HwColor) (c : F64) : QuantWork := { q with cost := q.cost.set n.toNat c }

/-- `#alive` (R199). -/
def QuantWork.aliveCount (q : QuantWork) : Nat := q.alive.countP id

/-- The term of target `t` in the sum of R199: `f64(CNT[t]) *. (D[Next(t)][t] -. D[n][t])` when `n` heads the list. -/
def QuantWork.addTargetCost (q : QuantWork) (n : HwColor) (sum : F64) (t : HwColor) : F64 :=
  match q.targetList t with
  | head :: next :: _ =>
    if head = n then
      Binary64.add sum (Binary64.mul (Binary64.ofNat (q.cnt.getD t.toNat 0))
        (Binary64.sub (tableAt q.dist next t) (tableAt q.dist n t)))
    else sum
  | _ => sum

/-- `Cost(n)`, summed over the targets in ascending order from +0.0 (R199). -/
def QuantWork.removalCost (q : QuantWork) (n : HwColor) : F64 := allColors.foldl (q.addTargetCost n) 0

/-- `Remove(n)` (R200). -/
def QuantWork.removeNode (q : QuantWork) (n : HwColor) : QuantWork :=
  { q with alive := q.alive.set n.toNat false, list := q.list.map fun l => l.filter (· != n) }

/-! ### Steps 6 and 7 (R201, R202) -/

/-- One node's turn in a round of step 6: its cost is recomputed, and a strictly lower cost becomes the best. -/
def candidateTurn (qb : QuantWork × Option HwColor) (n : HwColor) : QuantWork × Option HwColor :=
  let (q, best) := qb
  if q.isAlive n && q.isRemovable n then
    let c := q.removalCost n
    let q := q.setCost n c
    match best with
    | none => (q, some n)
    | some b => if Binary64.lt c (q.costAt b) then (q, some n) else (q, some b)
  else (q, best)

/-- One round of step 6 (R201): the costs, and the node to remove. -/
def QuantWork.costRound (q : QuantWork) : QuantWork × Option HwColor := allColors.foldl candidateTurn (q, none)

/-- The end of a round: the best node is removed (R201). A round always has one (R201); without one nothing would change
(log 20). -/
def endRound : QuantWork × Option HwColor → QuantWork
  | (q, some n) => q.removeNode n
  | (q, none) => q

/-- Step 6 (R201): rounds until `totalCount` nodes remain. Each round removes a node, so 64 rounds are enough (log 20). -/
def QuantWork.reduce (q : QuantWork) : Nat → QuantWork
  | 0 => q
  | fuel + 1 => if q.totalCount < q.aliveCount then (endRound q.costRound).reduce fuel else q

/-- One node's turn in step 7 (R202): its cost against the lists as they stand now, and its removal when that is 0. The
last alive node is never removed. -/
def QuantWork.dropIfFree (q : QuantWork) (n : HwColor) : QuantWork :=
  if q.isAlive n && q.isRemovable n && decide (1 < q.aliveCount) then
    let c := q.removalCost n
    let q := q.setCost n c
    if Binary64.isZero c then q.removeNode n else q
  else q

/-- Step 7 (R202). -/
def QuantWork.dropFree (q : QuantWork) : QuantWork := allColors.foldl QuantWork.dropIfFree q

/-! ### Steps 8 to 10 (R203 to R206) -/

/-- `ORDER` (R203): the retained free nodes by cost descending, then id ascending. -/
def QuantWork.order (q : QuantWork) : List HwColor :=
  sortStable (fun x y => Binary64.lt (q.costAt y) (q.costAt x))
    (allColors.filter fun n => q.isAlive n && q.isRemovable n)

/-- `PAL` of step 9: for each slot the node placed there, `none` for NONE. -/
abbrev Placement := List (Option HwColor)

/-- `PAL[i]`. -/
def placedAt (pal : Placement) (i : SlotIx) : Option HwColor := pal.getD i.toNat none

/-- `NSLOT[n] <- i ; PAL[i] <- n` (R204). -/
def place (qp : QuantWork × Placement) (n : HwColor) (i : SlotIx) : QuantWork × Placement :=
  ({ qp.1 with nslot := qp.1.nslot.set n.toNat (some i) }, qp.2.set i.toNat (some n))

/-- Step 9(a) for one node (R204). -/
def placeForced (qp : QuantWork × Placement) (n : HwColor) : QuantWork × Placement :=
  if qp.1.isAlive n && !qp.1.isRemovable n then
    match qp.1.fslot.getD n.toNat none with
    | some i => place qp n i
    | none => qp
  else qp

/-- The lowest-numbered still-empty slot (R204): UNDEFINED in the template and without a node. -/
def firstEmptySlot (template : Palette) (pal : Placement) : Option SlotIx :=
  allSlots.find? fun i => Palette.slot template i == Config.sentUndefined && placedAt pal i == none

/-- Step 9(b) for one node (R204). Such a slot always exists (R204); without one the node would stay unplaced (log 20). -/
def placeFree (template : Palette) (qp : QuantWork × Placement) (n : HwColor) : QuantWork × Placement :=
  match firstEmptySlot template qp.2 with
  | some i => place qp n i
  | none => qp

/-- Step 9 (R204). -/
def QuantWork.assignSlots (q : QuantWork) (template : Palette) : QuantWork × Placement :=
  let start : QuantWork × Placement := ({ q with nslot := List.replicate 64 none }, List.replicate 16 none)
  q.order.foldl (placeFree template) (allColors.foldl placeForced start)

/-- `LUT[c] = NSLOT[Head(c)]` (R206); the head exists and has a slot (R206, log 20). -/
def QuantWork.lutEntry (q : QuantWork) (c : HwColor) : SlotIx :=
  match q.targetList c with
  | head :: _ => (q.nslot.getD head.toNat none).getD 0
  | [] => 0

/-- Step 10 (R206). -/
def QuantWork.buildLut (q : QuantWork) : QuantWork := { q with lut := allColors.map q.lutEntry }

/-- Steps 1 to 10: the working state and the placement of the nodes. -/
def quantizePixels (template : Palette) (pixels : List Rgba) : QuantWork × Placement :=
  let (q, pal) := (((buildWork template pixels).reduce 64).dropFree).assignSlots template
  (q.buildLut, pal)

/-! ### Outputs (R208 to R212) -/

/-- `PAL_OUT` (R209): a slot without a node holds colour 0 (R208). -/
def resolvedPalette (pal : Placement) : Palette :=
  Palette.ofSlots fun i => ((placedAt pal i).getD 0).setWidth 8

/-- Step 11 for source pixel `p` of an image `sw` wide (R212). -/
def State.storePixel (pixels : List Rgba) (q : QuantWork) (sw : Nat) (s : State) (p : Nat) : State :=
  if (pixels.getD p ⟨0, 0, 0, 0⟩).opaquePixel then
    s.setPixel (p % sw) (p / sw) (q.lut.getD (q.cls.getD p 0).toNat 0)
  else s

/-- QUANTIZE past its checks (R190, R195 to R212). -/
def State.quantize (s : State) (sw sh : Word) : State :=
  let n := u32Operand sw * u32Operand sh
  let pixels := (List.range n).map s.srcPixel
  let result := quantizePixels s.template pixels
  let s := { s with work := result.1, palOut := resolvedPalette result.2 }
  (List.range n).foldl (State.storePixel pixels result.1 (u32Operand sw)) (s.createBitmap sw sh)

/-- QUANTIZE (R190 to R212), its checks in the order of R190. -/
def execQuantize (s : State) : Host.Outcome State Fault Refusal :=
  let s := s.startCommand
  let sw := s.args[0]
  let sh := s.args[1]
  .next <|
    if ¬ TemplateLegal s.template then s.raiseError .template
    else if usableSlots s.template = 0 then s.raiseError .quant
    else if s.ExceedsCapacity sw sh then s.haltFatal
    else (s.quantize sw sh).completeCommand

end Sys2Proof.Machine
end

