-- ==== Sys2Proof/Machine/Dispatch.lean ====
section
/-! DEFINITION. The meaning of every command: one arm for each row of the opcode map (30_encoding.md R92). -/

namespace Sys2Proof.Machine

def exec (i : Instr) (s : State) : Host.Outcome State Fault Refusal :=
  match i with
  | .nop => Sys2Proof.Machine.execNop s
  | .hw2rgb => Sys2Proof.Machine.execHw2rgb s
  | .nearest => Sys2Proof.Machine.execNearest s
  | .gdist => Sys2Proof.Machine.execGdist s
  | .ldist => Sys2Proof.Machine.execLdist s
  | .create => Sys2Proof.Machine.execCreate s
  | .resize => Sys2Proof.Machine.execResize s
  | .clear rgn => Sys2Proof.Machine.execClear rgn s
  | .clearAlpha => Sys2Proof.Machine.execClearAlpha s
  | .getColor rgn => Sys2Proof.Machine.execGetColor rgn s
  | .quantize => Sys2Proof.Machine.execQuantize s
  | .decode => Sys2Proof.Machine.execDecode s
  | .point rgn => Sys2Proof.Machine.execPoint rgn s
  | .line rgn => Sys2Proof.Machine.execLine rgn s
  | .rect rgn => Sys2Proof.Machine.execRect rgn s
  | .lineRect rgn => Sys2Proof.Machine.execLineRect rgn s
  | .circle rgn => Sys2Proof.Machine.execCircle rgn s
  | .ellipse rgn => Sys2Proof.Machine.execEllipse rgn s
  | .ellipseQb rgn => Sys2Proof.Machine.execEllipseQb rgn s
  | .text rgn => Sys2Proof.Machine.execText rgn s

end Sys2Proof.Machine
end

