-- ==== Sys2Proof/Machine/HostAccess.lean ====
section
/-! DEFINITION. The host interface: the register block (10_state.md R22, R23), the windows (20_memory.md R61 to R63, R73,
R74), and the platform's reset (70_reset_and_hazards.md R340). -/

namespace Sys2Proof.Machine

/-! ### The register block -/

/-- The registers of the block (R22). -/
inductive Reg where
  | cmd
  | status
  | width
  | height
  | arbr
  | crbr
  | maxw
  | maxh
  | arg (k : Fin 8)
  | rgnOx
  | rgnOy
  | rgnW
  | rgnH
  | res0
  | res1
  | palIn (k : Fin 4)
  | template (k : Fin 4)
  | palOut (k : Fin 4)
  | cachePal (k : Fin 4)
  | reserved
  deriving DecidableEq, Repr

/-- The register at word `i` of the block, that is at offset `4*i` (R22). -/
def regAt (i : Nat) : Reg :=
  match i with
  | 0 => .cmd
  | 1 => .status
  | 2 => .width
  | 3 => .height
  | 4 => .arbr
  | 5 => .crbr
  | 6 => .maxw
  | 7 => .maxh
  | 8 => .arg 0
  | 9 => .arg 1
  | 10 => .arg 2
  | 11 => .arg 3
  | 12 => .arg 4
  | 13 => .arg 5
  | 14 => .arg 6
  | 15 => .arg 7
  | 16 => .rgnOx
  | 17 => .rgnOy
  | 18 => .rgnW
  | 19 => .rgnH
  | 20 => .res0
  | 21 => .res1
  | 24 => .palIn 0
  | 25 => .palIn 1
  | 26 => .palIn 2
  | 27 => .palIn 3
  | 28 => .template 0
  | 29 => .template 1
  | 30 => .template 2
  | 31 => .template 3
  | 32 => .palOut 0
  | 33 => .palOut 1
  | 34 => .palOut 2
  | 35 => .palOut 3
  | 36 => .cachePal 0
  | 37 => .cachePal 1
  | 38 => .cachePal 2
  | 39 => .cachePal 3
  | _ => .reserved

/-- The register at a byte offset; `none` when the offset is not a multiple of 4 (R63). -/
def regOfOffset (off : BitVec 8) : Option Reg :=
  if off.toNat % 4 = 0 then some (regAt (off.toNat / 4)) else none

/-- Word `k` of a palette file: bytes `4k .. 4k+3`, little-endian (R30). -/
def Palette.readWord (p : Palette) (k : Fin 4) : Word :=
  p[4 * k.val + 3] ++ p[4 * k.val + 2] ++ p[4 * k.val + 1] ++ p[4 * k.val]

/-- Word `k` of a palette file written (R30). -/
def Palette.writeWord (p : Palette) (k : Fin 4) (v : Word) : Palette :=
  (((p.set (4 * k.val) (v.extractLsb' 0 8)).set (4 * k.val + 1) (v.extractLsb' 8 8)).set (4 * k.val + 2)
    (v.extractLsb' 16 8)).set (4 * k.val + 3) (v.extractLsb' 24 8)

/-- What a register reads as (R22). CMD and the reserved offsets read 0. -/
def State.readReg (s : State) : Reg → Word
  | .cmd => 0
  | .status => s.status.word
  | .width => s.width
  | .height => s.height
  | .arbr => BitVec.ofNat 32 (alphaRowBytes s.w)
  | .crbr => BitVec.ofNat 32 (colorRowBytes s.w)
  | .maxw => s.maxW
  | .maxh => s.maxH
  | .arg k => s.args[k]
  | .rgnOx => s.rgnOx
  | .rgnOy => s.rgnOy
  | .rgnW => s.rgnW
  | .rgnH => s.rgnH
  | .res0 => s.res0
  | .res1 => s.res1
  | .palIn k => Palette.readWord s.palIn k
  | .template k => Palette.readWord s.template k
  | .palOut k => Palette.readWord s.palOut k
  | .cachePal k => Palette.readWord s.cachePal k
  | .reserved => 0

/-- A host write to CMD (R23): no effect while FATAL or BUSY is 1, else the word is latched and BUSY set. -/
def State.writeCmd (s : State) (v : Word) : State :=
  if s.status.fatal = true then s
  else if s.status.busy = true then s
  else { s with cmdLatch := v, status := { s.status with busy := true } }

/-- A host write to a register (R22). A write to an RO register or a reserved offset has no effect. -/
def State.writeReg (s : State) (r : Reg) (v : Word) : State :=
  match r with
  | .cmd => s.writeCmd v
  | .arg k => { s with args := s.args.set k.val v }
  | .rgnOx => { s with rgnOx := v }
  | .rgnOy => { s with rgnOy := v }
  | .rgnW => { s with rgnW := v }
  | .rgnH => { s with rgnH := v }
  | .palIn k => { s with palIn := Palette.writeWord s.palIn k v }
  | .template k => { s with template := Palette.writeWord s.template k v }
  | .status | .width | .height | .arbr | .crbr | .maxw | .maxh | .res0 | .res1 | .palOut _ | .cachePal _
  | .reserved => s

/-! ### The windows -/

/-- The platform base address of a window, an OPEN parameter (20_memory.md R76). No rule depends on it; the moves of the
host name the space and the offset (R99; log 4). -/
def baseAddress : Space → Nat
  | .src => Config.srcBase
  | .alpha => Config.alphaBase
  | .color => Config.colorBase
  | .out => Config.outBase

/-- The window of a space. -/
def State.window (s : State) : Space → Window
  | .src => s.src
  | .alpha => s.alpha
  | .color => s.color
  | .out => s.out

/-- The allocated size of a window (20_memory.md section 1). -/
def State.windowSize (s : State) : Space → Nat
  | .src => s.srcSize
  | .alpha => s.alphaSize
  | .color => s.colorSize
  | .out => s.outSize

/-- The byte the host reads at an offset: the window's own inside the allocated size, a draw beyond it (R73; log 5). -/
def State.hostByte (s : State) (sp : Space) (a : Nat) : Byte :=
  if a < s.windowSize sp then (s.window sp).byte a else Config.freeByte s.draws a

/-- The value of a host read, kept for the host (log 2). -/
def State.returnToHost (s : State) (v : Word) : State := { s with hostData := v }

/-- A host read of `n` bytes at `a` uses up a draw when it reaches beyond the allocated size (R73; log 5). -/
def State.countHostDraw (s : State) (sp : Space) (a n : Nat) : State :=
  if a + n ≤ s.windowSize sp then s else { s with draws := s.draws + 1 }

/-- `rdb SPACE[a]` (R99). -/
def State.readByte (s : State) (sp : Space) (a : Nat) : State :=
  (s.returnToHost ((s.hostByte sp a).setWidth 32)).countHostDraw sp a 1

/-- The 32-bit little-endian window read (R62, R63). -/
def State.readWindowWord (s : State) (sp : Space) (a : Nat) : State :=
  (s.returnToHost (s.hostByte sp (a + 3) ++ s.hostByte sp (a + 2) ++ s.hostByte sp (a + 1) ++ s.hostByte sp a)).countHostDraw
    sp a 4

/-- One byte of SRC written by the host (R61). No access check stops an offset beyond the window (R77), and the block
holds no byte there (10_state.md R38, R40), so such a write changes nothing (R74; log 8). -/
def State.writeSrc (s : State) (a : Nat) (v : Byte) : State :=
  { s with src := if a < s.srcSize then s.src.write a v else s.src }

/-- `wrb SPACE[a], imm8` (R61, R99): SRC is writable, a write to another window has no effect. -/
def State.writeByte (s : State) (sp : Space) (a : Nat) (v : Byte) : State :=
  match sp with
  | .src => s.writeSrc a v
  | .alpha | .color | .out => s

/-- `ww SPACE[a], imm32` (R61, R62, R99): the four bytes of the word, little-endian. -/
def State.writeWindowWord (s : State) (sp : Space) (a : Nat) (v : Word) : State :=
  match sp with
  | .src =>
    (((s.writeSrc a (v.extractLsb' 0 8)).writeSrc (a + 1) (v.extractLsb' 8 8)).writeSrc (a + 2)
      (v.extractLsb' 16 8)).writeSrc (a + 3) (v.extractLsb' 24 8)
  | .alpha | .color | .out => s

/-! ### Reset and the moves -/

/-- The platform's reset (70_reset_and_hazards.md R340): every part of the block at its reset value, a command in
progress ended with none of its effects, SRC a new draw. The capacity is the implementation's, and the host is outside
the block, so both stay (log 14). -/
def State.platformReset (s : State) : State :=
  { State.reset with
    maxW := s.maxW
    maxH := s.maxH
    src := Window.unspecified s.draws
    draws := s.draws + 1
    host := s.host
    hostData := s.hostData }

/-- A move of the host while `BUSY = 1` (70_reset_and_hazards.md R350): it may read STATUS; a CMD write is ignored (R23);
every other access is a move the model does not give the host (log 10). -/
def State.moveWhileBusy (s : State) (op : HostOp) : Host.Outcome State Fault Refusal :=
  match op with
  | .wr off v =>
    match regOfOffset off with
    | some .cmd => .next (s.writeCmd v)
    | some _ => .refused .busyAccess
    | none => .refused .misalignedAccess
  | .rd off =>
    match regOfOffset off with
    | some .status => .next (s.returnToHost s.status.word)
    | some _ => .refused .busyAccess
    | none => .refused .misalignedAccess
  | .reset => .next s.platformReset
  | .wait => .next s
  | .wrb _ _ _ | .ww _ _ _ | .rdb _ _ | .rdw _ _ => .refused .busyAccess

/-- A move of the host while the engine is idle. `wait` reads STATUS, finds `BUSY = 0` and ends (R99; log 16). -/
def State.moveWhileIdle (s : State) (op : HostOp) : Host.Outcome State Fault Refusal :=
  match op with
  | .wr off v =>
    match regOfOffset off with
    | some r => .next (s.writeReg r v)
    | none => .refused .misalignedAccess
  | .rd off =>
    match regOfOffset off with
    | some r => .next (s.returnToHost (s.readReg r))
    | none => .refused .misalignedAccess
  | .wrb sp a v => .next (s.writeByte sp a v)
  | .ww sp a v => if a % 4 = 0 then .next (s.writeWindowWord sp a v) else .refused .misalignedAccess
  | .rdb sp a => .next (s.readByte sp a)
  | .rdw sp a => if a % 4 = 0 then .next (s.readWindowWord sp a) else .refused .misalignedAccess
  | .wait => .next (s.returnToHost s.status.word)
  | .reset => .next s.platformReset

end Sys2Proof.Machine
end

