-- ==== Sys2Proof/Machine/Step.lean ====
section
/-! DEFINITION. One step of the machine: the engine runs the latched command as one atomic step (20_memory.md R80), or the
host makes its next move (10_state.md R20). -/

namespace Sys2Proof.Machine

/-- It is the engine's turn: a command is latched, and the host has no move to make before it ends, or waits for
`BUSY = 0` (R20, R80; log 1). -/
def State.engineTurn (s : State) : Bool :=
  s.status.busy &&
    match s.host with
    | [] => true
    | .wait :: _ => true
    | _ => false

/-- The engine's atomic step (R80): it decodes the latched word "before any other check of the command" (30_encoding.md
R93), and runs the command or raises E_CMD. -/
def engineStep (s : State) : Host.Outcome State Fault Refusal :=
  match Sys2Proof.decode s.cmdLatch with
  | .ok i => exec i s
  | .error _ => .next (s.raiseError .cmd)

/-- One step. An idle engine whose host makes no move stays as it is. -/
def step (s : State) : Host.Outcome State Fault Refusal :=
  if s.engineTurn then engineStep s
  else
    match s.host with
    | [] => .next s
    | op :: rest =>
      let s := { s with host := rest }
      if s.status.busy then s.moveWhileBusy op else s.moveWhileIdle op

/-- `s` with a command word accepted: latched, BUSY set, and no move of the host before the engine runs it (R23; log 1).
The word has `nbits` bits; the bits of the 32-bit command above them are 0. -/
def State.withFetchWord (s : State) (nbits w : Nat) : State :=
  { s with cmdLatch := BitVec.ofNat 32 (w % 2 ^ nbits), status := { s.status with busy := true }, host := [] }

end Sys2Proof.Machine
end

