-- ==== Sys2Proof/Safety.lean ====
section
/-! DEFINITION. What a run of the block must keep, in the terms the statements use. -/

namespace Sys2Proof.Machine

/-- The step goes on to a next state: neither a fault nor a refusal. -/
def GoesOn (o : Host.Outcome State Fault Refusal) : Prop := ∃ t, o = .next t

/-- A memory in canonical form with all its offsets below `n`. -/
structure Memory.Within (m : Memory) (n : Nat) : Prop where
  wf : Memory.wf m
  below : ∀ x ∈ m, x.1 < n

/-- What every state of a run has, from 00_scope.md R4, 10_state.md R24, R27, R33, R34, R36, R38 and 60_exceptions.md
R300, R302, R306. -/
structure State.Inv (s : State) : Prop where
  /-- `MAX_W` and `MAX_H` are integers in [1, 2^16] (R4). -/
  capacityW : 1 ≤ s.maxW.toNat ∧ s.maxW.toNat ≤ 65536
  capacityH : 1 ≤ s.maxH.toNat ∧ s.maxH.toNat ≤ 65536
  /-- "Always 0 <= W <= MAX_W and 0 <= H <= MAX_H" (R27). -/
  widthFits : s.w ≤ s.maxW.toNat
  heightFits : s.h ≤ s.maxH.toNat
  /-- Every window lists bytes of its own extent only, in canonical form (R34, R36, R38). -/
  srcWithin : Memory.Within s.src.cells s.srcSize
  alphaWithin : Memory.Within s.alpha.cells s.alphaSize
  colorWithin : Memory.Within s.color.cells s.colorSize
  outWithin : Memory.Within s.out.cells s.outSize
  /-- Every byte of ALPHA is specified: no command leaves an alpha byte open (R152, R155). -/
  alphaSpecified : ∀ a < s.alphaSize, (Memory.lookup s.alpha.cells a).isSome
  /-- "Every byte of PAL_OUT is always in [0, 64)" (R33). -/
  palOutLegal : ∀ i : SlotIx, (Palette.slot s.palOut i).toNat < 64
  /-- ERR is 1 exactly when ECODE is not 0 (R24, R302). -/
  errIffCode : s.status.err = true ↔ s.status.ecode ≠ .ok
  /-- Every draw in use was made: the next one is new (log 5). -/
  drawsMade : s.src.draw < s.draws ∧ s.alpha.draw < s.draws ∧ s.color.draw < s.draws ∧ s.out.draw < s.draws
  /-- In the fatal state the block is idle and shows F_ALLOC (R306). -/
  fatalShown : s.status.fatal = true → s.status.busy = false ∧ s.status.err = true ∧ s.status.ecode = .alloc

/-- The invariant of 10_state.md R37: with DIRTY = 0, OUT holds the decode of the planes under CACHE_PAL. -/
def State.CacheCoherent (s : State) : Prop :=
  s.status.dirty = false → ∀ a < s.outSize, s.out.byte a = s.decodeByte s.cachePal a

/-- Some plotted point of a walk is inside the region and lands on pixel `(x, y)` (44_drawing.md R265, R266(d)). -/
def State.Hits (s : State) (r : Region) (points : List (Int × Int)) (x y : Nat) : Prop :=
  ∃ p ∈ points, s.InRegion r p.1 p.2 ∧ r.ox + p.1 = x ∧ r.oy + p.2 = y

/-- Pixel `(x, y)` of the bitmap lies in a region (41_bitmap_store.md R161). -/
def State.Covers (s : State) (r : Region) (x y : Nat) : Prop :=
  x < s.w ∧ y < s.h ∧ r.ox ≤ x ∧ x < r.ox + r.rw ∧ r.oy ≤ y ∧ y < r.oy + r.rh

/-! ### The quantizer's steps as the rules state them -/

/-- An alive removable node (42_quantizer.md R201 to R203). -/
abbrev QuantWork.Candidate (q : QuantWork) (n : HwColor) : Prop := q.isAlive n = true ∧ q.isRemovable n = true

/-- `Cost(n)` (R199): over the targets that `n` heads, in ascending order from +0.0, the sum of
`f64(CNT[t]) *. (D[Next(t)][t] -. D[n][t])`, where `Next(t)` is the second entry of LIST[t]. -/
def QuantWork.weightedCost (q : QuantWork) (n : HwColor) : F64 :=
  (((List.range 64).map (BitVec.ofNat 6)).filter fun t => (q.targetList t)[0]? = some n).foldl
    (fun s t => Binary64.add s (Binary64.mul (Binary64.ofNat (q.cnt.getD t.toNat 0))
      (Binary64.sub (tableAt q.dist ((q.targetList t).getD 1 0) t) (tableAt q.dist n t)))) 0

/-- One round of step 6 (R200, R201): more than `totalCount` nodes are alive, every candidate's cost is recomputed from
the lists, and the first candidate with the lowest cost is removed. -/
def QuantWork.Round (q q' : QuantWork) : Prop :=
  q.totalCount < q.aliveCount ∧ ∃ n : HwColor, q.Candidate n ∧
    (∀ m : HwColor, q.Candidate m → Binary64.lt (q.weightedCost m) (q.weightedCost n) = false ∧
      (m.toNat < n.toNat → Binary64.lt (q.weightedCost n) (q.weightedCost m) = true)) ∧
    q' = { q with
      cost := q'.cost
      alive := q.alive.set n.toNat false
      list := q.list.map fun l => l.filter (· != n) } ∧
    ∀ m : HwColor, q'.costAt m = if q.Candidate m then q.weightedCost m else q.costAt m

/-- The turn of node `n` in step 7 (R202): a candidate, when it is not the last alive node, has its cost recomputed from
the lists as they stand, and is removed when that is 0. -/
def QuantWork.DropTurn (n : HwColor) (q q' : QuantWork) : Prop :=
  if q.Candidate n ∧ 1 < q.aliveCount then
    if Binary64.value (q.weightedCost n) = 0 then
      q' = { q with
        cost := q.cost.set n.toNat (q.weightedCost n)
        alive := q.alive.set n.toNat false
        list := q.list.map fun l => l.filter (· != n) }
    else q' = { q with cost := q.cost.set n.toNat (q.weightedCost n) }
  else q' = q

/-! ### Moves and registers -/

/-- A move that the model answers in state `s`: aligned as 20_memory.md R63 asks, at any offset of a window (R77), and
while BUSY only a STATUS read, a wait, or a CMD write, which the block ignores (10_state.md R23, 70_reset_and_hazards.md
R350); the platform's reset at any time (R340). -/
def State.MoveAnswered (s : State) : HostOp → Prop
  | .wr off _ => off.toNat % 4 = 0 ∧ (s.status.busy = true → off = 0)
  | .rd off => off.toNat % 4 = 0 ∧ (s.status.busy = true → off = 4)
  | .wrb _ _ _ => s.status.busy = false
  | .ww _ a _ => s.status.busy = false ∧ a % 4 = 0
  | .rdb _ _ => s.status.busy = false
  | .rdw _ a => s.status.busy = false ∧ a % 4 = 0
  | .wait => True
  | .reset => True

/-- The registers a host write changes, CMD apart (10_state.md R22: access RW). -/
def Reg.writable : Reg → Bool
  | .arg _ | .rgnOx | .rgnOy | .rgnW | .rgnH | .palIn _ | .template _ => true
  | .cmd | .status | .width | .height | .arbr | .crbr | .maxw | .maxh | .res0 | .res1 | .palOut _ | .cachePal _
  | .reserved => false

/-- STATUS after a command that succeeds and leaves DIRTY alone (10_state.md R24). -/
def Status.finished (st : Status) : Status := { st with err := false, ecode := .ok, hit := false, busy := false }

/-- STATUS after `raise E(code)` (60_exceptions.md R302). -/
def Status.failed (st : Status) (code : ECode) : Status :=
  { st with err := true, ecode := code, hit := false, busy := false }

/-- STATUS after `halt FATAL(F_ALLOC)` (60_exceptions.md R306). -/
def Status.halted (st : Status) : Status :=
  { st with fatal := true, err := true, ecode := .alloc, hit := false, busy := false }

end Sys2Proof.Machine
end

