-- ==== Sys2Proof/Certificates/Slice0/Obligations.lean ====
section
/-! DEFINITION. The statements for the provers. OBLIGATIONS.json lists them with the rules they formalise. -/

open Sys2Proof Sys2Proof.Machine

/-! ### Encoding and the step -/

/-- The decoder and the encoder agree in both directions: a word decodes to a command exactly when it is that command's
word (30_encoding.md R91 to R93). -/
def Obligations.DecodeAgreesWithEncode : Prop :=
  ∀ (c : Word) (i : Instr), decode c = .ok i ↔ c = encode i

/-- 30_encoding.md R93 line by line, for the engine's step. -/
def Obligations.EngineDecodesInOrder : Prop :=
  ∀ s : State, s.engineTurn = true →
    let c := s.cmdLatch
    let opc : BitVec 8 := c.extractLsb' 0 8
    if c.extractLsb' 9 23 ≠ 0 then step s = .next { s with status := s.status.failed .cmd }
    else if opc ∉ definedOpcodes then step s = .next { s with status := s.status.failed .cmd }
    else if c.getLsbD 8 = true ∧ opc ∉ regionOpcodes then step s = .next { s with status := s.status.failed .cmd }
    else if 0x52 ≤ opc.toNat ∧ opc.toNat ≤ 0x57 then step s = .next { s with status := s.status.failed .unimpl }
    else ∃ i, encode i = c ∧ step s = exec i s

/-- A step runs the decoded command: on the engine's turn step is exec of the command in CMD_LATCH, with nothing around
it, and a word stored for the fetch is the next command run. -/
def Obligations.StepRunsDecodedCommand : Prop :=
  (∀ (s : State) (i : Instr), s.engineTurn = true → decode s.cmdLatch = .ok i → step s = exec i s) ∧
  (∀ (s : State) (i : Instr),
    step (s.withFetchWord 32 (encode i).toNat) = exec i (s.withFetchWord 32 (encode i).toNat))

/-- Words written out from the opcode map (R92) decode to their commands. -/
def Obligations.WordsOfTheOpcodeMapDecode : Prop :=
  decode 0x00000010 = .ok .hw2rgb ∧ decode 0x00000020 = .ok .create ∧ decode 0x00000122 = .ok (.clear true) ∧
  decode 0x00000024 = .ok (.getColor false) ∧ decode 0x00000030 = .ok .quantize ∧ decode 0x00000040 = .ok .decode ∧
  decode 0x00000151 = .ok (.line true) ∧ decode 0x00000056 = .ok (.ellipseQb false)

/-! ### Colour model -/

/-- HW2RGB (40_color_model.md R120, R128): the colour's channels by the level table, or E_ARG. -/
def Obligations.Hw2rgbGivesTheRgbWord : Prop :=
  ∀ s : State,
    let v := s.args[0]
    let channel : Nat → Nat → Byte := fun lo hi =>
      ([0, 85, 170, 255] : List Byte).getD ((v.getLsbD lo).toNat + 2 * (v.getLsbD hi).toNat) 0
    (v.extractLsb' 6 26 = 0 →
      exec .hw2rgb s = .next { s with
        status := s.status.finished
        res0 := 0xFF#8 ++ channel 3 0 ++ channel 4 1 ++ channel 5 2
        res1 := 0 }) ∧
    (v.extractLsb' 6 26 ≠ 0 → exec .hw2rgb s = .next { s with status := s.status.failed .arg })

/-- The mapping of R121 is injective. -/
def Obligations.RgbIsInjective : Prop := ∀ a b : HwColor, rgb a = rgb b → a = b

/-- NEAREST (R129): the result is `nearest` of the operand's channels, whatever its alpha. -/
def Obligations.NearestGivesTheNearestColor : Prop :=
  ∀ s : State,
    let v := s.args[0]
    exec .nearest s = .next { s with
      status := s.status.finished
      res0 := (nearest { r := v.extractLsb' 0 8, g := v.extractLsb' 8 8, b := v.extractLsb' 16 8, a := 0 }).setWidth 32
      res1 := 0 }

/-- R126: no hardware colour is closer than `nearest p`, and every lower one is strictly farther. -/
def Obligations.NearestIsTheLowestMinimum : Prop :=
  ∀ (p : Rgba) (c : HwColor),
    Binary64.lt (gdist p (rgb c)) (gdist p (rgb (nearest p))) = false ∧
    (c.toNat < (nearest p).toNat → Binary64.lt (gdist p (rgb (nearest p))) (gdist p (rgb c)) = true)

/-- R127(b), R129: an exact hardware colour is its own nearest colour. -/
def Obligations.NearestOfAHardwareColor : Prop := ∀ t : HwColor, nearest (rgb t) = t

/-- GDIST (R122, R124, R130): the binary64 pattern of the distance, low word in RES0, high word in RES1. The distance is the sum of
the squared differences of the table entries of R, G and B, in the order `((r + g) + b)`; alpha is not read. The table rises
strictly from 0 to 1, with the check values of R122. -/
def Obligations.GdistGivesTheDistancePattern : Prop :=
  let entry : Byte → F64 := fun v => Config.gammaTable.flatten.getD v.toNat 0
  (entry 0 = 0 ∧ entry 255 = 0x3FF0000000000000 ∧
    entry 85 = 0x3FB6D562BAFD28F1 ∧ entry 170 = 0x3FDA3A95BBE927E1 ∧
    ∀ v : Byte, v ≠ 255 → Binary64.lt (entry v) (entry (v + 1)) = true) ∧
  ∀ s : State,
    let square : Nat → F64 := fun lo =>
      let d := Binary64.sub (entry (s.args[0].extractLsb' lo 8)) (entry (s.args[1].extractLsb' lo 8))
      Binary64.mul d d
    ∃ t, exec .gdist s = .next t ∧
      t.res1 ++ t.res0 = Binary64.add (Binary64.add (square 0) (square 8)) (square 16) ∧
      t = { s with status := s.status.finished, res0 := t.res0, res1 := t.res1 }

/-- LDIST (R123, R125, R131): the binary64 pattern of the distance, low word in RES0, high word in RES1. The distance is the sum of
the squared differences of the table entries of R, G and B, in the order `((r + g) + b)`; alpha is not read. The table rises
strictly from 0 to 1. -/
def Obligations.LdistGivesTheDistancePattern : Prop :=
  let entry : Byte → F64 := fun v => Config.linTable.flatten.getD v.toNat 0
  (entry 0 = 0 ∧ entry 255 = 0x3FF0000000000000 ∧
    ∀ v : Byte, v ≠ 255 → Binary64.lt (entry v) (entry (v + 1)) = true) ∧
  ∀ s : State,
    let square : Nat → F64 := fun lo =>
      let d := Binary64.sub (entry (s.args[0].extractLsb' lo 8)) (entry (s.args[1].extractLsb' lo 8))
      Binary64.mul d d
    ∃ t, exec .ldist s = .next t ∧
      t.res1 ++ t.res0 = Binary64.add (Binary64.add (square 0) (square 8)) (square 16) ∧
      t = { s with status := s.status.finished, res0 := t.res0, res1 := t.res1 }

/-- R127(a), and the same of `ldist`: a colour is at distance +0.0 from itself, and the distances are symmetric. -/
def Obligations.DistancesAreSymmetric : Prop :=
  ∀ p q : Rgba, gdist p p = 0 ∧ ldist p p = 0 ∧ gdist p q = gdist q p ∧ ldist p q = ldist q p

/-- Rounding to nearest, ties to even, of a shifted significand (00_scope.md R6). -/
def Obligations.ShiftRoundsToNearestEven : Prop :=
  ∀ m t : Nat,
    let q := Binary64.shiftRoundEven m t
    let error := ((m : Int) - (q : Int) * 2 ^ t).natAbs
    2 * error ≤ 2 ^ t ∧ (2 * error = 2 ^ t → q % 2 = 0)

/-- `f64(n)` is exact for `n <= 2^53` (R6), and `+.`, `-.` answer the binary64 number nearest to the exact result: no
finite binary64 number is nearer, and when another one is equally near, the answer is the one whose significand is even. -/
def Obligations.AdditionRoundsToNearest : Prop :=
  (∀ n : Nat, n ≤ 2 ^ 53 → Binary64.value (Binary64.ofNat n) = (n : Int) * 2 ^ 1074) ∧
  (∀ a b x : F64,
    Binary64.expField a < 2047 → Binary64.expField b < 2047 → Binary64.expField x < 2047 →
    (Binary64.expField (Binary64.add a b) < 2047 →
      let exact := Binary64.value a + Binary64.value b
      let error := (Binary64.value (Binary64.add a b) - exact).natAbs
      error ≤ (Binary64.value x - exact).natAbs ∧
      (error = (Binary64.value x - exact).natAbs → Binary64.value x ≠ Binary64.value (Binary64.add a b) →
        (Binary64.add a b).getLsbD 0 = false)) ∧
    (Binary64.expField (Binary64.sub a b) < 2047 →
      let exact := Binary64.value a - Binary64.value b
      let error := (Binary64.value (Binary64.sub a b) - exact).natAbs
      error ≤ (Binary64.value x - exact).natAbs ∧
      (error = (Binary64.value x - exact).natAbs → Binary64.value x ≠ Binary64.value (Binary64.sub a b) →
        (Binary64.sub a b).getLsbD 0 = false)))

/-- `*.` answers the binary64 number nearest to the exact product, ties to even (R6); values are in units of 2^-1074, so
the product is in units of 2^-2148. -/
def Obligations.MultiplicationRoundsToNearest : Prop :=
  ∀ a b x : F64,
    Binary64.expField a < 2047 → Binary64.expField b < 2047 → Binary64.expField x < 2047 →
    Binary64.expField (Binary64.mul a b) < 2047 →
    let exact := Binary64.value a * Binary64.value b
    let error := (Binary64.value (Binary64.mul a b) * 2 ^ 1074 - exact).natAbs
    error ≤ (Binary64.value x * 2 ^ 1074 - exact).natAbs ∧
    (error = (Binary64.value x * 2 ^ 1074 - exact).natAbs → Binary64.value x ≠ Binary64.value (Binary64.mul a b) →
      (Binary64.mul a b).getLsbD 0 = false)

/-! ### Bitmap store -/

/-- NOP (41_bitmap_store.md R150) writes STATUS only, and leaves DIRTY; an NOP word with reserved bits or RGN is illegal. -/
def Obligations.NopWritesOnlyStatus : Prop :=
  (∀ s : State, exec .nop s = .next { s with status := s.status.finished }) ∧
  (∀ c : Word, c.extractLsb' 0 8 = 0 → c ≠ 0 → ∃ e, decode c = .error e)

/-- CREATE within the capacity (R152): every byte of both planes is 0, padding included, and no byte of OUT is specified
(R156). OUT takes the next draw (log 5). -/
def Obligations.CreateZeroesThePlanes : Prop :=
  ∀ s : State,
    let w := s.args[0].toNat
    let h := s.args[1].toNat
    w ≤ s.maxW.toNat → h ≤ s.maxH.toNat →
    ∃ t, exec .create s = .next t ∧
      t = { s with
        status := { s.status.finished with dirty := true }
        width := s.args[0], height := s.args[1]
        alpha := t.alpha, color := t.color, out := { cells := [], draw := s.draws }, draws := s.draws + 1 } ∧
      (∀ a < h * ((w + 7) / 8), t.alpha.byte a = 0) ∧ (∀ a < h * (w / 2 + 1), t.color.byte a = 0)

/-- An allocation beyond the capacity halts the block and writes nothing but STATUS (R151, R155, 60_exceptions.md R306):
CREATE always, RESIZE when the size changes. -/
def Obligations.AllocationFailureHalts : Prop :=
  ∀ s : State, s.maxW.toNat < s.args[0].toNat ∨ s.maxH.toNat < s.args[1].toNat →
    exec .create s = .next { s with status := s.status.halted } ∧
    (s.args[0] ≠ s.width ∨ s.args[1] ≠ s.height →
      exec .resize s = .next { s with status := s.status.halted })

/-- RESIZE (R155): to the current size nothing but STATUS changes; to another size within the capacity ALPHA is zeroed,
no byte of COLOR or OUT is specified (R156, R157), and DIRTY is set. COLOR and OUT take the next two draws (log 5). -/
def Obligations.ResizeDiscardsOrKeeps : Prop :=
  ∀ s : State,
    let w := s.args[0].toNat
    let h := s.args[1].toNat
    (s.args[0] = s.width → s.args[1] = s.height → exec .resize s = .next { s with status := s.status.finished }) ∧
    (s.args[0] ≠ s.width ∨ s.args[1] ≠ s.height → w ≤ s.maxW.toNat → h ≤ s.maxH.toNat →
      ∃ t, exec .resize s = .next t ∧
        t = { s with
          status := { s.status.finished with dirty := true }
          width := s.args[0], height := s.args[1]
          alpha := t.alpha
          color := { cells := [], draw := s.draws }
          out := { cells := [], draw := s.draws + 1 }
          draws := s.draws + 2 } ∧
        (∀ a < h * ((w + 7) / 8), t.alpha.byte a = 0))

/-- CLEAR of the full region (R160): every byte of both planes, padding included; and E_ARG. -/
def Obligations.ClearOfTheFullRegion : Prop :=
  ∀ (s : State) (rgn : Bool),
    let c : SlotIx := s.args[0].extractLsb' 0 4
    (s.args[0].extractLsb' 4 28 ≠ 0 → exec (.clear rgn) s = .next { s with status := s.status.failed .arg }) ∧
    (s.args[0].extractLsb' 4 28 = 0 → s.resolveRegion rgn = s.fullRegion →
      ∃ t, exec (.clear rgn) s = .next t ∧
        t = { s with
          status := { s.status.finished with dirty := true }, alpha := t.alpha, color := t.color } ∧
        (∀ a < s.h * ((s.w + 7) / 8), t.alpha.byte a = 0xFF) ∧
        (∀ a < s.h * (s.w / 2 + 1), t.color.byte a = c ++ c))

/-- CLEAR of another region (R161, R162): exactly the pixels of the region inside the bitmap; DIRTY when there is one;
every other pixel, every padding bit of ALPHA and padding nibble of COLOR, and every other byte of the planes as before
(20_memory.md R68). -/
def Obligations.ClearOfARegion : Prop :=
  ∀ (s : State) (rgn : Bool),
    let c : SlotIx := s.args[0].extractLsb' 0 4
    let r := s.resolveRegion rgn
    s.args[0].extractLsb' 4 28 = 0 → r ≠ s.fullRegion →
    ∃ t, exec (.clear rgn) s = .next t ∧
      t = { s with
        status := { s.status.finished with dirty := t.status.dirty }, alpha := t.alpha, color := t.color } ∧
      (t.status.dirty = true ↔ s.status.dirty = true ∨ ∃ x y, s.Covers r x y) ∧
      (∀ x y, s.Covers r x y → t.alphaGet x y = true ∧ t.nibGet x y = c) ∧
      (∀ x y, y < s.h → ¬ s.Covers r x y →
        (x < 8 * ((s.w + 7) / 8) → t.alphaGet x y = s.alphaGet x y) ∧
        (x < 2 * (s.w / 2 + 1) → t.nibGet x y = s.nibGet x y)) ∧
      (∀ a, (∀ x y, s.Covers r x y → a ≠ s.alphaOffset x y) → t.alpha.byte a = s.alpha.byte a) ∧
      (∀ a, (∀ x y, s.Covers r x y → a ≠ s.colorOffset x y) → t.color.byte a = s.color.byte a)

/-- CLEARALPHA (R165): every ALPHA byte 0, padding included, and DIRTY set. -/
def Obligations.ClearAlphaZeroesAlpha : Prop :=
  ∀ s : State, ∃ t, exec .clearAlpha s = .next t ∧
    t = { s with status := { s.status.finished with dirty := true }, alpha := t.alpha } ∧
    ∀ a < s.h * ((s.w + 7) / 8), t.alpha.byte a = 0

/-- R166: "clearing alpha must not alter the color plane bytes", padding included. -/
def Obligations.ClearAlphaKeepsColor : Prop :=
  ∀ s : State, ∃ t, exec .clearAlpha s = .next t ∧ ∀ a, t.color.byte a = s.color.byte a

/-- GETCOLOR (R170): the nibble of the absolute pixel, whatever its alpha; E_BOUNDS outside. -/
def Obligations.GetColorReadsTheNibble : Prop :=
  ∀ (s : State) (rgn : Bool),
    let x := s.args[0].toInt
    let y := s.args[1].toInt
    let r := s.resolveRegion rgn
    (s.InRegion r x y →
      exec (.getColor rgn) s = .next { s with
        status := s.status.finished
        res0 := (s.nibGet (r.ox + x).toNat (r.oy + y).toNat).setWidth 32
        res1 := 0 }) ∧
    (¬ s.InRegion r x y → exec (.getColor rgn) s = .next { s with status := s.status.failed .bounds })

/-! ### Quantizer -/

/-- The checks of QUANTIZE in their order (42_quantizer.md R192 to R194): the template, then its usable slots, then the
capacity; each failure writes STATUS only. -/
def Obligations.QuantizeChecksInOrder : Prop :=
  ∀ s : State,
    let slot := Palette.slot s.template
    let legal := (∀ i, (slot i).toNat < 64 ∨ slot i = 0xFF ∨ slot i = 0xFE) ∧
      (∀ i j, i ≠ j → (slot i).toNat < 64 → slot i ≠ slot j)
    (¬ legal → exec .quantize s = .next { s with status := s.status.failed .template }) ∧
    (legal → (∀ i, slot i = 0xFE) → exec .quantize s = .next { s with status := s.status.failed .quant }) ∧
    (legal → (∃ i, slot i ≠ 0xFE) → s.maxW.toNat < s.args[0].toNat ∨ s.maxH.toNat < s.args[1].toNat →
      exec .quantize s = .next { s with status := s.status.halted })

/-- QUANTIZE past its checks (R195, R212): the store has the source's size, every pixel the alpha and the nibble that its
SRC bytes and the lookup table give it, every padding bit and padding nibble is 0 (20_memory.md R68), and no byte of OUT is
specified (R156). OUT takes the next draw (log 5). The lookup table is read from the working state after the command, which
keeps it there: the model's choice (log 7). -/
def Obligations.QuantizeStoresTheImage : Prop :=
  ∀ s : State,
    let sw := s.args[0].toNat
    let sh := s.args[1].toNat
    TemplateLegal s.template → usableSlots s.template ≠ 0 → sw ≤ s.maxW.toNat → sh ≤ s.maxH.toNat →
    ∃ t, exec .quantize s = .next t ∧
      t = { s with
        status := { s.status.finished with dirty := true }
        width := s.args[0], height := s.args[1]
        alpha := t.alpha, color := t.color, out := { cells := [], draw := s.draws }
        palOut := t.palOut, work := t.work, draws := s.draws + 1 } ∧
      (∀ x < sw, ∀ y < sh,
        let channel : Nat → Byte := fun k => s.src.byte (4 * (y * sw + x) + k)
        if channel 3 = 255 then
          t.alphaGet x y = true ∧
          t.nibGet x y =
            t.work.lut.getD (nearest { r := channel 0, g := channel 1, b := channel 2, a := 255 }).toNat 0
        else t.alphaGet x y = false ∧ t.nibGet x y = 0) ∧
      (∀ x y, sw ≤ x → y < sh →
        (x < 8 * ((sw + 7) / 8) → t.alphaGet x y = false) ∧ (x < 2 * (sw / 2 + 1) → t.nibGet x y = 0))

/-- R207: after a successful QUANTIZE the lookup table sends every hardware colour to a slot of PAL_OUT that holds the
retained node closest to it by `gdist`, ties to the lower node. The lookup table and the retained nodes are read from the
working state after the command, which keeps them there: the model's choice (log 7). -/
def Obligations.QuantizeCodesTheClosestRetainedColor : Prop :=
  ∀ s : State,
    TemplateLegal s.template → usableSlots s.template ≠ 0 →
    s.args[0].toNat ≤ s.maxW.toNat → s.args[1].toNat ≤ s.maxH.toNat →
    ∃ t, exec .quantize s = .next t ∧
      ∀ c : HwColor, ∃ n : HwColor,
        Palette.slot t.palOut (t.work.lut.getD c.toNat 0) = n.setWidth 8 ∧ t.work.isAlive n = true ∧
        ∀ m : HwColor, t.work.isAlive m = true →
          Binary64.lt (gdist (rgb m) (rgb c)) (gdist (rgb n) (rgb c)) = false ∧
          (m.toNat < n.toNat → Binary64.lt (gdist (rgb n) (rgb c)) (gdist (rgb m) (rgb c)) = true)

/-- Steps 3 to 9 as the rules state them: the counts (R196), the nodes and their ranked lists (R198), step 6 as a chain of
rounds that each remove the first of the cheapest candidates (R199 to R201) down to exactly `totalCount` nodes with every
pinned colour among them, the turns of step 7 in ascending order (R202), the order of step 8 (R203), and the slots of step 9:
a pinned node in its own slot, the `k`-th node of the order in the `k`-th UNDEFINED slot, which is the lowest still empty
(R204), and no other slot filled. Then QUANTIZE itself: each byte of PAL_OUT is the node of its slot, or 0 (R208, R209), and
the lookup table, which the working state keeps (the model's choice, log 7), follows the heads (R206). -/
def Obligations.ReductionReachesTheTotal : Prop :=
  (∀ (template : Palette) (pixels : List Rgba), TemplateLegal template → usableSlots template ≠ 0 →
    let start := buildWork template pixels
    let reduced := start.reduce 64
    let kept := reduced.dropFree
    let placed := kept.assignSlots template
    let free := allSlots.filter fun i => Palette.slot template i == 0xFF
    let nslot : HwColor → Option SlotIx := fun n => placed.1.nslot.getD n.toNat none
    (∀ c : HwColor, start.cnt.getD c.toNat 0 = pixels.countP fun p => p.a == 255 && nearest p == c) ∧
    (∀ n t : HwColor, tableAt start.dist n t = gdist (rgb n) (rgb t)) ∧
    (∀ t : HwColor, (start.targetList t).Perm ((List.range 64).map (BitVec.ofNat 6)) ∧
      (start.targetList t).Pairwise fun m n =>
        Binary64.lt (gdist (rgb m) (rgb t)) (gdist (rgb n) (rgb t)) = true ∨
          (Binary64.lt (gdist (rgb n) (rgb t)) (gdist (rgb m) (rgb t)) = false ∧ m.toNat < n.toNat)) ∧
    (∀ n : HwColor, start.isAlive n = true ∧
      (start.isRemovable n = true ↔ ∀ i, Palette.slot template i ≠ n.setWidth 8)) ∧
    Relation.ReflTransGen QuantWork.Round start reduced ∧
    start.totalCount = usableSlots template ∧ reduced.aliveCount = usableSlots template ∧
    (∀ (i : SlotIx) (c : HwColor), Palette.slot template i = c.setWidth 8 → reduced.isAlive c = true) ∧
    (∃ turn : Nat → QuantWork, turn 0 = reduced ∧ turn 64 = kept ∧
      ∀ n : HwColor, QuantWork.DropTurn n (turn n.toNat) (turn (n.toNat + 1))) ∧
    (∀ n : HwColor, n ∈ kept.order ↔ kept.Candidate n) ∧
    (kept.order.Pairwise fun m n =>
      Binary64.lt (kept.costAt n) (kept.costAt m) = true ∨
        (Binary64.lt (kept.costAt m) (kept.costAt n) = false ∧ m.toNat < n.toNat)) ∧
    (∀ (n : HwColor) (i : SlotIx), Palette.slot template i = n.setWidth 8 → nslot n = some i) ∧
    (∀ (k : Nat) (n : HwColor), kept.order[k]? = some n → ∃ i, free[k]? = some i ∧ nslot n = some i) ∧
    (∀ (n : HwColor) (i : SlotIx), nslot n = some i ↔ placedAt placed.2 i = some n) ∧
    (∀ (n : HwColor) (i : SlotIx), nslot n = some i →
      Palette.slot template i = n.setWidth 8 ∨ ∃ k : Nat, kept.order[k]? = some n ∧ free[k]? = some i)) ∧
  ∀ s : State, TemplateLegal s.template → usableSlots s.template ≠ 0 →
    s.args[0].toNat ≤ s.maxW.toNat → s.args[1].toNat ≤ s.maxH.toNat →
    let pixels := (List.range (s.args[0].toNat * s.args[1].toNat)).map s.srcPixel
    let kept := ((buildWork s.template pixels).reduce 64).dropFree
    let placed := kept.assignSlots s.template
    ∃ t, exec .quantize s = .next t ∧
      (∀ i, Palette.slot t.palOut i = match placedAt placed.2 i with
        | some n => n.setWidth 8
        | none => 0) ∧
      ∀ c : HwColor, ∃ n : HwColor, (kept.targetList c).head? = some n ∧
        placed.1.nslot.getD n.toNat none = some (t.work.lut.getD c.toNat 0)

/-- R213(b): with all sixteen slots pinned, PAL_OUT is the template. -/
def Obligations.AllForcedTemplateIsThePalette : Prop :=
  ∀ s : State,
    (∀ i, (Palette.slot s.template i).toNat < 64) →
    (∀ i j, i ≠ j → Palette.slot s.template i ≠ Palette.slot s.template j) →
    s.args[0].toNat ≤ s.maxW.toNat → s.args[1].toNat ≤ s.maxH.toNat →
    ∃ t, exec .quantize s = .next t ∧ t.status.err = false ∧ t.palOut = s.template

/-- 43_decoder.md R246(d): after a successful QUANTIZE, DECODE of the same size under PAL_OUT passes its checks and
recomputes. -/
def Obligations.QuantizedPaletteDecodes : Prop :=
  ∀ s t : State, exec .quantize s = .next t → t.status.err = false →
    ∃ u, exec .decode { t with palIn := t.palOut } = .next u ∧
      u.status.err = false ∧ u.status.hit = false ∧ u.status.dirty = false ∧ u.cachePal = t.palOut

/-! ### Decoder -/

/-- The checks of DECODE (43_decoder.md R241): E_SIZE, then E_PALETTE, on every DECODE. -/
def Obligations.DecodeChecksInOrder : Prop :=
  ∀ s : State,
    (s.args[0] ≠ s.width ∨ s.args[1] ≠ s.height →
      exec .decode s = .next { s with status := s.status.failed .size }) ∧
    (s.args[0] = s.width → s.args[1] = s.height → (∃ i, 64 ≤ (Palette.slot s.palIn i).toNat) →
      exec .decode s = .next { s with status := s.status.failed .palette })

/-- R242, R243: a DECODE past its checks with DIRTY = 0 and PAL_IN equal to CACHE_PAL is a cache hit, and writes nothing
but STATUS. -/
def Obligations.DecodeHitsTheCache : Prop :=
  ∀ s : State, s.args[0] = s.width → s.args[1] = s.height → (∀ i, (Palette.slot s.palIn i).toNat < 64) →
    s.status.dirty = false → s.palIn = s.cachePal →
    exec .decode s = .next { s with status := { s.status.finished with hit := true } }

/-- R242, R244, R245: a DECODE past its checks with DIRTY = 1 or a PAL_IN that differs from CACHE_PAL writes every pixel
of OUT, CACHE_PAL, DIRTY and HIT, and nothing else but STATUS. -/
def Obligations.DecodeRecomputesTheImage : Prop :=
  ∀ s : State, s.args[0] = s.width → s.args[1] = s.height → (∀ i, (Palette.slot s.palIn i).toNat < 64) →
    s.status.dirty = true ∨ s.palIn ≠ s.cachePal →
    ∃ t, exec .decode s = .next t ∧
      t = { s with status := { s.status.finished with dirty := false }, out := t.out, cachePal := s.palIn } ∧
      ∀ x < s.w, ∀ y < s.h,
        let channel : Nat → Byte := fun k => t.out.byte (4 * (y * s.w + x) + k)
        let c := rgb ((Palette.slot s.palIn (s.nibGet x y)).setWidth 6)
        if s.alphaGet x y = true then channel 0 = c.r ∧ channel 1 = c.g ∧ channel 2 = c.b ∧ channel 3 = 255
        else channel 0 = 0 ∧ channel 1 = 0 ∧ channel 2 = 0 ∧ channel 3 = 0

/-- R246(a): a second DECODE right after a successful one hits the cache and leaves OUT bit-identical. -/
def Obligations.DecodeTwiceHits : Prop :=
  ∀ s t : State, exec .decode s = .next t → t.status.err = false →
    exec .decode t = .next { t with status := { t.status.finished with hit := true } }

/-! ### Drawing -/

/-- POINT (44_drawing.md R260): inside, the pixel's alpha bit and nibble and DIRTY, with every other pixel, every
padding bit, every padding nibble and every other byte as before; outside, nothing but STATUS; and E_ARG before either. -/
def Obligations.PointSetsOnePixel : Prop :=
  ∀ (s : State) (rgn : Bool),
    let x := s.args[0].toInt
    let y := s.args[1].toInt
    let c : SlotIx := s.args[2].extractLsb' 0 4
    let r := s.resolveRegion rgn
    let px := (r.ox + x).toNat
    let py := (r.oy + y).toNat
    (s.args[2].extractLsb' 4 28 ≠ 0 → exec (.point rgn) s = .next { s with status := s.status.failed .arg }) ∧
    (s.args[2].extractLsb' 4 28 = 0 → ¬ s.InRegion r x y →
      exec (.point rgn) s = .next { s with status := s.status.finished }) ∧
    (s.args[2].extractLsb' 4 28 = 0 → s.InRegion r x y →
      ∃ t, exec (.point rgn) s = .next t ∧
        t = { s with
          status := { s.status.finished with dirty := true }, alpha := t.alpha, color := t.color } ∧
        t.alphaGet px py = true ∧ t.nibGet px py = c ∧
        (∀ x' y', y' < s.h → ¬ (x' = px ∧ y' = py) →
          (x' < 8 * ((s.w + 7) / 8) → t.alphaGet x' y' = s.alphaGet x' y') ∧
          (x' < 2 * (s.w / 2 + 1) → t.nibGet x' y' = s.nibGet x' y')) ∧
        (∀ a, a ≠ s.alphaOffset px py → t.alpha.byte a = s.alpha.byte a) ∧
        (∀ a, a ≠ s.colorOffset px py → t.color.byte a = s.color.byte a))

/-- R261: a POINT outside the region's extent leaves ALPHA, COLOR and DIRTY unchanged. -/
def Obligations.PointOutsideTheRegionIsClipped : Prop :=
  ∀ (s : State) (rgn : Bool),
    let x := s.args[0].toInt
    let y := s.args[1].toInt
    let r := s.resolveRegion rgn
    x < 0 ∨ r.rw ≤ x ∨ y < 0 ∨ r.rh ≤ y →
    ∃ t, exec (.point rgn) s = .next t ∧
      t.alpha = s.alpha ∧ t.color = s.color ∧ t.status.dirty = s.status.dirty

/-- LINE (R265, R266(d)): exactly the pixels that the walk's points land on take the colour; DIRTY when there is one;
every other pixel, every padding bit and padding nibble, and every other byte as before; and E_ARG first. -/
def Obligations.LineDrawsItsWalk : Prop :=
  ∀ (s : State) (rgn : Bool),
    let points := linePoints s.args[0].toInt s.args[1].toInt s.args[2].toInt s.args[3].toInt
    let c : SlotIx := s.args[4].extractLsb' 0 4
    let r := s.resolveRegion rgn
    (s.args[4].extractLsb' 4 28 ≠ 0 → exec (.line rgn) s = .next { s with status := s.status.failed .arg }) ∧
    (s.args[4].extractLsb' 4 28 = 0 →
      ∃ t, exec (.line rgn) s = .next t ∧
        t = { s with
          status := { s.status.finished with dirty := t.status.dirty }, alpha := t.alpha, color := t.color } ∧
        (t.status.dirty = true ↔ s.status.dirty = true ∨ ∃ x y, s.Hits r points x y) ∧
        (∀ x y, s.Hits r points x y → t.alphaGet x y = true ∧ t.nibGet x y = c) ∧
        (∀ x y, y < s.h → ¬ s.Hits r points x y →
          (x < 8 * ((s.w + 7) / 8) → t.alphaGet x y = s.alphaGet x y) ∧
          (x < 2 * (s.w / 2 + 1) → t.nibGet x y = s.nibGet x y)) ∧
        (∀ a, (∀ x y, s.Hits r points x y → a ≠ s.alphaOffset x y) → t.alpha.byte a = s.alpha.byte a) ∧
        (∀ a, (∀ x y, s.Hits r points x y → a ≠ s.colorOffset x y) → t.color.byte a = s.color.byte a))

/-- R266(a): swapping the end points plots the same points. -/
def Obligations.LineIsSymmetric : Prop :=
  ∀ x1 y1 x2 y2 : Int, linePoints x1 y1 x2 y2 = linePoints x2 y2 x1 y1

/-- R265, R266(b): none for equal end points; else `n + 1` points, `n = max(|dx|, |dy|)`, with rising major coordinates,
the lower end point first and the upper end point last; and for `i` in `[0, n)` the point whose major coordinate is the lower
end's plus `i` and whose minor coordinate is `(m1*n + dm*i) / n` rounded toward zero, `m1` the lower end's minor coordinate
and `dm` the minor difference. A tie `|dx| = |dy|` goes to the x axis. -/
def Obligations.LineStepsAlongItsMajorAxis : Prop :=
  (∀ x y : Int, linePoints x y x y = []) ∧
  ∀ x1 y1 x2 y2 : Int, ¬ (x1 = x2 ∧ y1 = y2) →
    let points := linePoints x1 y1 x2 y2
    let major : Int × Int → Int := fun p => if (y2 - y1).natAbs ≤ (x2 - x1).natAbs then p.1 else p.2
    let minor : Int × Int → Int := fun p => if (y2 - y1).natAbs ≤ (x2 - x1).natAbs then p.2 else p.1
    let swapped := major (x2, y2) < major (x1, y1)
    let lower := if swapped then (x2, y2) else (x1, y1)
    let upper := if swapped then (x1, y1) else (x2, y2)
    let n := max (x2 - x1).natAbs (y2 - y1).natAbs
    let towardZero : Int → Int := fun a => if 0 ≤ a then a / (n : Int) else -(-a / (n : Int))
    points.length = n + 1 ∧ (points.map major).Pairwise (· < ·) ∧
    points.head? = some lower ∧ points.getLast? = some upper ∧
    ∀ i < n, ∃ p, points[i]? = some p ∧ major p = major lower + i ∧
      minor p = towardZero (minor lower * n + (minor upper - minor lower) * i)

/-- R266(c): a horizontal, vertical or 45-degree line is exactly the points of the segment. -/
def Obligations.StraightLinesAreSegments : Prop :=
  (∀ x1 x2 y : Int, x1 ≠ x2 → ∀ p : Int × Int,
    p ∈ linePoints x1 y x2 y ↔ p.2 = y ∧ min x1 x2 ≤ p.1 ∧ p.1 ≤ max x1 x2) ∧
  (∀ x y1 y2 : Int, y1 ≠ y2 → ∀ p : Int × Int,
    p ∈ linePoints x y1 x y2 ↔ p.1 = x ∧ min y1 y2 ≤ p.2 ∧ p.2 ≤ max y1 y2) ∧
  (∀ x1 y1 x2 y2 : Int, x1 ≠ x2 → (x2 - x1).natAbs = (y2 - y1).natAbs → ∀ p : Int × Int,
    p ∈ linePoints x1 y1 x2 y2 ↔
      min x1 x2 ≤ p.1 ∧ p.1 ≤ max x1 x2 ∧ (p.2 - y1) * (x2 - x1) = (p.1 - x1) * (y2 - y1))

/-- R270: the six reserved commands raise E_UNIMPL with RGN 0 or 1, and change nothing else. -/
def Obligations.ReservedPrimitivesAreUnimplemented : Prop :=
  ∀ (s : State) (rgn : Bool),
    ∀ i ∈ [Instr.rect rgn, .lineRect rgn, .circle rgn, .ellipse rgn, .ellipseQb rgn, .text rgn],
      exec i s = .next { s with status := s.status.failed .unimpl }

/-! ### Whole-machine rules -/

/-- Every command runs to completion, with BUSY cleared, from every state (10_state.md R24, 20_memory.md R80). -/
def Obligations.EveryCommandCompletes : Prop :=
  ∀ (i : Instr) (s : State), ∃ t, exec i s = .next t ∧ t.status.busy = false

/-- 60_exceptions.md R302, R305, R306: a failing command changes nothing but STATUS, and there as R302 says, or as R306
says for the allocation failure; and ERR and ECODE keep their values until the engine runs again, a reset apart. -/
def Obligations.FailureChangesOnlyStatus : Prop :=
  (∀ (i : Instr) (s t : State), exec i s = .next t → t.status.err = true →
    t = { s with status := t.status } ∧
    t.status = if t.status.ecode = .alloc then s.status.halted else s.status.failed t.status.ecode) ∧
  (∀ s t : State, s.engineTurn = false → (∀ rest, s.host ≠ .reset :: rest) → step s = .next t →
    t.status.err = s.status.err ∧ t.status.ecode = s.status.ecode)

/-- No command writes the host's registers, SRC, the capacity or CMD_LATCH (10_state.md R21, R25, R26, R31, R32, R38). -/
def Obligations.CommandsKeepTheHostsInputs : Prop :=
  ∀ (i : Instr) (s t : State), exec i s = .next t →
    t.cmdLatch = s.cmdLatch ∧ t.args = s.args ∧ t.rgnOx = s.rgnOx ∧ t.rgnOy = s.rgnOy ∧ t.rgnW = s.rgnW ∧
    t.rgnH = s.rgnH ∧ t.palIn = s.palIn ∧ t.template = s.template ∧ t.src = s.src ∧ t.maxW = s.maxW ∧
    t.maxH = s.maxH ∧ t.host = s.host ∧ t.hostData = s.hostData

/-- Which commands write which results (R27, R28, R33, R36): the others leave them unchanged. That the quantizer's working
state, unspecified between commands (R39), keeps its value is the model's choice (log 7). -/
def Obligations.OnlyNamedCommandsWriteResults : Prop :=
  ∀ (i : Instr) (s t : State), exec i s = .next t →
    (i ∉ [.create, .resize, .quantize] → t.width = s.width ∧ t.height = s.height) ∧
    ((∀ rgn, i ≠ .getColor rgn) → i ∉ [.hw2rgb, .nearest, .gdist, .ldist] → t.res0 = s.res0 ∧ t.res1 = s.res1) ∧
    (i ≠ .quantize → t.palOut = s.palOut ∧ t.work = s.work) ∧
    (i ≠ .decode → t.cachePal = s.cachePal) ∧
    (i ∉ [.create, .resize, .quantize, .decode] → t.out = s.out)

/-- 10_state.md R35, 20_memory.md R84: a command that changes a plane or the size leaves DIRTY = 1, only DECODE clears
DIRTY, and only a hit of DECODE leaves HIT = 1. -/
def Obligations.EveryMutationSetsDirty : Prop :=
  ∀ (i : Instr) (s t : State), exec i s = .next t →
    (t.alpha ≠ s.alpha ∨ t.color ≠ s.color ∨ t.width ≠ s.width ∨ t.height ≠ s.height → t.status.dirty = true) ∧
    (s.status.dirty = true → t.status.dirty = false → i = .decode) ∧
    (t.status.hit = true → i = .decode)

/-- 10_state.md R37: every step keeps the cache coherent. -/
def Obligations.StepKeepsTheCacheCoherent : Prop :=
  ∀ s t : State, s.CacheCoherent → step s = .next t → t.CacheCoherent

/-- Every step keeps the invariant of Safety.lean: sizes within the capacity, windows canonical and within their
extents, ALPHA specified, PAL_OUT legal, ERR and FATAL as STATUS shows them; and, of the model's own fields, every window's
draw earlier than the next (log 5, log 6). -/
def Obligations.StepKeepsTheInvariant : Prop :=
  ∀ s t : State, s.Inv → step s = .next t → t.Inv

/-- The state after reset has the invariant and is coherent. The windows' draws are earlier than the next by the model's
choice (log 6). -/
def Obligations.ResetHasTheInvariants : Prop := State.reset.Inv ∧ State.reset.CacheCoherent

/-- On the engine's turn, and on every move of the host that the model answers, a write beyond a window among them
(20_memory.md R77), the step goes on: no fault and no refusal. -/
def Obligations.AnsweredMovesGoOn : Prop :=
  ∀ s : State, (∀ op rest, s.host = op :: rest → s.MoveAnswered op) → GoesOn (step s)

/-- 60_exceptions.md R306: while FATAL = 1 and the block is idle, a step that is not a reset keeps FATAL, STATUS, the
bitmap, OUT, CACHE_PAL and PAL_OUT, and accepts no command; the platform's reset clears FATAL. -/
def Obligations.FatalLastsUntilReset : Prop :=
  (∀ s t : State, s.status.fatal = true → s.status.busy = false → (∀ rest, s.host ≠ .reset :: rest) →
    step s = .next t →
    t.status = s.status ∧ t.cmdLatch = s.cmdLatch ∧ t.width = s.width ∧ t.height = s.height ∧ t.alpha = s.alpha ∧
    t.color = s.color ∧ t.out = s.out ∧ t.cachePal = s.cachePal ∧ t.palOut = s.palOut) ∧
  (∀ (s : State) (rest : List HostOp), s.host = .reset :: rest →
    ∃ t, step s = .next t ∧ t.status.fatal = false)

/-! ### The host interface and reset -/

/-- 10_state.md R23: a CMD write is ignored while FATAL or BUSY is 1; otherwise it latches the word and sets BUSY, and
nothing else. CMD_LATCH is not host-readable, and 0 at reset. -/
def Obligations.CmdWriteStartsACommand : Prop :=
  (∀ (s : State) (v : Word) (rest : List HostOp), s.host = .wr 0 v :: rest →
    (s.status.fatal = true → step s = .next { s with host := rest }) ∧
    (s.status.fatal = false → s.status.busy = true → step s = .next { s with host := rest }) ∧
    (s.status.fatal = false → s.status.busy = false →
      step s = .next { s with host := rest, cmdLatch := v, status := { s.status with busy := true } })) ∧
  (∀ (s : State) (r : Reg) (v : Word), ({ s with cmdLatch := v } : State).readReg r = s.readReg r) ∧
  State.reset.cmdLatch = 0

/-- 10_state.md R22: a writable register reads back what was written, no other register changes, and a write to a
read-only register or a reserved offset has no effect; and the host's step on `wr` and `rd` at an aligned offset is that
write and that read of the register that stands there. A write to CMD is the subject of CmdWriteStartsACommand. The host's
moves stand in a list and its last read in `hostData`: the model's choice (log 1, log 2). -/
def Obligations.RegisterWritesReadBack : Prop :=
  (∀ (s : State) (r r' : Reg) (v : Word), r ≠ .cmd →
    (s.writeReg r v).readReg r' = (if r' = r ∧ r.writable = true then v else s.readReg r') ∧
    (r.writable = false → s.writeReg r v = s)) ∧
  (∀ (s : State) (off : BitVec 8) (r : Reg) (v : Word) (rest : List HostOp), s.host = .wr off v :: rest →
    s.status.busy = false → regOfOffset off = some r → r ≠ .cmd →
    step s = .next { s.writeReg r v with host := rest }) ∧
  (∀ (s : State) (off : BitVec 8) (r : Reg) (rest : List HostOp), s.host = .rd off :: rest →
    s.status.busy = false → regOfOffset off = some r →
    step s = .next { s with host := rest, hostData := s.readReg r }) ∧
  (∀ (s : State) (rest : List HostOp), s.host = .rd 0x04 :: rest →
    step s = .next { s with host := rest, hostData := s.readReg .status })

/-- 10_state.md R30: register `k` of a palette file holds bytes `4k .. 4k+3` little-endian, at offset `base + 4k`. -/
def Obligations.PaletteWordsAreLittleEndian : Prop :=
  (∀ (p : Palette) (k j : Fin 4),
    (Palette.readWord p k).extractLsb' (8 * j.val) 8 = p[4 * k.val + j.val]) ∧
  (∀ (p : Palette) (k k' : Fin 4) (v : Word),
    Palette.readWord (Palette.writeWord p k v) k' = if k' = k then v else Palette.readWord p k') ∧
  (∀ k : Fin 4,
    regOfOffset (BitVec.ofNat 8 (0x60 + 4 * k.val)) = some (.palIn k) ∧
    regOfOffset (BitVec.ofNat 8 (0x70 + 4 * k.val)) = some (.template k) ∧
    regOfOffset (BitVec.ofNat 8 (0x80 + 4 * k.val)) = some (.palOut k) ∧
    regOfOffset (BitVec.ofNat 8 (0x90 + 4 * k.val)) = some (.cachePal k))

/-- 10_state.md R22: the offsets of the other registers; every other aligned offset is reserved. -/
def Obligations.RegisterOffsets : Prop :=
  regOfOffset 0x00 = some .cmd ∧ regOfOffset 0x04 = some .status ∧ regOfOffset 0x08 = some .width ∧
  regOfOffset 0x0C = some .height ∧ regOfOffset 0x10 = some .arbr ∧ regOfOffset 0x14 = some .crbr ∧
  regOfOffset 0x18 = some .maxw ∧ regOfOffset 0x1C = some .maxh ∧
  (∀ k : Fin 8, regOfOffset (BitVec.ofNat 8 (0x20 + 4 * k.val)) = some (.arg k)) ∧
  regOfOffset 0x40 = some .rgnOx ∧ regOfOffset 0x44 = some .rgnOy ∧ regOfOffset 0x48 = some .rgnW ∧
  regOfOffset 0x4C = some .rgnH ∧ regOfOffset 0x50 = some .res0 ∧ regOfOffset 0x54 = some .res1 ∧
  regOfOffset 0x58 = some .reserved ∧ regOfOffset 0x5C = some .reserved ∧
  (∀ off : BitVec 8, 0xA0 ≤ off.toNat → off.toNat % 4 = 0 → regOfOffset off = some .reserved)

/-- 20_memory.md R74: a host read changes nothing but the value the host receives (and, of the model's own fields, its
list of moves and the count of draws). -/
def Obligations.HostReadsHaveNoSideEffect : Prop :=
  ∀ (s t : State) (op : HostOp) (rest : List HostOp), s.host = op :: rest → s.engineTurn = false →
    (∃ off, op = .rd off) ∨ (∃ sp a, op = .rdb sp a) ∨ (∃ sp a, op = .rdw sp a) ∨ op = .wait →
    step s = .next t →
    t = { s with host := rest, hostData := t.hostData, draws := t.draws }

/-- 20_memory.md R61, R62: a host write changes the bytes of SRC it names, little-endian, and no other byte; to ALPHA,
COLOR and OUT it has no effect. Beyond SRC's last byte no access check stops a write (R77); that it changes nothing is
deduced (R74, 10_state.md R40; log 8). -/
def Obligations.HostWritesReachOnlySrc : Prop :=
  (∀ (s : State) (sp : Space) (a : Nat) (v : Byte) (rest : List HostOp), s.host = .wrb sp a v :: rest →
    s.status.busy = false →
    (sp ≠ .src → step s = .next { s with host := rest }) ∧
    (sp = .src → a < 4 * s.maxW.toNat * s.maxH.toNat →
      ∃ t, step s = .next t ∧ t = { s with host := rest, src := t.src } ∧
        ∀ b, t.src.byte b = if b = a then v else s.src.byte b) ∧
    (sp = .src → 4 * s.maxW.toNat * s.maxH.toNat ≤ a → step s = .next { s with host := rest })) ∧
  (∀ (s : State) (sp : Space) (a : Nat) (v : Word) (rest : List HostOp), s.host = .ww sp a v :: rest →
    s.status.busy = false → a % 4 = 0 →
    (sp ≠ .src → step s = .next { s with host := rest }) ∧
    (sp = .src → a + 3 < 4 * s.maxW.toNat * s.maxH.toNat →
      ∃ t, step s = .next t ∧ t = { s with host := rest, src := t.src } ∧
        (∀ j < 4, t.src.byte (a + j) = v.extractLsb' (8 * j) 8) ∧
        ∀ b, b < a ∨ a + 4 ≤ b → t.src.byte b = s.src.byte b) ∧
    (sp = .src → 4 * s.maxW.toNat * s.maxH.toNat ≤ a → step s = .next { s with host := rest }))

/-- 20_memory.md R62, R63: inside the allocated size a host read returns the window's bytes, a word little-endian. -/
def Obligations.HostReadsTheWindowBytes : Prop :=
  (∀ (s : State) (sp : Space) (a : Nat) (rest : List HostOp), s.host = .rdb sp a :: rest → s.status.busy = false →
    a < s.windowSize sp →
    step s = .next { s with host := rest, hostData := ((s.window sp).byte a).setWidth 32 }) ∧
  (∀ (s : State) (sp : Space) (a : Nat) (rest : List HostOp), s.host = .rdw sp a :: rest → s.status.busy = false →
    a % 4 = 0 → a + 4 ≤ s.windowSize sp →
    ∃ t, step s = .next t ∧ t = { s with host := rest, hostData := t.hostData } ∧
      ∀ j < 4, t.hostData.extractLsb' (8 * j) 8 = (s.window sp).byte (a + j))

/-- 70_reset_and_hazards.md R340: the registers as the host reads them right after reset, and the empty windows. -/
def Obligations.ResetValues : Prop :=
  let s := State.reset
  s.cmdLatch = 0 ∧ s.readReg .status = 0x00000008 ∧ s.readReg .width = 0 ∧ s.readReg .height = 0 ∧
  s.readReg .arbr = 0 ∧ s.readReg .crbr = 1 ∧ s.readReg .maxw = Config.maxW ∧ s.readReg .maxh = Config.maxH ∧
  (∀ k, s.readReg (.arg k) = 0) ∧ s.readReg .rgnOx = 0 ∧ s.readReg .rgnOy = 0 ∧ s.readReg .rgnW = 0 ∧
  s.readReg .rgnH = 0 ∧ s.readReg .res0 = 0 ∧ s.readReg .res1 = 0 ∧
  (∀ k, s.readReg (.palIn k) = 0 ∧ s.readReg (.template k) = 0xFFFFFFFF ∧ s.readReg (.palOut k) = 0 ∧
    s.readReg (.cachePal k) = 0) ∧
  s.readReg .cmd = 0 ∧ s.readReg .reserved = 0 ∧
  s.alphaSize = 0 ∧ s.colorSize = 0 ∧ s.outSize = 0 ∧ s.src.cells = []

/-- R340: the platform's reset, at any time, gives every part of the block its reset value; a command in progress leaves
no effect. SRC takes the next draw (R342, log 5). The model's choices: the capacity, the host's own list and its last read
stay and the count of draws goes on (log 14); the quantizer's working state, which R340 leaves unspecified, has the values of
log 7; the empty windows ALPHA, COLOR and OUT have the draw number of log 6. -/
def Obligations.PlatformResetRestoresTheBlock : Prop :=
  ∀ (s : State) (rest : List HostOp), s.host = .reset :: rest →
    step s = .next { State.reset with
      maxW := s.maxW, maxH := s.maxH, src := { cells := [], draw := s.draws }, draws := s.draws + 1, host := rest
      hostData := s.hostData }
end

