-- ==== Sys2Proof/Laws/State.lean ====
section
/-! SUPPORT. One lemma for each field of State and each named update, so that no proof unfolds a record update. -/

namespace Sys2Proof.Machine

/-! ### startCommand -/

@[simp] theorem State.startCommand_cmdLatch (s : State) :
    s.startCommand.cmdLatch = s.cmdLatch := rfl
@[simp] theorem State.startCommand_status (s : State) :
    s.startCommand.status = { s.status with err := false, ecode := .ok, hit := false } := rfl
@[simp] theorem State.startCommand_width (s : State) :
    s.startCommand.width = s.width := rfl
@[simp] theorem State.startCommand_height (s : State) :
    s.startCommand.height = s.height := rfl
@[simp] theorem State.startCommand_maxW (s : State) :
    s.startCommand.maxW = s.maxW := rfl
@[simp] theorem State.startCommand_maxH (s : State) :
    s.startCommand.maxH = s.maxH := rfl
@[simp] theorem State.startCommand_args (s : State) :
    s.startCommand.args = s.args := rfl
@[simp] theorem State.startCommand_rgnOx (s : State) :
    s.startCommand.rgnOx = s.rgnOx := rfl
@[simp] theorem State.startCommand_rgnOy (s : State) :
    s.startCommand.rgnOy = s.rgnOy := rfl
@[simp] theorem State.startCommand_rgnW (s : State) :
    s.startCommand.rgnW = s.rgnW := rfl
@[simp] theorem State.startCommand_rgnH (s : State) :
    s.startCommand.rgnH = s.rgnH := rfl
@[simp] theorem State.startCommand_res0 (s : State) :
    s.startCommand.res0 = s.res0 := rfl
@[simp] theorem State.startCommand_res1 (s : State) :
    s.startCommand.res1 = s.res1 := rfl
@[simp] theorem State.startCommand_palIn (s : State) :
    s.startCommand.palIn = s.palIn := rfl
@[simp] theorem State.startCommand_template (s : State) :
    s.startCommand.template = s.template := rfl
@[simp] theorem State.startCommand_palOut (s : State) :
    s.startCommand.palOut = s.palOut := rfl
@[simp] theorem State.startCommand_cachePal (s : State) :
    s.startCommand.cachePal = s.cachePal := rfl
@[simp] theorem State.startCommand_src (s : State) :
    s.startCommand.src = s.src := rfl
@[simp] theorem State.startCommand_alpha (s : State) :
    s.startCommand.alpha = s.alpha := rfl
@[simp] theorem State.startCommand_color (s : State) :
    s.startCommand.color = s.color := rfl
@[simp] theorem State.startCommand_out (s : State) :
    s.startCommand.out = s.out := rfl
@[simp] theorem State.startCommand_work (s : State) :
    s.startCommand.work = s.work := rfl
@[simp] theorem State.startCommand_draws (s : State) :
    s.startCommand.draws = s.draws := rfl
@[simp] theorem State.startCommand_host (s : State) :
    s.startCommand.host = s.host := rfl
@[simp] theorem State.startCommand_hostData (s : State) :
    s.startCommand.hostData = s.hostData := rfl

/-! ### completeCommand -/

@[simp] theorem State.completeCommand_cmdLatch (s : State) :
    s.completeCommand.cmdLatch = s.cmdLatch := rfl
@[simp] theorem State.completeCommand_status (s : State) :
    s.completeCommand.status = { s.status with busy := false } := rfl
@[simp] theorem State.completeCommand_width (s : State) :
    s.completeCommand.width = s.width := rfl
@[simp] theorem State.completeCommand_height (s : State) :
    s.completeCommand.height = s.height := rfl
@[simp] theorem State.completeCommand_maxW (s : State) :
    s.completeCommand.maxW = s.maxW := rfl
@[simp] theorem State.completeCommand_maxH (s : State) :
    s.completeCommand.maxH = s.maxH := rfl
@[simp] theorem State.completeCommand_args (s : State) :
    s.completeCommand.args = s.args := rfl
@[simp] theorem State.completeCommand_rgnOx (s : State) :
    s.completeCommand.rgnOx = s.rgnOx := rfl
@[simp] theorem State.completeCommand_rgnOy (s : State) :
    s.completeCommand.rgnOy = s.rgnOy := rfl
@[simp] theorem State.completeCommand_rgnW (s : State) :
    s.completeCommand.rgnW = s.rgnW := rfl
@[simp] theorem State.completeCommand_rgnH (s : State) :
    s.completeCommand.rgnH = s.rgnH := rfl
@[simp] theorem State.completeCommand_res0 (s : State) :
    s.completeCommand.res0 = s.res0 := rfl
@[simp] theorem State.completeCommand_res1 (s : State) :
    s.completeCommand.res1 = s.res1 := rfl
@[simp] theorem State.completeCommand_palIn (s : State) :
    s.completeCommand.palIn = s.palIn := rfl
@[simp] theorem State.completeCommand_template (s : State) :
    s.completeCommand.template = s.template := rfl
@[simp] theorem State.completeCommand_palOut (s : State) :
    s.completeCommand.palOut = s.palOut := rfl
@[simp] theorem State.completeCommand_cachePal (s : State) :
    s.completeCommand.cachePal = s.cachePal := rfl
@[simp] theorem State.completeCommand_src (s : State) :
    s.completeCommand.src = s.src := rfl
@[simp] theorem State.completeCommand_alpha (s : State) :
    s.completeCommand.alpha = s.alpha := rfl
@[simp] theorem State.completeCommand_color (s : State) :
    s.completeCommand.color = s.color := rfl
@[simp] theorem State.completeCommand_out (s : State) :
    s.completeCommand.out = s.out := rfl
@[simp] theorem State.completeCommand_work (s : State) :
    s.completeCommand.work = s.work := rfl
@[simp] theorem State.completeCommand_draws (s : State) :
    s.completeCommand.draws = s.draws := rfl
@[simp] theorem State.completeCommand_host (s : State) :
    s.completeCommand.host = s.host := rfl
@[simp] theorem State.completeCommand_hostData (s : State) :
    s.completeCommand.hostData = s.hostData := rfl

/-! ### markDirty -/

@[simp] theorem State.markDirty_cmdLatch (s : State) :
    s.markDirty.cmdLatch = s.cmdLatch := rfl
@[simp] theorem State.markDirty_status (s : State) :
    s.markDirty.status = { s.status with dirty := true } := rfl
@[simp] theorem State.markDirty_width (s : State) :
    s.markDirty.width = s.width := rfl
@[simp] theorem State.markDirty_height (s : State) :
    s.markDirty.height = s.height := rfl
@[simp] theorem State.markDirty_maxW (s : State) :
    s.markDirty.maxW = s.maxW := rfl
@[simp] theorem State.markDirty_maxH (s : State) :
    s.markDirty.maxH = s.maxH := rfl
@[simp] theorem State.markDirty_args (s : State) :
    s.markDirty.args = s.args := rfl
@[simp] theorem State.markDirty_rgnOx (s : State) :
    s.markDirty.rgnOx = s.rgnOx := rfl
@[simp] theorem State.markDirty_rgnOy (s : State) :
    s.markDirty.rgnOy = s.rgnOy := rfl
@[simp] theorem State.markDirty_rgnW (s : State) :
    s.markDirty.rgnW = s.rgnW := rfl
@[simp] theorem State.markDirty_rgnH (s : State) :
    s.markDirty.rgnH = s.rgnH := rfl
@[simp] theorem State.markDirty_res0 (s : State) :
    s.markDirty.res0 = s.res0 := rfl
@[simp] theorem State.markDirty_res1 (s : State) :
    s.markDirty.res1 = s.res1 := rfl
@[simp] theorem State.markDirty_palIn (s : State) :
    s.markDirty.palIn = s.palIn := rfl
@[simp] theorem State.markDirty_template (s : State) :
    s.markDirty.template = s.template := rfl
@[simp] theorem State.markDirty_palOut (s : State) :
    s.markDirty.palOut = s.palOut := rfl
@[simp] theorem State.markDirty_cachePal (s : State) :
    s.markDirty.cachePal = s.cachePal := rfl
@[simp] theorem State.markDirty_src (s : State) :
    s.markDirty.src = s.src := rfl
@[simp] theorem State.markDirty_alpha (s : State) :
    s.markDirty.alpha = s.alpha := rfl
@[simp] theorem State.markDirty_color (s : State) :
    s.markDirty.color = s.color := rfl
@[simp] theorem State.markDirty_out (s : State) :
    s.markDirty.out = s.out := rfl
@[simp] theorem State.markDirty_work (s : State) :
    s.markDirty.work = s.work := rfl
@[simp] theorem State.markDirty_draws (s : State) :
    s.markDirty.draws = s.draws := rfl
@[simp] theorem State.markDirty_host (s : State) :
    s.markDirty.host = s.host := rfl
@[simp] theorem State.markDirty_hostData (s : State) :
    s.markDirty.hostData = s.hostData := rfl

/-! ### clearDirty -/

@[simp] theorem State.clearDirty_cmdLatch (s : State) :
    s.clearDirty.cmdLatch = s.cmdLatch := rfl
@[simp] theorem State.clearDirty_status (s : State) :
    s.clearDirty.status = { s.status with dirty := false } := rfl
@[simp] theorem State.clearDirty_width (s : State) :
    s.clearDirty.width = s.width := rfl
@[simp] theorem State.clearDirty_height (s : State) :
    s.clearDirty.height = s.height := rfl
@[simp] theorem State.clearDirty_maxW (s : State) :
    s.clearDirty.maxW = s.maxW := rfl
@[simp] theorem State.clearDirty_maxH (s : State) :
    s.clearDirty.maxH = s.maxH := rfl
@[simp] theorem State.clearDirty_args (s : State) :
    s.clearDirty.args = s.args := rfl
@[simp] theorem State.clearDirty_rgnOx (s : State) :
    s.clearDirty.rgnOx = s.rgnOx := rfl
@[simp] theorem State.clearDirty_rgnOy (s : State) :
    s.clearDirty.rgnOy = s.rgnOy := rfl
@[simp] theorem State.clearDirty_rgnW (s : State) :
    s.clearDirty.rgnW = s.rgnW := rfl
@[simp] theorem State.clearDirty_rgnH (s : State) :
    s.clearDirty.rgnH = s.rgnH := rfl
@[simp] theorem State.clearDirty_res0 (s : State) :
    s.clearDirty.res0 = s.res0 := rfl
@[simp] theorem State.clearDirty_res1 (s : State) :
    s.clearDirty.res1 = s.res1 := rfl
@[simp] theorem State.clearDirty_palIn (s : State) :
    s.clearDirty.palIn = s.palIn := rfl
@[simp] theorem State.clearDirty_template (s : State) :
    s.clearDirty.template = s.template := rfl
@[simp] theorem State.clearDirty_palOut (s : State) :
    s.clearDirty.palOut = s.palOut := rfl
@[simp] theorem State.clearDirty_cachePal (s : State) :
    s.clearDirty.cachePal = s.cachePal := rfl
@[simp] theorem State.clearDirty_src (s : State) :
    s.clearDirty.src = s.src := rfl
@[simp] theorem State.clearDirty_alpha (s : State) :
    s.clearDirty.alpha = s.alpha := rfl
@[simp] theorem State.clearDirty_color (s : State) :
    s.clearDirty.color = s.color := rfl
@[simp] theorem State.clearDirty_out (s : State) :
    s.clearDirty.out = s.out := rfl
@[simp] theorem State.clearDirty_work (s : State) :
    s.clearDirty.work = s.work := rfl
@[simp] theorem State.clearDirty_draws (s : State) :
    s.clearDirty.draws = s.draws := rfl
@[simp] theorem State.clearDirty_host (s : State) :
    s.clearDirty.host = s.host := rfl
@[simp] theorem State.clearDirty_hostData (s : State) :
    s.clearDirty.hostData = s.hostData := rfl

/-! ### markHit -/

@[simp] theorem State.markHit_cmdLatch (s : State) :
    s.markHit.cmdLatch = s.cmdLatch := rfl
@[simp] theorem State.markHit_status (s : State) :
    s.markHit.status = { s.status with hit := true } := rfl
@[simp] theorem State.markHit_width (s : State) :
    s.markHit.width = s.width := rfl
@[simp] theorem State.markHit_height (s : State) :
    s.markHit.height = s.height := rfl
@[simp] theorem State.markHit_maxW (s : State) :
    s.markHit.maxW = s.maxW := rfl
@[simp] theorem State.markHit_maxH (s : State) :
    s.markHit.maxH = s.maxH := rfl
@[simp] theorem State.markHit_args (s : State) :
    s.markHit.args = s.args := rfl
@[simp] theorem State.markHit_rgnOx (s : State) :
    s.markHit.rgnOx = s.rgnOx := rfl
@[simp] theorem State.markHit_rgnOy (s : State) :
    s.markHit.rgnOy = s.rgnOy := rfl
@[simp] theorem State.markHit_rgnW (s : State) :
    s.markHit.rgnW = s.rgnW := rfl
@[simp] theorem State.markHit_rgnH (s : State) :
    s.markHit.rgnH = s.rgnH := rfl
@[simp] theorem State.markHit_res0 (s : State) :
    s.markHit.res0 = s.res0 := rfl
@[simp] theorem State.markHit_res1 (s : State) :
    s.markHit.res1 = s.res1 := rfl
@[simp] theorem State.markHit_palIn (s : State) :
    s.markHit.palIn = s.palIn := rfl
@[simp] theorem State.markHit_template (s : State) :
    s.markHit.template = s.template := rfl
@[simp] theorem State.markHit_palOut (s : State) :
    s.markHit.palOut = s.palOut := rfl
@[simp] theorem State.markHit_cachePal (s : State) :
    s.markHit.cachePal = s.cachePal := rfl
@[simp] theorem State.markHit_src (s : State) :
    s.markHit.src = s.src := rfl
@[simp] theorem State.markHit_alpha (s : State) :
    s.markHit.alpha = s.alpha := rfl
@[simp] theorem State.markHit_color (s : State) :
    s.markHit.color = s.color := rfl
@[simp] theorem State.markHit_out (s : State) :
    s.markHit.out = s.out := rfl
@[simp] theorem State.markHit_work (s : State) :
    s.markHit.work = s.work := rfl
@[simp] theorem State.markHit_draws (s : State) :
    s.markHit.draws = s.draws := rfl
@[simp] theorem State.markHit_host (s : State) :
    s.markHit.host = s.host := rfl
@[simp] theorem State.markHit_hostData (s : State) :
    s.markHit.hostData = s.hostData := rfl

/-! ### raiseError -/

@[simp] theorem State.raiseError_cmdLatch (s : State) (c : ECode) :
    (s.raiseError c).cmdLatch = s.cmdLatch := rfl
@[simp] theorem State.raiseError_status (s : State) (c : ECode) :
    (s.raiseError c).status = { s.status with err := true, ecode := c, hit := false, busy := false } := rfl
@[simp] theorem State.raiseError_width (s : State) (c : ECode) :
    (s.raiseError c).width = s.width := rfl
@[simp] theorem State.raiseError_height (s : State) (c : ECode) :
    (s.raiseError c).height = s.height := rfl
@[simp] theorem State.raiseError_maxW (s : State) (c : ECode) :
    (s.raiseError c).maxW = s.maxW := rfl
@[simp] theorem State.raiseError_maxH (s : State) (c : ECode) :
    (s.raiseError c).maxH = s.maxH := rfl
@[simp] theorem State.raiseError_args (s : State) (c : ECode) :
    (s.raiseError c).args = s.args := rfl
@[simp] theorem State.raiseError_rgnOx (s : State) (c : ECode) :
    (s.raiseError c).rgnOx = s.rgnOx := rfl
@[simp] theorem State.raiseError_rgnOy (s : State) (c : ECode) :
    (s.raiseError c).rgnOy = s.rgnOy := rfl
@[simp] theorem State.raiseError_rgnW (s : State) (c : ECode) :
    (s.raiseError c).rgnW = s.rgnW := rfl
@[simp] theorem State.raiseError_rgnH (s : State) (c : ECode) :
    (s.raiseError c).rgnH = s.rgnH := rfl
@[simp] theorem State.raiseError_res0 (s : State) (c : ECode) :
    (s.raiseError c).res0 = s.res0 := rfl
@[simp] theorem State.raiseError_res1 (s : State) (c : ECode) :
    (s.raiseError c).res1 = s.res1 := rfl
@[simp] theorem State.raiseError_palIn (s : State) (c : ECode) :
    (s.raiseError c).palIn = s.palIn := rfl
@[simp] theorem State.raiseError_template (s : State) (c : ECode) :
    (s.raiseError c).template = s.template := rfl
@[simp] theorem State.raiseError_palOut (s : State) (c : ECode) :
    (s.raiseError c).palOut = s.palOut := rfl
@[simp] theorem State.raiseError_cachePal (s : State) (c : ECode) :
    (s.raiseError c).cachePal = s.cachePal := rfl
@[simp] theorem State.raiseError_src (s : State) (c : ECode) :
    (s.raiseError c).src = s.src := rfl
@[simp] theorem State.raiseError_alpha (s : State) (c : ECode) :
    (s.raiseError c).alpha = s.alpha := rfl
@[simp] theorem State.raiseError_color (s : State) (c : ECode) :
    (s.raiseError c).color = s.color := rfl
@[simp] theorem State.raiseError_out (s : State) (c : ECode) :
    (s.raiseError c).out = s.out := rfl
@[simp] theorem State.raiseError_work (s : State) (c : ECode) :
    (s.raiseError c).work = s.work := rfl
@[simp] theorem State.raiseError_draws (s : State) (c : ECode) :
    (s.raiseError c).draws = s.draws := rfl
@[simp] theorem State.raiseError_host (s : State) (c : ECode) :
    (s.raiseError c).host = s.host := rfl
@[simp] theorem State.raiseError_hostData (s : State) (c : ECode) :
    (s.raiseError c).hostData = s.hostData := rfl

/-! ### haltFatal -/

@[simp] theorem State.haltFatal_cmdLatch (s : State) :
    s.haltFatal.cmdLatch = s.cmdLatch := rfl
@[simp] theorem State.haltFatal_status (s : State) :
    s.haltFatal.status = { s.status with fatal := true, err := true, ecode := .alloc, hit := false, busy := false } := rfl
@[simp] theorem State.haltFatal_width (s : State) :
    s.haltFatal.width = s.width := rfl
@[simp] theorem State.haltFatal_height (s : State) :
    s.haltFatal.height = s.height := rfl
@[simp] theorem State.haltFatal_maxW (s : State) :
    s.haltFatal.maxW = s.maxW := rfl
@[simp] theorem State.haltFatal_maxH (s : State) :
    s.haltFatal.maxH = s.maxH := rfl
@[simp] theorem State.haltFatal_args (s : State) :
    s.haltFatal.args = s.args := rfl
@[simp] theorem State.haltFatal_rgnOx (s : State) :
    s.haltFatal.rgnOx = s.rgnOx := rfl
@[simp] theorem State.haltFatal_rgnOy (s : State) :
    s.haltFatal.rgnOy = s.rgnOy := rfl
@[simp] theorem State.haltFatal_rgnW (s : State) :
    s.haltFatal.rgnW = s.rgnW := rfl
@[simp] theorem State.haltFatal_rgnH (s : State) :
    s.haltFatal.rgnH = s.rgnH := rfl
@[simp] theorem State.haltFatal_res0 (s : State) :
    s.haltFatal.res0 = s.res0 := rfl
@[simp] theorem State.haltFatal_res1 (s : State) :
    s.haltFatal.res1 = s.res1 := rfl
@[simp] theorem State.haltFatal_palIn (s : State) :
    s.haltFatal.palIn = s.palIn := rfl
@[simp] theorem State.haltFatal_template (s : State) :
    s.haltFatal.template = s.template := rfl
@[simp] theorem State.haltFatal_palOut (s : State) :
    s.haltFatal.palOut = s.palOut := rfl
@[simp] theorem State.haltFatal_cachePal (s : State) :
    s.haltFatal.cachePal = s.cachePal := rfl
@[simp] theorem State.haltFatal_src (s : State) :
    s.haltFatal.src = s.src := rfl
@[simp] theorem State.haltFatal_alpha (s : State) :
    s.haltFatal.alpha = s.alpha := rfl
@[simp] theorem State.haltFatal_color (s : State) :
    s.haltFatal.color = s.color := rfl
@[simp] theorem State.haltFatal_out (s : State) :
    s.haltFatal.out = s.out := rfl
@[simp] theorem State.haltFatal_work (s : State) :
    s.haltFatal.work = s.work := rfl
@[simp] theorem State.haltFatal_draws (s : State) :
    s.haltFatal.draws = s.draws := rfl
@[simp] theorem State.haltFatal_host (s : State) :
    s.haltFatal.host = s.host := rfl
@[simp] theorem State.haltFatal_hostData (s : State) :
    s.haltFatal.hostData = s.hostData := rfl

/-! ### setResult -/

@[simp] theorem State.setResult_cmdLatch (s : State) (lo hi : Word) :
    (s.setResult lo hi).cmdLatch = s.cmdLatch := rfl
@[simp] theorem State.setResult_status (s : State) (lo hi : Word) :
    (s.setResult lo hi).status = s.status := rfl
@[simp] theorem State.setResult_width (s : State) (lo hi : Word) :
    (s.setResult lo hi).width = s.width := rfl
@[simp] theorem State.setResult_height (s : State) (lo hi : Word) :
    (s.setResult lo hi).height = s.height := rfl
@[simp] theorem State.setResult_maxW (s : State) (lo hi : Word) :
    (s.setResult lo hi).maxW = s.maxW := rfl
@[simp] theorem State.setResult_maxH (s : State) (lo hi : Word) :
    (s.setResult lo hi).maxH = s.maxH := rfl
@[simp] theorem State.setResult_args (s : State) (lo hi : Word) :
    (s.setResult lo hi).args = s.args := rfl
@[simp] theorem State.setResult_rgnOx (s : State) (lo hi : Word) :
    (s.setResult lo hi).rgnOx = s.rgnOx := rfl
@[simp] theorem State.setResult_rgnOy (s : State) (lo hi : Word) :
    (s.setResult lo hi).rgnOy = s.rgnOy := rfl
@[simp] theorem State.setResult_rgnW (s : State) (lo hi : Word) :
    (s.setResult lo hi).rgnW = s.rgnW := rfl
@[simp] theorem State.setResult_rgnH (s : State) (lo hi : Word) :
    (s.setResult lo hi).rgnH = s.rgnH := rfl
@[simp] theorem State.setResult_res0 (s : State) (lo hi : Word) :
    (s.setResult lo hi).res0 = lo := rfl
@[simp] theorem State.setResult_res1 (s : State) (lo hi : Word) :
    (s.setResult lo hi).res1 = hi := rfl
@[simp] theorem State.setResult_palIn (s : State) (lo hi : Word) :
    (s.setResult lo hi).palIn = s.palIn := rfl
@[simp] theorem State.setResult_template (s : State) (lo hi : Word) :
    (s.setResult lo hi).template = s.template := rfl
@[simp] theorem State.setResult_palOut (s : State) (lo hi : Word) :
    (s.setResult lo hi).palOut = s.palOut := rfl
@[simp] theorem State.setResult_cachePal (s : State) (lo hi : Word) :
    (s.setResult lo hi).cachePal = s.cachePal := rfl
@[simp] theorem State.setResult_src (s : State) (lo hi : Word) :
    (s.setResult lo hi).src = s.src := rfl
@[simp] theorem State.setResult_alpha (s : State) (lo hi : Word) :
    (s.setResult lo hi).alpha = s.alpha := rfl
@[simp] theorem State.setResult_color (s : State) (lo hi : Word) :
    (s.setResult lo hi).color = s.color := rfl
@[simp] theorem State.setResult_out (s : State) (lo hi : Word) :
    (s.setResult lo hi).out = s.out := rfl
@[simp] theorem State.setResult_work (s : State) (lo hi : Word) :
    (s.setResult lo hi).work = s.work := rfl
@[simp] theorem State.setResult_draws (s : State) (lo hi : Word) :
    (s.setResult lo hi).draws = s.draws := rfl
@[simp] theorem State.setResult_host (s : State) (lo hi : Word) :
    (s.setResult lo hi).host = s.host := rfl
@[simp] theorem State.setResult_hostData (s : State) (lo hi : Word) :
    (s.setResult lo hi).hostData = s.hostData := rfl

/-! ### setDistance -/

@[simp] theorem State.setDistance_cmdLatch (s : State) (d : F64) :
    (s.setDistance d).cmdLatch = s.cmdLatch := rfl
@[simp] theorem State.setDistance_status (s : State) (d : F64) :
    (s.setDistance d).status = s.status := rfl
@[simp] theorem State.setDistance_width (s : State) (d : F64) :
    (s.setDistance d).width = s.width := rfl
@[simp] theorem State.setDistance_height (s : State) (d : F64) :
    (s.setDistance d).height = s.height := rfl
@[simp] theorem State.setDistance_maxW (s : State) (d : F64) :
    (s.setDistance d).maxW = s.maxW := rfl
@[simp] theorem State.setDistance_maxH (s : State) (d : F64) :
    (s.setDistance d).maxH = s.maxH := rfl
@[simp] theorem State.setDistance_args (s : State) (d : F64) :
    (s.setDistance d).args = s.args := rfl
@[simp] theorem State.setDistance_rgnOx (s : State) (d : F64) :
    (s.setDistance d).rgnOx = s.rgnOx := rfl
@[simp] theorem State.setDistance_rgnOy (s : State) (d : F64) :
    (s.setDistance d).rgnOy = s.rgnOy := rfl
@[simp] theorem State.setDistance_rgnW (s : State) (d : F64) :
    (s.setDistance d).rgnW = s.rgnW := rfl
@[simp] theorem State.setDistance_rgnH (s : State) (d : F64) :
    (s.setDistance d).rgnH = s.rgnH := rfl
@[simp] theorem State.setDistance_res0 (s : State) (d : F64) :
    (s.setDistance d).res0 = d.extractLsb' 0 32 := rfl
@[simp] theorem State.setDistance_res1 (s : State) (d : F64) :
    (s.setDistance d).res1 = d.extractLsb' 32 32 := rfl
@[simp] theorem State.setDistance_palIn (s : State) (d : F64) :
    (s.setDistance d).palIn = s.palIn := rfl
@[simp] theorem State.setDistance_template (s : State) (d : F64) :
    (s.setDistance d).template = s.template := rfl
@[simp] theorem State.setDistance_palOut (s : State) (d : F64) :
    (s.setDistance d).palOut = s.palOut := rfl
@[simp] theorem State.setDistance_cachePal (s : State) (d : F64) :
    (s.setDistance d).cachePal = s.cachePal := rfl
@[simp] theorem State.setDistance_src (s : State) (d : F64) :
    (s.setDistance d).src = s.src := rfl
@[simp] theorem State.setDistance_alpha (s : State) (d : F64) :
    (s.setDistance d).alpha = s.alpha := rfl
@[simp] theorem State.setDistance_color (s : State) (d : F64) :
    (s.setDistance d).color = s.color := rfl
@[simp] theorem State.setDistance_out (s : State) (d : F64) :
    (s.setDistance d).out = s.out := rfl
@[simp] theorem State.setDistance_work (s : State) (d : F64) :
    (s.setDistance d).work = s.work := rfl
@[simp] theorem State.setDistance_draws (s : State) (d : F64) :
    (s.setDistance d).draws = s.draws := rfl
@[simp] theorem State.setDistance_host (s : State) (d : F64) :
    (s.setDistance d).host = s.host := rfl
@[simp] theorem State.setDistance_hostData (s : State) (d : F64) :
    (s.setDistance d).hostData = s.hostData := rfl

/-! ### setSize -/

@[simp] theorem State.setSize_cmdLatch (s : State) (w h : Word) :
    (s.setSize w h).cmdLatch = s.cmdLatch := rfl
@[simp] theorem State.setSize_status (s : State) (w h : Word) :
    (s.setSize w h).status = s.status := rfl
@[simp] theorem State.setSize_width (s : State) (w h : Word) :
    (s.setSize w h).width = w := rfl
@[simp] theorem State.setSize_height (s : State) (w h : Word) :
    (s.setSize w h).height = h := rfl
@[simp] theorem State.setSize_maxW (s : State) (w h : Word) :
    (s.setSize w h).maxW = s.maxW := rfl
@[simp] theorem State.setSize_maxH (s : State) (w h : Word) :
    (s.setSize w h).maxH = s.maxH := rfl
@[simp] theorem State.setSize_args (s : State) (w h : Word) :
    (s.setSize w h).args = s.args := rfl
@[simp] theorem State.setSize_rgnOx (s : State) (w h : Word) :
    (s.setSize w h).rgnOx = s.rgnOx := rfl
@[simp] theorem State.setSize_rgnOy (s : State) (w h : Word) :
    (s.setSize w h).rgnOy = s.rgnOy := rfl
@[simp] theorem State.setSize_rgnW (s : State) (w h : Word) :
    (s.setSize w h).rgnW = s.rgnW := rfl
@[simp] theorem State.setSize_rgnH (s : State) (w h : Word) :
    (s.setSize w h).rgnH = s.rgnH := rfl
@[simp] theorem State.setSize_res0 (s : State) (w h : Word) :
    (s.setSize w h).res0 = s.res0 := rfl
@[simp] theorem State.setSize_res1 (s : State) (w h : Word) :
    (s.setSize w h).res1 = s.res1 := rfl
@[simp] theorem State.setSize_palIn (s : State) (w h : Word) :
    (s.setSize w h).palIn = s.palIn := rfl
@[simp] theorem State.setSize_template (s : State) (w h : Word) :
    (s.setSize w h).template = s.template := rfl
@[simp] theorem State.setSize_palOut (s : State) (w h : Word) :
    (s.setSize w h).palOut = s.palOut := rfl
@[simp] theorem State.setSize_cachePal (s : State) (w h : Word) :
    (s.setSize w h).cachePal = s.cachePal := rfl
@[simp] theorem State.setSize_src (s : State) (w h : Word) :
    (s.setSize w h).src = s.src := rfl
@[simp] theorem State.setSize_alpha (s : State) (w h : Word) :
    (s.setSize w h).alpha = s.alpha := rfl
@[simp] theorem State.setSize_color (s : State) (w h : Word) :
    (s.setSize w h).color = s.color := rfl
@[simp] theorem State.setSize_out (s : State) (w h : Word) :
    (s.setSize w h).out = s.out := rfl
@[simp] theorem State.setSize_work (s : State) (w h : Word) :
    (s.setSize w h).work = s.work := rfl
@[simp] theorem State.setSize_draws (s : State) (w h : Word) :
    (s.setSize w h).draws = s.draws := rfl
@[simp] theorem State.setSize_host (s : State) (w h : Word) :
    (s.setSize w h).host = s.host := rfl
@[simp] theorem State.setSize_hostData (s : State) (w h : Word) :
    (s.setSize w h).hostData = s.hostData := rfl

/-! ### fillAlpha -/

@[simp] theorem State.fillAlpha_cmdLatch (s : State) (b : Byte) :
    (s.fillAlpha b).cmdLatch = s.cmdLatch := rfl
@[simp] theorem State.fillAlpha_status (s : State) (b : Byte) :
    (s.fillAlpha b).status = s.status := rfl
@[simp] theorem State.fillAlpha_width (s : State) (b : Byte) :
    (s.fillAlpha b).width = s.width := rfl
@[simp] theorem State.fillAlpha_height (s : State) (b : Byte) :
    (s.fillAlpha b).height = s.height := rfl
@[simp] theorem State.fillAlpha_maxW (s : State) (b : Byte) :
    (s.fillAlpha b).maxW = s.maxW := rfl
@[simp] theorem State.fillAlpha_maxH (s : State) (b : Byte) :
    (s.fillAlpha b).maxH = s.maxH := rfl
@[simp] theorem State.fillAlpha_args (s : State) (b : Byte) :
    (s.fillAlpha b).args = s.args := rfl
@[simp] theorem State.fillAlpha_rgnOx (s : State) (b : Byte) :
    (s.fillAlpha b).rgnOx = s.rgnOx := rfl
@[simp] theorem State.fillAlpha_rgnOy (s : State) (b : Byte) :
    (s.fillAlpha b).rgnOy = s.rgnOy := rfl
@[simp] theorem State.fillAlpha_rgnW (s : State) (b : Byte) :
    (s.fillAlpha b).rgnW = s.rgnW := rfl
@[simp] theorem State.fillAlpha_rgnH (s : State) (b : Byte) :
    (s.fillAlpha b).rgnH = s.rgnH := rfl
@[simp] theorem State.fillAlpha_res0 (s : State) (b : Byte) :
    (s.fillAlpha b).res0 = s.res0 := rfl
@[simp] theorem State.fillAlpha_res1 (s : State) (b : Byte) :
    (s.fillAlpha b).res1 = s.res1 := rfl
@[simp] theorem State.fillAlpha_palIn (s : State) (b : Byte) :
    (s.fillAlpha b).palIn = s.palIn := rfl
@[simp] theorem State.fillAlpha_template (s : State) (b : Byte) :
    (s.fillAlpha b).template = s.template := rfl
@[simp] theorem State.fillAlpha_palOut (s : State) (b : Byte) :
    (s.fillAlpha b).palOut = s.palOut := rfl
@[simp] theorem State.fillAlpha_cachePal (s : State) (b : Byte) :
    (s.fillAlpha b).cachePal = s.cachePal := rfl
@[simp] theorem State.fillAlpha_src (s : State) (b : Byte) :
    (s.fillAlpha b).src = s.src := rfl
@[simp] theorem State.fillAlpha_alpha (s : State) (b : Byte) :
    (s.fillAlpha b).alpha = s.alpha.fill s.alphaSize b := rfl
@[simp] theorem State.fillAlpha_color (s : State) (b : Byte) :
    (s.fillAlpha b).color = s.color := rfl
@[simp] theorem State.fillAlpha_out (s : State) (b : Byte) :
    (s.fillAlpha b).out = s.out := rfl
@[simp] theorem State.fillAlpha_work (s : State) (b : Byte) :
    (s.fillAlpha b).work = s.work := rfl
@[simp] theorem State.fillAlpha_draws (s : State) (b : Byte) :
    (s.fillAlpha b).draws = s.draws := rfl
@[simp] theorem State.fillAlpha_host (s : State) (b : Byte) :
    (s.fillAlpha b).host = s.host := rfl
@[simp] theorem State.fillAlpha_hostData (s : State) (b : Byte) :
    (s.fillAlpha b).hostData = s.hostData := rfl

/-! ### fillColor -/

@[simp] theorem State.fillColor_cmdLatch (s : State) (b : Byte) :
    (s.fillColor b).cmdLatch = s.cmdLatch := rfl
@[simp] theorem State.fillColor_status (s : State) (b : Byte) :
    (s.fillColor b).status = s.status := rfl
@[simp] theorem State.fillColor_width (s : State) (b : Byte) :
    (s.fillColor b).width = s.width := rfl
@[simp] theorem State.fillColor_height (s : State) (b : Byte) :
    (s.fillColor b).height = s.height := rfl
@[simp] theorem State.fillColor_maxW (s : State) (b : Byte) :
    (s.fillColor b).maxW = s.maxW := rfl
@[simp] theorem State.fillColor_maxH (s : State) (b : Byte) :
    (s.fillColor b).maxH = s.maxH := rfl
@[simp] theorem State.fillColor_args (s : State) (b : Byte) :
    (s.fillColor b).args = s.args := rfl
@[simp] theorem State.fillColor_rgnOx (s : State) (b : Byte) :
    (s.fillColor b).rgnOx = s.rgnOx := rfl
@[simp] theorem State.fillColor_rgnOy (s : State) (b : Byte) :
    (s.fillColor b).rgnOy = s.rgnOy := rfl
@[simp] theorem State.fillColor_rgnW (s : State) (b : Byte) :
    (s.fillColor b).rgnW = s.rgnW := rfl
@[simp] theorem State.fillColor_rgnH (s : State) (b : Byte) :
    (s.fillColor b).rgnH = s.rgnH := rfl
@[simp] theorem State.fillColor_res0 (s : State) (b : Byte) :
    (s.fillColor b).res0 = s.res0 := rfl
@[simp] theorem State.fillColor_res1 (s : State) (b : Byte) :
    (s.fillColor b).res1 = s.res1 := rfl
@[simp] theorem State.fillColor_palIn (s : State) (b : Byte) :
    (s.fillColor b).palIn = s.palIn := rfl
@[simp] theorem State.fillColor_template (s : State) (b : Byte) :
    (s.fillColor b).template = s.template := rfl
@[simp] theorem State.fillColor_palOut (s : State) (b : Byte) :
    (s.fillColor b).palOut = s.palOut := rfl
@[simp] theorem State.fillColor_cachePal (s : State) (b : Byte) :
    (s.fillColor b).cachePal = s.cachePal := rfl
@[simp] theorem State.fillColor_src (s : State) (b : Byte) :
    (s.fillColor b).src = s.src := rfl
@[simp] theorem State.fillColor_alpha (s : State) (b : Byte) :
    (s.fillColor b).alpha = s.alpha := rfl
@[simp] theorem State.fillColor_color (s : State) (b : Byte) :
    (s.fillColor b).color = s.color.fill s.colorSize b := rfl
@[simp] theorem State.fillColor_out (s : State) (b : Byte) :
    (s.fillColor b).out = s.out := rfl
@[simp] theorem State.fillColor_work (s : State) (b : Byte) :
    (s.fillColor b).work = s.work := rfl
@[simp] theorem State.fillColor_draws (s : State) (b : Byte) :
    (s.fillColor b).draws = s.draws := rfl
@[simp] theorem State.fillColor_host (s : State) (b : Byte) :
    (s.fillColor b).host = s.host := rfl
@[simp] theorem State.fillColor_hostData (s : State) (b : Byte) :
    (s.fillColor b).hostData = s.hostData := rfl

/-! ### redrawOut -/

@[simp] theorem State.redrawOut_cmdLatch (s : State) :
    s.redrawOut.cmdLatch = s.cmdLatch := rfl
@[simp] theorem State.redrawOut_status (s : State) :
    s.redrawOut.status = s.status := rfl
@[simp] theorem State.redrawOut_width (s : State) :
    s.redrawOut.width = s.width := rfl
@[simp] theorem State.redrawOut_height (s : State) :
    s.redrawOut.height = s.height := rfl
@[simp] theorem State.redrawOut_maxW (s : State) :
    s.redrawOut.maxW = s.maxW := rfl
@[simp] theorem State.redrawOut_maxH (s : State) :
    s.redrawOut.maxH = s.maxH := rfl
@[simp] theorem State.redrawOut_args (s : State) :
    s.redrawOut.args = s.args := rfl
@[simp] theorem State.redrawOut_rgnOx (s : State) :
    s.redrawOut.rgnOx = s.rgnOx := rfl
@[simp] theorem State.redrawOut_rgnOy (s : State) :
    s.redrawOut.rgnOy = s.rgnOy := rfl
@[simp] theorem State.redrawOut_rgnW (s : State) :
    s.redrawOut.rgnW = s.rgnW := rfl
@[simp] theorem State.redrawOut_rgnH (s : State) :
    s.redrawOut.rgnH = s.rgnH := rfl
@[simp] theorem State.redrawOut_res0 (s : State) :
    s.redrawOut.res0 = s.res0 := rfl
@[simp] theorem State.redrawOut_res1 (s : State) :
    s.redrawOut.res1 = s.res1 := rfl
@[simp] theorem State.redrawOut_palIn (s : State) :
    s.redrawOut.palIn = s.palIn := rfl
@[simp] theorem State.redrawOut_template (s : State) :
    s.redrawOut.template = s.template := rfl
@[simp] theorem State.redrawOut_palOut (s : State) :
    s.redrawOut.palOut = s.palOut := rfl
@[simp] theorem State.redrawOut_cachePal (s : State) :
    s.redrawOut.cachePal = s.cachePal := rfl
@[simp] theorem State.redrawOut_src (s : State) :
    s.redrawOut.src = s.src := rfl
@[simp] theorem State.redrawOut_alpha (s : State) :
    s.redrawOut.alpha = s.alpha := rfl
@[simp] theorem State.redrawOut_color (s : State) :
    s.redrawOut.color = s.color := rfl
@[simp] theorem State.redrawOut_out (s : State) :
    s.redrawOut.out = Window.unspecified s.draws := rfl
@[simp] theorem State.redrawOut_work (s : State) :
    s.redrawOut.work = s.work := rfl
@[simp] theorem State.redrawOut_draws (s : State) :
    s.redrawOut.draws = s.draws + 1 := rfl
@[simp] theorem State.redrawOut_host (s : State) :
    s.redrawOut.host = s.host := rfl
@[simp] theorem State.redrawOut_hostData (s : State) :
    s.redrawOut.hostData = s.hostData := rfl

/-! ### redrawColor -/

@[simp] theorem State.redrawColor_cmdLatch (s : State) :
    s.redrawColor.cmdLatch = s.cmdLatch := rfl
@[simp] theorem State.redrawColor_status (s : State) :
    s.redrawColor.status = s.status := rfl
@[simp] theorem State.redrawColor_width (s : State) :
    s.redrawColor.width = s.width := rfl
@[simp] theorem State.redrawColor_height (s : State) :
    s.redrawColor.height = s.height := rfl
@[simp] theorem State.redrawColor_maxW (s : State) :
    s.redrawColor.maxW = s.maxW := rfl
@[simp] theorem State.redrawColor_maxH (s : State) :
    s.redrawColor.maxH = s.maxH := rfl
@[simp] theorem State.redrawColor_args (s : State) :
    s.redrawColor.args = s.args := rfl
@[simp] theorem State.redrawColor_rgnOx (s : State) :
    s.redrawColor.rgnOx = s.rgnOx := rfl
@[simp] theorem State.redrawColor_rgnOy (s : State) :
    s.redrawColor.rgnOy = s.rgnOy := rfl
@[simp] theorem State.redrawColor_rgnW (s : State) :
    s.redrawColor.rgnW = s.rgnW := rfl
@[simp] theorem State.redrawColor_rgnH (s : State) :
    s.redrawColor.rgnH = s.rgnH := rfl
@[simp] theorem State.redrawColor_res0 (s : State) :
    s.redrawColor.res0 = s.res0 := rfl
@[simp] theorem State.redrawColor_res1 (s : State) :
    s.redrawColor.res1 = s.res1 := rfl
@[simp] theorem State.redrawColor_palIn (s : State) :
    s.redrawColor.palIn = s.palIn := rfl
@[simp] theorem State.redrawColor_template (s : State) :
    s.redrawColor.template = s.template := rfl
@[simp] theorem State.redrawColor_palOut (s : State) :
    s.redrawColor.palOut = s.palOut := rfl
@[simp] theorem State.redrawColor_cachePal (s : State) :
    s.redrawColor.cachePal = s.cachePal := rfl
@[simp] theorem State.redrawColor_src (s : State) :
    s.redrawColor.src = s.src := rfl
@[simp] theorem State.redrawColor_alpha (s : State) :
    s.redrawColor.alpha = s.alpha := rfl
@[simp] theorem State.redrawColor_color (s : State) :
    s.redrawColor.color = Window.unspecified s.draws := rfl
@[simp] theorem State.redrawColor_out (s : State) :
    s.redrawColor.out = s.out := rfl
@[simp] theorem State.redrawColor_work (s : State) :
    s.redrawColor.work = s.work := rfl
@[simp] theorem State.redrawColor_draws (s : State) :
    s.redrawColor.draws = s.draws + 1 := rfl
@[simp] theorem State.redrawColor_host (s : State) :
    s.redrawColor.host = s.host := rfl
@[simp] theorem State.redrawColor_hostData (s : State) :
    s.redrawColor.hostData = s.hostData := rfl

/-! ### alphaSet -/

@[simp] theorem State.alphaSet_cmdLatch (s : State) (x y : Nat) (b : Bool) :
    (s.alphaSet x y b).cmdLatch = s.cmdLatch := rfl
@[simp] theorem State.alphaSet_status (s : State) (x y : Nat) (b : Bool) :
    (s.alphaSet x y b).status = s.status := rfl
@[simp] theorem State.alphaSet_width (s : State) (x y : Nat) (b : Bool) :
    (s.alphaSet x y b).width = s.width := rfl
@[simp] theorem State.alphaSet_height (s : State) (x y : Nat) (b : Bool) :
    (s.alphaSet x y b).height = s.height := rfl
@[simp] theorem State.alphaSet_maxW (s : State) (x y : Nat) (b : Bool) :
    (s.alphaSet x y b).maxW = s.maxW := rfl
@[simp] theorem State.alphaSet_maxH (s : State) (x y : Nat) (b : Bool) :
    (s.alphaSet x y b).maxH = s.maxH := rfl
@[simp] theorem State.alphaSet_args (s : State) (x y : Nat) (b : Bool) :
    (s.alphaSet x y b).args = s.args := rfl
@[simp] theorem State.alphaSet_rgnOx (s : State) (x y : Nat) (b : Bool) :
    (s.alphaSet x y b).rgnOx = s.rgnOx := rfl
@[simp] theorem State.alphaSet_rgnOy (s : State) (x y : Nat) (b : Bool) :
    (s.alphaSet x y b).rgnOy = s.rgnOy := rfl
@[simp] theorem State.alphaSet_rgnW (s : State) (x y : Nat) (b : Bool) :
    (s.alphaSet x y b).rgnW = s.rgnW := rfl
@[simp] theorem State.alphaSet_rgnH (s : State) (x y : Nat) (b : Bool) :
    (s.alphaSet x y b).rgnH = s.rgnH := rfl
@[simp] theorem State.alphaSet_res0 (s : State) (x y : Nat) (b : Bool) :
    (s.alphaSet x y b).res0 = s.res0 := rfl
@[simp] theorem State.alphaSet_res1 (s : State) (x y : Nat) (b : Bool) :
    (s.alphaSet x y b).res1 = s.res1 := rfl
@[simp] theorem State.alphaSet_palIn (s : State) (x y : Nat) (b : Bool) :
    (s.alphaSet x y b).palIn = s.palIn := rfl
@[simp] theorem State.alphaSet_template (s : State) (x y : Nat) (b : Bool) :
    (s.alphaSet x y b).template = s.template := rfl
@[simp] theorem State.alphaSet_palOut (s : State) (x y : Nat) (b : Bool) :
    (s.alphaSet x y b).palOut = s.palOut := rfl
@[simp] theorem State.alphaSet_cachePal (s : State) (x y : Nat) (b : Bool) :
    (s.alphaSet x y b).cachePal = s.cachePal := rfl
@[simp] theorem State.alphaSet_src (s : State) (x y : Nat) (b : Bool) :
    (s.alphaSet x y b).src = s.src := rfl
@[simp] theorem State.alphaSet_alpha (s : State) (x y : Nat) (b : Bool) :
    (s.alphaSet x y b).alpha = s.alpha.write (s.alphaOffset x y) (setBit (s.alpha.byte (s.alphaOffset x y)) (x % 8) b) := rfl
@[simp] theorem State.alphaSet_color (s : State) (x y : Nat) (b : Bool) :
    (s.alphaSet x y b).color = s.color := rfl
@[simp] theorem State.alphaSet_out (s : State) (x y : Nat) (b : Bool) :
    (s.alphaSet x y b).out = s.out := rfl
@[simp] theorem State.alphaSet_work (s : State) (x y : Nat) (b : Bool) :
    (s.alphaSet x y b).work = s.work := rfl
@[simp] theorem State.alphaSet_draws (s : State) (x y : Nat) (b : Bool) :
    (s.alphaSet x y b).draws = s.draws := rfl
@[simp] theorem State.alphaSet_host (s : State) (x y : Nat) (b : Bool) :
    (s.alphaSet x y b).host = s.host := rfl
@[simp] theorem State.alphaSet_hostData (s : State) (x y : Nat) (b : Bool) :
    (s.alphaSet x y b).hostData = s.hostData := rfl

/-! ### nibSet -/

@[simp] theorem State.nibSet_cmdLatch (s : State) (x y : Nat) (c : SlotIx) :
    (s.nibSet x y c).cmdLatch = s.cmdLatch := rfl
@[simp] theorem State.nibSet_status (s : State) (x y : Nat) (c : SlotIx) :
    (s.nibSet x y c).status = s.status := rfl
@[simp] theorem State.nibSet_width (s : State) (x y : Nat) (c : SlotIx) :
    (s.nibSet x y c).width = s.width := rfl
@[simp] theorem State.nibSet_height (s : State) (x y : Nat) (c : SlotIx) :
    (s.nibSet x y c).height = s.height := rfl
@[simp] theorem State.nibSet_maxW (s : State) (x y : Nat) (c : SlotIx) :
    (s.nibSet x y c).maxW = s.maxW := rfl
@[simp] theorem State.nibSet_maxH (s : State) (x y : Nat) (c : SlotIx) :
    (s.nibSet x y c).maxH = s.maxH := rfl
@[simp] theorem State.nibSet_args (s : State) (x y : Nat) (c : SlotIx) :
    (s.nibSet x y c).args = s.args := rfl
@[simp] theorem State.nibSet_rgnOx (s : State) (x y : Nat) (c : SlotIx) :
    (s.nibSet x y c).rgnOx = s.rgnOx := rfl
@[simp] theorem State.nibSet_rgnOy (s : State) (x y : Nat) (c : SlotIx) :
    (s.nibSet x y c).rgnOy = s.rgnOy := rfl
@[simp] theorem State.nibSet_rgnW (s : State) (x y : Nat) (c : SlotIx) :
    (s.nibSet x y c).rgnW = s.rgnW := rfl
@[simp] theorem State.nibSet_rgnH (s : State) (x y : Nat) (c : SlotIx) :
    (s.nibSet x y c).rgnH = s.rgnH := rfl
@[simp] theorem State.nibSet_res0 (s : State) (x y : Nat) (c : SlotIx) :
    (s.nibSet x y c).res0 = s.res0 := rfl
@[simp] theorem State.nibSet_res1 (s : State) (x y : Nat) (c : SlotIx) :
    (s.nibSet x y c).res1 = s.res1 := rfl
@[simp] theorem State.nibSet_palIn (s : State) (x y : Nat) (c : SlotIx) :
    (s.nibSet x y c).palIn = s.palIn := rfl
@[simp] theorem State.nibSet_template (s : State) (x y : Nat) (c : SlotIx) :
    (s.nibSet x y c).template = s.template := rfl
@[simp] theorem State.nibSet_palOut (s : State) (x y : Nat) (c : SlotIx) :
    (s.nibSet x y c).palOut = s.palOut := rfl
@[simp] theorem State.nibSet_cachePal (s : State) (x y : Nat) (c : SlotIx) :
    (s.nibSet x y c).cachePal = s.cachePal := rfl
@[simp] theorem State.nibSet_src (s : State) (x y : Nat) (c : SlotIx) :
    (s.nibSet x y c).src = s.src := rfl
@[simp] theorem State.nibSet_alpha (s : State) (x y : Nat) (c : SlotIx) :
    (s.nibSet x y c).alpha = s.alpha := rfl
@[simp] theorem State.nibSet_color (s : State) (x y : Nat) (c : SlotIx) :
    (s.nibSet x y c).color = s.color.write (s.colorOffset x y) (setNibble (s.color.byte (s.colorOffset x y)) x c) := rfl
@[simp] theorem State.nibSet_out (s : State) (x y : Nat) (c : SlotIx) :
    (s.nibSet x y c).out = s.out := rfl
@[simp] theorem State.nibSet_work (s : State) (x y : Nat) (c : SlotIx) :
    (s.nibSet x y c).work = s.work := rfl
@[simp] theorem State.nibSet_draws (s : State) (x y : Nat) (c : SlotIx) :
    (s.nibSet x y c).draws = s.draws := rfl
@[simp] theorem State.nibSet_host (s : State) (x y : Nat) (c : SlotIx) :
    (s.nibSet x y c).host = s.host := rfl
@[simp] theorem State.nibSet_hostData (s : State) (x y : Nat) (c : SlotIx) :
    (s.nibSet x y c).hostData = s.hostData := rfl

/-! ### setPixel -/

@[simp] theorem State.setPixel_cmdLatch (s : State) (x y : Nat) (c : SlotIx) :
    (s.setPixel x y c).cmdLatch = s.cmdLatch := rfl
@[simp] theorem State.setPixel_status (s : State) (x y : Nat) (c : SlotIx) :
    (s.setPixel x y c).status = s.status := rfl
@[simp] theorem State.setPixel_width (s : State) (x y : Nat) (c : SlotIx) :
    (s.setPixel x y c).width = s.width := rfl
@[simp] theorem State.setPixel_height (s : State) (x y : Nat) (c : SlotIx) :
    (s.setPixel x y c).height = s.height := rfl
@[simp] theorem State.setPixel_maxW (s : State) (x y : Nat) (c : SlotIx) :
    (s.setPixel x y c).maxW = s.maxW := rfl
@[simp] theorem State.setPixel_maxH (s : State) (x y : Nat) (c : SlotIx) :
    (s.setPixel x y c).maxH = s.maxH := rfl
@[simp] theorem State.setPixel_args (s : State) (x y : Nat) (c : SlotIx) :
    (s.setPixel x y c).args = s.args := rfl
@[simp] theorem State.setPixel_rgnOx (s : State) (x y : Nat) (c : SlotIx) :
    (s.setPixel x y c).rgnOx = s.rgnOx := rfl
@[simp] theorem State.setPixel_rgnOy (s : State) (x y : Nat) (c : SlotIx) :
    (s.setPixel x y c).rgnOy = s.rgnOy := rfl
@[simp] theorem State.setPixel_rgnW (s : State) (x y : Nat) (c : SlotIx) :
    (s.setPixel x y c).rgnW = s.rgnW := rfl
@[simp] theorem State.setPixel_rgnH (s : State) (x y : Nat) (c : SlotIx) :
    (s.setPixel x y c).rgnH = s.rgnH := rfl
@[simp] theorem State.setPixel_res0 (s : State) (x y : Nat) (c : SlotIx) :
    (s.setPixel x y c).res0 = s.res0 := rfl
@[simp] theorem State.setPixel_res1 (s : State) (x y : Nat) (c : SlotIx) :
    (s.setPixel x y c).res1 = s.res1 := rfl
@[simp] theorem State.setPixel_palIn (s : State) (x y : Nat) (c : SlotIx) :
    (s.setPixel x y c).palIn = s.palIn := rfl
@[simp] theorem State.setPixel_template (s : State) (x y : Nat) (c : SlotIx) :
    (s.setPixel x y c).template = s.template := rfl
@[simp] theorem State.setPixel_palOut (s : State) (x y : Nat) (c : SlotIx) :
    (s.setPixel x y c).palOut = s.palOut := rfl
@[simp] theorem State.setPixel_cachePal (s : State) (x y : Nat) (c : SlotIx) :
    (s.setPixel x y c).cachePal = s.cachePal := rfl
@[simp] theorem State.setPixel_src (s : State) (x y : Nat) (c : SlotIx) :
    (s.setPixel x y c).src = s.src := rfl
@[simp] theorem State.setPixel_alpha (s : State) (x y : Nat) (c : SlotIx) :
    (s.setPixel x y c).alpha = (s.alphaSet x y true).alpha := rfl
@[simp] theorem State.setPixel_color (s : State) (x y : Nat) (c : SlotIx) :
    (s.setPixel x y c).color = (s.nibSet x y c).color := rfl
@[simp] theorem State.setPixel_out (s : State) (x y : Nat) (c : SlotIx) :
    (s.setPixel x y c).out = s.out := rfl
@[simp] theorem State.setPixel_work (s : State) (x y : Nat) (c : SlotIx) :
    (s.setPixel x y c).work = s.work := rfl
@[simp] theorem State.setPixel_draws (s : State) (x y : Nat) (c : SlotIx) :
    (s.setPixel x y c).draws = s.draws := rfl
@[simp] theorem State.setPixel_host (s : State) (x y : Nat) (c : SlotIx) :
    (s.setPixel x y c).host = s.host := rfl
@[simp] theorem State.setPixel_hostData (s : State) (x y : Nat) (c : SlotIx) :
    (s.setPixel x y c).hostData = s.hostData := rfl

/-! ### createBitmap -/

@[simp] theorem State.createBitmap_cmdLatch (s : State) (w h : Word) :
    (s.createBitmap w h).cmdLatch = s.cmdLatch := rfl
@[simp] theorem State.createBitmap_status (s : State) (w h : Word) :
    (s.createBitmap w h).status = { s.status with dirty := true } := rfl
@[simp] theorem State.createBitmap_width (s : State) (w h : Word) :
    (s.createBitmap w h).width = w := rfl
@[simp] theorem State.createBitmap_height (s : State) (w h : Word) :
    (s.createBitmap w h).height = h := rfl
@[simp] theorem State.createBitmap_maxW (s : State) (w h : Word) :
    (s.createBitmap w h).maxW = s.maxW := rfl
@[simp] theorem State.createBitmap_maxH (s : State) (w h : Word) :
    (s.createBitmap w h).maxH = s.maxH := rfl
@[simp] theorem State.createBitmap_args (s : State) (w h : Word) :
    (s.createBitmap w h).args = s.args := rfl
@[simp] theorem State.createBitmap_rgnOx (s : State) (w h : Word) :
    (s.createBitmap w h).rgnOx = s.rgnOx := rfl
@[simp] theorem State.createBitmap_rgnOy (s : State) (w h : Word) :
    (s.createBitmap w h).rgnOy = s.rgnOy := rfl
@[simp] theorem State.createBitmap_rgnW (s : State) (w h : Word) :
    (s.createBitmap w h).rgnW = s.rgnW := rfl
@[simp] theorem State.createBitmap_rgnH (s : State) (w h : Word) :
    (s.createBitmap w h).rgnH = s.rgnH := rfl
@[simp] theorem State.createBitmap_res0 (s : State) (w h : Word) :
    (s.createBitmap w h).res0 = s.res0 := rfl
@[simp] theorem State.createBitmap_res1 (s : State) (w h : Word) :
    (s.createBitmap w h).res1 = s.res1 := rfl
@[simp] theorem State.createBitmap_palIn (s : State) (w h : Word) :
    (s.createBitmap w h).palIn = s.palIn := rfl
@[simp] theorem State.createBitmap_template (s : State) (w h : Word) :
    (s.createBitmap w h).template = s.template := rfl
@[simp] theorem State.createBitmap_palOut (s : State) (w h : Word) :
    (s.createBitmap w h).palOut = s.palOut := rfl
@[simp] theorem State.createBitmap_cachePal (s : State) (w h : Word) :
    (s.createBitmap w h).cachePal = s.cachePal := rfl
@[simp] theorem State.createBitmap_src (s : State) (w h : Word) :
    (s.createBitmap w h).src = s.src := rfl
@[simp] theorem State.createBitmap_alpha (s : State) (w h : Word) :
    (s.createBitmap w h).alpha = s.alpha.fill (h.toNat * alphaRowBytes w.toNat) 0 := rfl
@[simp] theorem State.createBitmap_color (s : State) (w h : Word) :
    (s.createBitmap w h).color = s.color.fill (h.toNat * colorRowBytes w.toNat) 0 := rfl
@[simp] theorem State.createBitmap_out (s : State) (w h : Word) :
    (s.createBitmap w h).out = Window.unspecified s.draws := rfl
@[simp] theorem State.createBitmap_work (s : State) (w h : Word) :
    (s.createBitmap w h).work = s.work := rfl
@[simp] theorem State.createBitmap_draws (s : State) (w h : Word) :
    (s.createBitmap w h).draws = s.draws + 1 := rfl
@[simp] theorem State.createBitmap_host (s : State) (w h : Word) :
    (s.createBitmap w h).host = s.host := rfl
@[simp] theorem State.createBitmap_hostData (s : State) (w h : Word) :
    (s.createBitmap w h).hostData = s.hostData := rfl

/-! ### resizeBitmap -/

@[simp] theorem State.resizeBitmap_cmdLatch (s : State) (w h : Word) :
    (s.resizeBitmap w h).cmdLatch = s.cmdLatch := rfl
@[simp] theorem State.resizeBitmap_status (s : State) (w h : Word) :
    (s.resizeBitmap w h).status = { s.status with dirty := true } := rfl
@[simp] theorem State.resizeBitmap_width (s : State) (w h : Word) :
    (s.resizeBitmap w h).width = w := rfl
@[simp] theorem State.resizeBitmap_height (s : State) (w h : Word) :
    (s.resizeBitmap w h).height = h := rfl
@[simp] theorem State.resizeBitmap_maxW (s : State) (w h : Word) :
    (s.resizeBitmap w h).maxW = s.maxW := rfl
@[simp] theorem State.resizeBitmap_maxH (s : State) (w h : Word) :
    (s.resizeBitmap w h).maxH = s.maxH := rfl
@[simp] theorem State.resizeBitmap_args (s : State) (w h : Word) :
    (s.resizeBitmap w h).args = s.args := rfl
@[simp] theorem State.resizeBitmap_rgnOx (s : State) (w h : Word) :
    (s.resizeBitmap w h).rgnOx = s.rgnOx := rfl
@[simp] theorem State.resizeBitmap_rgnOy (s : State) (w h : Word) :
    (s.resizeBitmap w h).rgnOy = s.rgnOy := rfl
@[simp] theorem State.resizeBitmap_rgnW (s : State) (w h : Word) :
    (s.resizeBitmap w h).rgnW = s.rgnW := rfl
@[simp] theorem State.resizeBitmap_rgnH (s : State) (w h : Word) :
    (s.resizeBitmap w h).rgnH = s.rgnH := rfl
@[simp] theorem State.resizeBitmap_res0 (s : State) (w h : Word) :
    (s.resizeBitmap w h).res0 = s.res0 := rfl
@[simp] theorem State.resizeBitmap_res1 (s : State) (w h : Word) :
    (s.resizeBitmap w h).res1 = s.res1 := rfl
@[simp] theorem State.resizeBitmap_palIn (s : State) (w h : Word) :
    (s.resizeBitmap w h).palIn = s.palIn := rfl
@[simp] theorem State.resizeBitmap_template (s : State) (w h : Word) :
    (s.resizeBitmap w h).template = s.template := rfl
@[simp] theorem State.resizeBitmap_palOut (s : State) (w h : Word) :
    (s.resizeBitmap w h).palOut = s.palOut := rfl
@[simp] theorem State.resizeBitmap_cachePal (s : State) (w h : Word) :
    (s.resizeBitmap w h).cachePal = s.cachePal := rfl
@[simp] theorem State.resizeBitmap_src (s : State) (w h : Word) :
    (s.resizeBitmap w h).src = s.src := rfl
@[simp] theorem State.resizeBitmap_alpha (s : State) (w h : Word) :
    (s.resizeBitmap w h).alpha = s.alpha.fill (h.toNat * alphaRowBytes w.toNat) 0 := rfl
@[simp] theorem State.resizeBitmap_color (s : State) (w h : Word) :
    (s.resizeBitmap w h).color = Window.unspecified s.draws := rfl
@[simp] theorem State.resizeBitmap_out (s : State) (w h : Word) :
    (s.resizeBitmap w h).out = Window.unspecified (s.draws + 1) := rfl
@[simp] theorem State.resizeBitmap_work (s : State) (w h : Word) :
    (s.resizeBitmap w h).work = s.work := rfl
@[simp] theorem State.resizeBitmap_draws (s : State) (w h : Word) :
    (s.resizeBitmap w h).draws = s.draws + 2 := rfl
@[simp] theorem State.resizeBitmap_host (s : State) (w h : Word) :
    (s.resizeBitmap w h).host = s.host := rfl
@[simp] theorem State.resizeBitmap_hostData (s : State) (w h : Word) :
    (s.resizeBitmap w h).hostData = s.hostData := rfl

/-! ### clearFull -/

@[simp] theorem State.clearFull_cmdLatch (s : State) (c : SlotIx) :
    (s.clearFull c).cmdLatch = s.cmdLatch := rfl
@[simp] theorem State.clearFull_status (s : State) (c : SlotIx) :
    (s.clearFull c).status = { s.status with dirty := true } := rfl
@[simp] theorem State.clearFull_width (s : State) (c : SlotIx) :
    (s.clearFull c).width = s.width := rfl
@[simp] theorem State.clearFull_height (s : State) (c : SlotIx) :
    (s.clearFull c).height = s.height := rfl
@[simp] theorem State.clearFull_maxW (s : State) (c : SlotIx) :
    (s.clearFull c).maxW = s.maxW := rfl
@[simp] theorem State.clearFull_maxH (s : State) (c : SlotIx) :
    (s.clearFull c).maxH = s.maxH := rfl
@[simp] theorem State.clearFull_args (s : State) (c : SlotIx) :
    (s.clearFull c).args = s.args := rfl
@[simp] theorem State.clearFull_rgnOx (s : State) (c : SlotIx) :
    (s.clearFull c).rgnOx = s.rgnOx := rfl
@[simp] theorem State.clearFull_rgnOy (s : State) (c : SlotIx) :
    (s.clearFull c).rgnOy = s.rgnOy := rfl
@[simp] theorem State.clearFull_rgnW (s : State) (c : SlotIx) :
    (s.clearFull c).rgnW = s.rgnW := rfl
@[simp] theorem State.clearFull_rgnH (s : State) (c : SlotIx) :
    (s.clearFull c).rgnH = s.rgnH := rfl
@[simp] theorem State.clearFull_res0 (s : State) (c : SlotIx) :
    (s.clearFull c).res0 = s.res0 := rfl
@[simp] theorem State.clearFull_res1 (s : State) (c : SlotIx) :
    (s.clearFull c).res1 = s.res1 := rfl
@[simp] theorem State.clearFull_palIn (s : State) (c : SlotIx) :
    (s.clearFull c).palIn = s.palIn := rfl
@[simp] theorem State.clearFull_template (s : State) (c : SlotIx) :
    (s.clearFull c).template = s.template := rfl
@[simp] theorem State.clearFull_palOut (s : State) (c : SlotIx) :
    (s.clearFull c).palOut = s.palOut := rfl
@[simp] theorem State.clearFull_cachePal (s : State) (c : SlotIx) :
    (s.clearFull c).cachePal = s.cachePal := rfl
@[simp] theorem State.clearFull_src (s : State) (c : SlotIx) :
    (s.clearFull c).src = s.src := rfl
@[simp] theorem State.clearFull_alpha (s : State) (c : SlotIx) :
    (s.clearFull c).alpha = s.alpha.fill s.alphaSize 0xFF := rfl
@[simp] theorem State.clearFull_color (s : State) (c : SlotIx) :
    (s.clearFull c).color = s.color.fill s.colorSize (c ++ c) := rfl
@[simp] theorem State.clearFull_out (s : State) (c : SlotIx) :
    (s.clearFull c).out = s.out := rfl
@[simp] theorem State.clearFull_work (s : State) (c : SlotIx) :
    (s.clearFull c).work = s.work := rfl
@[simp] theorem State.clearFull_draws (s : State) (c : SlotIx) :
    (s.clearFull c).draws = s.draws := rfl
@[simp] theorem State.clearFull_host (s : State) (c : SlotIx) :
    (s.clearFull c).host = s.host := rfl
@[simp] theorem State.clearFull_hostData (s : State) (c : SlotIx) :
    (s.clearFull c).hostData = s.hostData := rfl

/-! ### recompute -/

@[simp] theorem State.recompute_cmdLatch (s : State) :
    s.recompute.cmdLatch = s.cmdLatch := rfl
@[simp] theorem State.recompute_status (s : State) :
    s.recompute.status = { s.status with dirty := false } := rfl
@[simp] theorem State.recompute_width (s : State) :
    s.recompute.width = s.width := rfl
@[simp] theorem State.recompute_height (s : State) :
    s.recompute.height = s.height := rfl
@[simp] theorem State.recompute_maxW (s : State) :
    s.recompute.maxW = s.maxW := rfl
@[simp] theorem State.recompute_maxH (s : State) :
    s.recompute.maxH = s.maxH := rfl
@[simp] theorem State.recompute_args (s : State) :
    s.recompute.args = s.args := rfl
@[simp] theorem State.recompute_rgnOx (s : State) :
    s.recompute.rgnOx = s.rgnOx := rfl
@[simp] theorem State.recompute_rgnOy (s : State) :
    s.recompute.rgnOy = s.rgnOy := rfl
@[simp] theorem State.recompute_rgnW (s : State) :
    s.recompute.rgnW = s.rgnW := rfl
@[simp] theorem State.recompute_rgnH (s : State) :
    s.recompute.rgnH = s.rgnH := rfl
@[simp] theorem State.recompute_res0 (s : State) :
    s.recompute.res0 = s.res0 := rfl
@[simp] theorem State.recompute_res1 (s : State) :
    s.recompute.res1 = s.res1 := rfl
@[simp] theorem State.recompute_palIn (s : State) :
    s.recompute.palIn = s.palIn := rfl
@[simp] theorem State.recompute_template (s : State) :
    s.recompute.template = s.template := rfl
@[simp] theorem State.recompute_palOut (s : State) :
    s.recompute.palOut = s.palOut := rfl
@[simp] theorem State.recompute_cachePal (s : State) :
    s.recompute.cachePal = s.palIn := rfl
@[simp] theorem State.recompute_src (s : State) :
    s.recompute.src = s.src := rfl
@[simp] theorem State.recompute_alpha (s : State) :
    s.recompute.alpha = s.alpha := rfl
@[simp] theorem State.recompute_color (s : State) :
    s.recompute.color = s.color := rfl
@[simp] theorem State.recompute_out (s : State) :
    s.recompute.out = { s.out with cells := s.decodeImage s.palIn } := rfl
@[simp] theorem State.recompute_work (s : State) :
    s.recompute.work = s.work := rfl
@[simp] theorem State.recompute_draws (s : State) :
    s.recompute.draws = s.draws := rfl
@[simp] theorem State.recompute_host (s : State) :
    s.recompute.host = s.host := rfl
@[simp] theorem State.recompute_hostData (s : State) :
    s.recompute.hostData = s.hostData := rfl

/-! ### returnToHost -/

@[simp] theorem State.returnToHost_cmdLatch (s : State) (v : Word) :
    (s.returnToHost v).cmdLatch = s.cmdLatch := rfl
@[simp] theorem State.returnToHost_status (s : State) (v : Word) :
    (s.returnToHost v).status = s.status := rfl
@[simp] theorem State.returnToHost_width (s : State) (v : Word) :
    (s.returnToHost v).width = s.width := rfl
@[simp] theorem State.returnToHost_height (s : State) (v : Word) :
    (s.returnToHost v).height = s.height := rfl
@[simp] theorem State.returnToHost_maxW (s : State) (v : Word) :
    (s.returnToHost v).maxW = s.maxW := rfl
@[simp] theorem State.returnToHost_maxH (s : State) (v : Word) :
    (s.returnToHost v).maxH = s.maxH := rfl
@[simp] theorem State.returnToHost_args (s : State) (v : Word) :
    (s.returnToHost v).args = s.args := rfl
@[simp] theorem State.returnToHost_rgnOx (s : State) (v : Word) :
    (s.returnToHost v).rgnOx = s.rgnOx := rfl
@[simp] theorem State.returnToHost_rgnOy (s : State) (v : Word) :
    (s.returnToHost v).rgnOy = s.rgnOy := rfl
@[simp] theorem State.returnToHost_rgnW (s : State) (v : Word) :
    (s.returnToHost v).rgnW = s.rgnW := rfl
@[simp] theorem State.returnToHost_rgnH (s : State) (v : Word) :
    (s.returnToHost v).rgnH = s.rgnH := rfl
@[simp] theorem State.returnToHost_res0 (s : State) (v : Word) :
    (s.returnToHost v).res0 = s.res0 := rfl
@[simp] theorem State.returnToHost_res1 (s : State) (v : Word) :
    (s.returnToHost v).res1 = s.res1 := rfl
@[simp] theorem State.returnToHost_palIn (s : State) (v : Word) :
    (s.returnToHost v).palIn = s.palIn := rfl
@[simp] theorem State.returnToHost_template (s : State) (v : Word) :
    (s.returnToHost v).template = s.template := rfl
@[simp] theorem State.returnToHost_palOut (s : State) (v : Word) :
    (s.returnToHost v).palOut = s.palOut := rfl
@[simp] theorem State.returnToHost_cachePal (s : State) (v : Word) :
    (s.returnToHost v).cachePal = s.cachePal := rfl
@[simp] theorem State.returnToHost_src (s : State) (v : Word) :
    (s.returnToHost v).src = s.src := rfl
@[simp] theorem State.returnToHost_alpha (s : State) (v : Word) :
    (s.returnToHost v).alpha = s.alpha := rfl
@[simp] theorem State.returnToHost_color (s : State) (v : Word) :
    (s.returnToHost v).color = s.color := rfl
@[simp] theorem State.returnToHost_out (s : State) (v : Word) :
    (s.returnToHost v).out = s.out := rfl
@[simp] theorem State.returnToHost_work (s : State) (v : Word) :
    (s.returnToHost v).work = s.work := rfl
@[simp] theorem State.returnToHost_draws (s : State) (v : Word) :
    (s.returnToHost v).draws = s.draws := rfl
@[simp] theorem State.returnToHost_host (s : State) (v : Word) :
    (s.returnToHost v).host = s.host := rfl
@[simp] theorem State.returnToHost_hostData (s : State) (v : Word) :
    (s.returnToHost v).hostData = v := rfl

/-! ### writeSrc -/

@[simp] theorem State.writeSrc_cmdLatch (s : State) (a : Nat) (v : Byte) :
    (s.writeSrc a v).cmdLatch = s.cmdLatch := rfl
@[simp] theorem State.writeSrc_status (s : State) (a : Nat) (v : Byte) :
    (s.writeSrc a v).status = s.status := rfl
@[simp] theorem State.writeSrc_width (s : State) (a : Nat) (v : Byte) :
    (s.writeSrc a v).width = s.width := rfl
@[simp] theorem State.writeSrc_height (s : State) (a : Nat) (v : Byte) :
    (s.writeSrc a v).height = s.height := rfl
@[simp] theorem State.writeSrc_maxW (s : State) (a : Nat) (v : Byte) :
    (s.writeSrc a v).maxW = s.maxW := rfl
@[simp] theorem State.writeSrc_maxH (s : State) (a : Nat) (v : Byte) :
    (s.writeSrc a v).maxH = s.maxH := rfl
@[simp] theorem State.writeSrc_args (s : State) (a : Nat) (v : Byte) :
    (s.writeSrc a v).args = s.args := rfl
@[simp] theorem State.writeSrc_rgnOx (s : State) (a : Nat) (v : Byte) :
    (s.writeSrc a v).rgnOx = s.rgnOx := rfl
@[simp] theorem State.writeSrc_rgnOy (s : State) (a : Nat) (v : Byte) :
    (s.writeSrc a v).rgnOy = s.rgnOy := rfl
@[simp] theorem State.writeSrc_rgnW (s : State) (a : Nat) (v : Byte) :
    (s.writeSrc a v).rgnW = s.rgnW := rfl
@[simp] theorem State.writeSrc_rgnH (s : State) (a : Nat) (v : Byte) :
    (s.writeSrc a v).rgnH = s.rgnH := rfl
@[simp] theorem State.writeSrc_res0 (s : State) (a : Nat) (v : Byte) :
    (s.writeSrc a v).res0 = s.res0 := rfl
@[simp] theorem State.writeSrc_res1 (s : State) (a : Nat) (v : Byte) :
    (s.writeSrc a v).res1 = s.res1 := rfl
@[simp] theorem State.writeSrc_palIn (s : State) (a : Nat) (v : Byte) :
    (s.writeSrc a v).palIn = s.palIn := rfl
@[simp] theorem State.writeSrc_template (s : State) (a : Nat) (v : Byte) :
    (s.writeSrc a v).template = s.template := rfl
@[simp] theorem State.writeSrc_palOut (s : State) (a : Nat) (v : Byte) :
    (s.writeSrc a v).palOut = s.palOut := rfl
@[simp] theorem State.writeSrc_cachePal (s : State) (a : Nat) (v : Byte) :
    (s.writeSrc a v).cachePal = s.cachePal := rfl
@[simp] theorem State.writeSrc_src (s : State) (a : Nat) (v : Byte) :
    (s.writeSrc a v).src = if a < s.srcSize then s.src.write a v else s.src := rfl
@[simp] theorem State.writeSrc_alpha (s : State) (a : Nat) (v : Byte) :
    (s.writeSrc a v).alpha = s.alpha := rfl
@[simp] theorem State.writeSrc_color (s : State) (a : Nat) (v : Byte) :
    (s.writeSrc a v).color = s.color := rfl
@[simp] theorem State.writeSrc_out (s : State) (a : Nat) (v : Byte) :
    (s.writeSrc a v).out = s.out := rfl
@[simp] theorem State.writeSrc_work (s : State) (a : Nat) (v : Byte) :
    (s.writeSrc a v).work = s.work := rfl
@[simp] theorem State.writeSrc_draws (s : State) (a : Nat) (v : Byte) :
    (s.writeSrc a v).draws = s.draws := rfl
@[simp] theorem State.writeSrc_host (s : State) (a : Nat) (v : Byte) :
    (s.writeSrc a v).host = s.host := rfl
@[simp] theorem State.writeSrc_hostData (s : State) (a : Nat) (v : Byte) :
    (s.writeSrc a v).hostData = s.hostData := rfl

/-! ### writeCmd -/

@[simp] theorem State.writeCmd_width (s : State) (v : Word) :
    (s.writeCmd v).width = s.width := by
  unfold State.writeCmd; split_ifs <;> rfl
@[simp] theorem State.writeCmd_height (s : State) (v : Word) :
    (s.writeCmd v).height = s.height := by
  unfold State.writeCmd; split_ifs <;> rfl
@[simp] theorem State.writeCmd_maxW (s : State) (v : Word) :
    (s.writeCmd v).maxW = s.maxW := by
  unfold State.writeCmd; split_ifs <;> rfl
@[simp] theorem State.writeCmd_maxH (s : State) (v : Word) :
    (s.writeCmd v).maxH = s.maxH := by
  unfold State.writeCmd; split_ifs <;> rfl
@[simp] theorem State.writeCmd_args (s : State) (v : Word) :
    (s.writeCmd v).args = s.args := by
  unfold State.writeCmd; split_ifs <;> rfl
@[simp] theorem State.writeCmd_rgnOx (s : State) (v : Word) :
    (s.writeCmd v).rgnOx = s.rgnOx := by
  unfold State.writeCmd; split_ifs <;> rfl
@[simp] theorem State.writeCmd_rgnOy (s : State) (v : Word) :
    (s.writeCmd v).rgnOy = s.rgnOy := by
  unfold State.writeCmd; split_ifs <;> rfl
@[simp] theorem State.writeCmd_rgnW (s : State) (v : Word) :
    (s.writeCmd v).rgnW = s.rgnW := by
  unfold State.writeCmd; split_ifs <;> rfl
@[simp] theorem State.writeCmd_rgnH (s : State) (v : Word) :
    (s.writeCmd v).rgnH = s.rgnH := by
  unfold State.writeCmd; split_ifs <;> rfl
@[simp] theorem State.writeCmd_res0 (s : State) (v : Word) :
    (s.writeCmd v).res0 = s.res0 := by
  unfold State.writeCmd; split_ifs <;> rfl
@[simp] theorem State.writeCmd_res1 (s : State) (v : Word) :
    (s.writeCmd v).res1 = s.res1 := by
  unfold State.writeCmd; split_ifs <;> rfl
@[simp] theorem State.writeCmd_palIn (s : State) (v : Word) :
    (s.writeCmd v).palIn = s.palIn := by
  unfold State.writeCmd; split_ifs <;> rfl
@[simp] theorem State.writeCmd_template (s : State) (v : Word) :
    (s.writeCmd v).template = s.template := by
  unfold State.writeCmd; split_ifs <;> rfl
@[simp] theorem State.writeCmd_palOut (s : State) (v : Word) :
    (s.writeCmd v).palOut = s.palOut := by
  unfold State.writeCmd; split_ifs <;> rfl
@[simp] theorem State.writeCmd_cachePal (s : State) (v : Word) :
    (s.writeCmd v).cachePal = s.cachePal := by
  unfold State.writeCmd; split_ifs <;> rfl
@[simp] theorem State.writeCmd_src (s : State) (v : Word) :
    (s.writeCmd v).src = s.src := by
  unfold State.writeCmd; split_ifs <;> rfl
@[simp] theorem State.writeCmd_alpha (s : State) (v : Word) :
    (s.writeCmd v).alpha = s.alpha := by
  unfold State.writeCmd; split_ifs <;> rfl
@[simp] theorem State.writeCmd_color (s : State) (v : Word) :
    (s.writeCmd v).color = s.color := by
  unfold State.writeCmd; split_ifs <;> rfl
@[simp] theorem State.writeCmd_out (s : State) (v : Word) :
    (s.writeCmd v).out = s.out := by
  unfold State.writeCmd; split_ifs <;> rfl
@[simp] theorem State.writeCmd_work (s : State) (v : Word) :
    (s.writeCmd v).work = s.work := by
  unfold State.writeCmd; split_ifs <;> rfl
@[simp] theorem State.writeCmd_draws (s : State) (v : Word) :
    (s.writeCmd v).draws = s.draws := by
  unfold State.writeCmd; split_ifs <;> rfl
@[simp] theorem State.writeCmd_host (s : State) (v : Word) :
    (s.writeCmd v).host = s.host := by
  unfold State.writeCmd; split_ifs <;> rfl
@[simp] theorem State.writeCmd_hostData (s : State) (v : Word) :
    (s.writeCmd v).hostData = s.hostData := by
  unfold State.writeCmd; split_ifs <;> rfl

/-! ### countHostDraw -/

@[simp] theorem State.countHostDraw_cmdLatch (s : State) (sp : Space) (a n : Nat) :
    (s.countHostDraw sp a n).cmdLatch = s.cmdLatch := by
  unfold State.countHostDraw; split_ifs <;> rfl
@[simp] theorem State.countHostDraw_status (s : State) (sp : Space) (a n : Nat) :
    (s.countHostDraw sp a n).status = s.status := by
  unfold State.countHostDraw; split_ifs <;> rfl
@[simp] theorem State.countHostDraw_width (s : State) (sp : Space) (a n : Nat) :
    (s.countHostDraw sp a n).width = s.width := by
  unfold State.countHostDraw; split_ifs <;> rfl
@[simp] theorem State.countHostDraw_height (s : State) (sp : Space) (a n : Nat) :
    (s.countHostDraw sp a n).height = s.height := by
  unfold State.countHostDraw; split_ifs <;> rfl
@[simp] theorem State.countHostDraw_maxW (s : State) (sp : Space) (a n : Nat) :
    (s.countHostDraw sp a n).maxW = s.maxW := by
  unfold State.countHostDraw; split_ifs <;> rfl
@[simp] theorem State.countHostDraw_maxH (s : State) (sp : Space) (a n : Nat) :
    (s.countHostDraw sp a n).maxH = s.maxH := by
  unfold State.countHostDraw; split_ifs <;> rfl
@[simp] theorem State.countHostDraw_args (s : State) (sp : Space) (a n : Nat) :
    (s.countHostDraw sp a n).args = s.args := by
  unfold State.countHostDraw; split_ifs <;> rfl
@[simp] theorem State.countHostDraw_rgnOx (s : State) (sp : Space) (a n : Nat) :
    (s.countHostDraw sp a n).rgnOx = s.rgnOx := by
  unfold State.countHostDraw; split_ifs <;> rfl
@[simp] theorem State.countHostDraw_rgnOy (s : State) (sp : Space) (a n : Nat) :
    (s.countHostDraw sp a n).rgnOy = s.rgnOy := by
  unfold State.countHostDraw; split_ifs <;> rfl
@[simp] theorem State.countHostDraw_rgnW (s : State) (sp : Space) (a n : Nat) :
    (s.countHostDraw sp a n).rgnW = s.rgnW := by
  unfold State.countHostDraw; split_ifs <;> rfl
@[simp] theorem State.countHostDraw_rgnH (s : State) (sp : Space) (a n : Nat) :
    (s.countHostDraw sp a n).rgnH = s.rgnH := by
  unfold State.countHostDraw; split_ifs <;> rfl
@[simp] theorem State.countHostDraw_res0 (s : State) (sp : Space) (a n : Nat) :
    (s.countHostDraw sp a n).res0 = s.res0 := by
  unfold State.countHostDraw; split_ifs <;> rfl
@[simp] theorem State.countHostDraw_res1 (s : State) (sp : Space) (a n : Nat) :
    (s.countHostDraw sp a n).res1 = s.res1 := by
  unfold State.countHostDraw; split_ifs <;> rfl
@[simp] theorem State.countHostDraw_palIn (s : State) (sp : Space) (a n : Nat) :
    (s.countHostDraw sp a n).palIn = s.palIn := by
  unfold State.countHostDraw; split_ifs <;> rfl
@[simp] theorem State.countHostDraw_template (s : State) (sp : Space) (a n : Nat) :
    (s.countHostDraw sp a n).template = s.template := by
  unfold State.countHostDraw; split_ifs <;> rfl
@[simp] theorem State.countHostDraw_palOut (s : State) (sp : Space) (a n : Nat) :
    (s.countHostDraw sp a n).palOut = s.palOut := by
  unfold State.countHostDraw; split_ifs <;> rfl
@[simp] theorem State.countHostDraw_cachePal (s : State) (sp : Space) (a n : Nat) :
    (s.countHostDraw sp a n).cachePal = s.cachePal := by
  unfold State.countHostDraw; split_ifs <;> rfl
@[simp] theorem State.countHostDraw_src (s : State) (sp : Space) (a n : Nat) :
    (s.countHostDraw sp a n).src = s.src := by
  unfold State.countHostDraw; split_ifs <;> rfl
@[simp] theorem State.countHostDraw_alpha (s : State) (sp : Space) (a n : Nat) :
    (s.countHostDraw sp a n).alpha = s.alpha := by
  unfold State.countHostDraw; split_ifs <;> rfl
@[simp] theorem State.countHostDraw_color (s : State) (sp : Space) (a n : Nat) :
    (s.countHostDraw sp a n).color = s.color := by
  unfold State.countHostDraw; split_ifs <;> rfl
@[simp] theorem State.countHostDraw_out (s : State) (sp : Space) (a n : Nat) :
    (s.countHostDraw sp a n).out = s.out := by
  unfold State.countHostDraw; split_ifs <;> rfl
@[simp] theorem State.countHostDraw_work (s : State) (sp : Space) (a n : Nat) :
    (s.countHostDraw sp a n).work = s.work := by
  unfold State.countHostDraw; split_ifs <;> rfl
@[simp] theorem State.countHostDraw_host (s : State) (sp : Space) (a n : Nat) :
    (s.countHostDraw sp a n).host = s.host := by
  unfold State.countHostDraw; split_ifs <;> rfl
@[simp] theorem State.countHostDraw_hostData (s : State) (sp : Space) (a n : Nat) :
    (s.countHostDraw sp a n).hostData = s.hostData := by
  unfold State.countHostDraw; split_ifs <;> rfl

/-! ### plot -/

@[simp] theorem State.plot_cmdLatch (r : Region) (c : SlotIx) (s : State) (p : Int × Int) :
    (State.plot r c s p).cmdLatch = s.cmdLatch := by
  unfold State.plot; split <;> rfl
@[simp] theorem State.plot_width (r : Region) (c : SlotIx) (s : State) (p : Int × Int) :
    (State.plot r c s p).width = s.width := by
  unfold State.plot; split <;> rfl
@[simp] theorem State.plot_height (r : Region) (c : SlotIx) (s : State) (p : Int × Int) :
    (State.plot r c s p).height = s.height := by
  unfold State.plot; split <;> rfl
@[simp] theorem State.plot_maxW (r : Region) (c : SlotIx) (s : State) (p : Int × Int) :
    (State.plot r c s p).maxW = s.maxW := by
  unfold State.plot; split <;> rfl
@[simp] theorem State.plot_maxH (r : Region) (c : SlotIx) (s : State) (p : Int × Int) :
    (State.plot r c s p).maxH = s.maxH := by
  unfold State.plot; split <;> rfl
@[simp] theorem State.plot_args (r : Region) (c : SlotIx) (s : State) (p : Int × Int) :
    (State.plot r c s p).args = s.args := by
  unfold State.plot; split <;> rfl
@[simp] theorem State.plot_rgnOx (r : Region) (c : SlotIx) (s : State) (p : Int × Int) :
    (State.plot r c s p).rgnOx = s.rgnOx := by
  unfold State.plot; split <;> rfl
@[simp] theorem State.plot_rgnOy (r : Region) (c : SlotIx) (s : State) (p : Int × Int) :
    (State.plot r c s p).rgnOy = s.rgnOy := by
  unfold State.plot; split <;> rfl
@[simp] theorem State.plot_rgnW (r : Region) (c : SlotIx) (s : State) (p : Int × Int) :
    (State.plot r c s p).rgnW = s.rgnW := by
  unfold State.plot; split <;> rfl
@[simp] theorem State.plot_rgnH (r : Region) (c : SlotIx) (s : State) (p : Int × Int) :
    (State.plot r c s p).rgnH = s.rgnH := by
  unfold State.plot; split <;> rfl
@[simp] theorem State.plot_res0 (r : Region) (c : SlotIx) (s : State) (p : Int × Int) :
    (State.plot r c s p).res0 = s.res0 := by
  unfold State.plot; split <;> rfl
@[simp] theorem State.plot_res1 (r : Region) (c : SlotIx) (s : State) (p : Int × Int) :
    (State.plot r c s p).res1 = s.res1 := by
  unfold State.plot; split <;> rfl
@[simp] theorem State.plot_palIn (r : Region) (c : SlotIx) (s : State) (p : Int × Int) :
    (State.plot r c s p).palIn = s.palIn := by
  unfold State.plot; split <;> rfl
@[simp] theorem State.plot_template (r : Region) (c : SlotIx) (s : State) (p : Int × Int) :
    (State.plot r c s p).template = s.template := by
  unfold State.plot; split <;> rfl
@[simp] theorem State.plot_palOut (r : Region) (c : SlotIx) (s : State) (p : Int × Int) :
    (State.plot r c s p).palOut = s.palOut := by
  unfold State.plot; split <;> rfl
@[simp] theorem State.plot_cachePal (r : Region) (c : SlotIx) (s : State) (p : Int × Int) :
    (State.plot r c s p).cachePal = s.cachePal := by
  unfold State.plot; split <;> rfl
@[simp] theorem State.plot_src (r : Region) (c : SlotIx) (s : State) (p : Int × Int) :
    (State.plot r c s p).src = s.src := by
  unfold State.plot; split <;> rfl
@[simp] theorem State.plot_out (r : Region) (c : SlotIx) (s : State) (p : Int × Int) :
    (State.plot r c s p).out = s.out := by
  unfold State.plot; split <;> rfl
@[simp] theorem State.plot_work (r : Region) (c : SlotIx) (s : State) (p : Int × Int) :
    (State.plot r c s p).work = s.work := by
  unfold State.plot; split <;> rfl
@[simp] theorem State.plot_draws (r : Region) (c : SlotIx) (s : State) (p : Int × Int) :
    (State.plot r c s p).draws = s.draws := by
  unfold State.plot; split <;> rfl
@[simp] theorem State.plot_host (r : Region) (c : SlotIx) (s : State) (p : Int × Int) :
    (State.plot r c s p).host = s.host := by
  unfold State.plot; split <;> rfl
@[simp] theorem State.plot_hostData (r : Region) (c : SlotIx) (s : State) (p : Int × Int) :
    (State.plot r c s p).hostData = s.hostData := by
  unfold State.plot; split <;> rfl

end Sys2Proof.Machine
end

