-- ==== Sys2Proof/Laws/Operands.lean ====
section
/-! SUPPORT. What the operand forms (30_encoding.md R96) and the resolved region (20_memory.md R71) answer, and that the
updates of STATUS do not change them. -/

namespace Sys2Proof.Machine

theorem col4Operand_legal {v : Word} (h : v.extractLsb' 4 28 = 0) : col4Operand v = some (v.extractLsb' 0 4) :=
  if_pos h

theorem col4Operand_illegal {v : Word} (h : v.extractLsb' 4 28 ≠ 0) : col4Operand v = none := if_neg h

theorem hwc6Operand_legal {v : Word} (h : v.extractLsb' 6 26 = 0) : hwc6Operand v = some (v.extractLsb' 0 6) :=
  if_pos h

theorem hwc6Operand_illegal {v : Word} (h : v.extractLsb' 6 26 ≠ 0) : hwc6Operand v = none := if_neg h

/-! ### Views that a status update keeps -/

@[simp] theorem State.startCommand_resolveRegion (s : State) (rgn : Bool) :
    s.startCommand.resolveRegion rgn = s.resolveRegion rgn := rfl

@[simp] theorem State.startCommand_fullRegion (s : State) : s.startCommand.fullRegion = s.fullRegion := rfl

@[simp] theorem State.startCommand_exceedsCapacity (s : State) (w h : Word) :
    s.startCommand.ExceedsCapacity w h = s.ExceedsCapacity w h := rfl

@[simp] theorem State.startCommand_inRegion (s : State) (r : Region) (x y : Int) :
    s.startCommand.InRegion r x y = s.InRegion r x y := rfl

@[simp] theorem State.startCommand_alphaGet (s : State) (x y : Nat) : s.startCommand.alphaGet x y = s.alphaGet x y := rfl

@[simp] theorem State.startCommand_nibGet (s : State) (x y : Nat) : s.startCommand.nibGet x y = s.nibGet x y := rfl

@[simp] theorem State.completeCommand_alphaGet (s : State) (x y : Nat) :
    s.completeCommand.alphaGet x y = s.alphaGet x y := rfl

@[simp] theorem State.completeCommand_nibGet (s : State) (x y : Nat) :
    s.completeCommand.nibGet x y = s.nibGet x y := rfl

@[simp] theorem State.markDirty_alphaGet (s : State) (x y : Nat) : s.markDirty.alphaGet x y = s.alphaGet x y := rfl

@[simp] theorem State.markDirty_nibGet (s : State) (x y : Nat) : s.markDirty.nibGet x y = s.nibGet x y := rfl

/-! ### STATUS after a command -/

/-- A command that writes nothing but STATUS. -/
theorem State.start_complete (s : State) :
    s.startCommand.completeCommand = { s with status := s.status.finished } := rfl

/-- A command that raises an error (60_exceptions.md R302). -/
theorem State.start_raise (s : State) (c : ECode) :
    s.startCommand.raiseError c = { s with status := s.status.failed c } := rfl

/-- A command that halts the block (60_exceptions.md R306). -/
theorem State.start_halt (s : State) : s.startCommand.haltFatal = { s with status := s.status.halted } := rfl

end Sys2Proof.Machine
end

