-- ==== Sys2Proof/Laws/Memory.lean ====
section
/-! SUPPORT. The laws of memories and windows: what a read gives after a write, and that every operation keeps the
canonical form. -/

namespace Sys2Proof.Machine

/-! ### Reading after an operation -/

@[simp] theorem Memory.lookup_nil (a : Nat) : Memory.lookup [] a = none := rfl

theorem Memory.lookup_write (m : Memory) (a b : Nat) (v : Byte) :
    Memory.lookup (Memory.write m a v) b = if b = a then some v else Memory.lookup m b := by
  induction m with
  | nil => rfl
  | cons kv m ih =>
    obtain ⟨k, u⟩ := kv
    simp only [Memory.write]
    split
    · rfl
    · split
      · subst_vars; simp only [Memory.lookup]; split <;> rfl
      · simp only [Memory.lookup, ih]
        split_ifs <;> first | rfl | omega

theorem Memory.lookup_map_of_mem (l : List Nat) (f : Nat → Byte) (b : Nat) :
    Memory.lookup (l.map fun a => (a, f a)) b = if b ∈ l then some (f b) else none := by
  induction l with
  | nil => rfl
  | cons a l ih =>
    simp only [List.map_cons, Memory.lookup, ih, List.mem_cons]
    by_cases h : b = a
    · subst h; simp
    · simp [h]

@[simp] theorem Memory.lookup_tabulate (n : Nat) (f : Nat → Byte) (a : Nat) :
    Memory.lookup (Memory.tabulate n f) a = if a < n then some (f a) else none := by
  simp [Memory.tabulate, Memory.lookup_map_of_mem]

/-- A listed offset is the offset of an entry. -/
theorem Memory.lookup_isSome_iff (m : Memory) (a : Nat) : (Memory.lookup m a).isSome ↔ ∃ v, (a, v) ∈ m := by
  induction m with
  | nil => simp
  | cons kv m ih =>
    obtain ⟨k, u⟩ := kv
    by_cases h : a = k
    · subst h; simp [Memory.lookup]
    · simp [Memory.lookup, h, ih]

/-! ### The entries after an operation -/

theorem Memory.mem_write {m : Memory} {a : Nat} {v : Byte} {x : Host.Cell} (h : x ∈ Memory.write m a v) :
    x = (a, v) ∨ x ∈ m := by
  induction m with
  | nil => simpa [Memory.write] using h
  | cons kv m ih =>
    obtain ⟨k, u⟩ := kv
    simp only [Memory.write] at h
    split at h
    · simpa using h
    · split at h
      · rcases List.mem_cons.1 h with h | h
        · exact .inl h
        · exact .inr (List.mem_cons_of_mem _ h)
      · rcases List.mem_cons.1 h with h | h
        · exact .inr (h ▸ List.mem_cons_self)
        · exact (ih h).imp id (List.mem_cons_of_mem _)

theorem Memory.mem_tabulate {n : Nat} {f : Nat → Byte} {x : Host.Cell} (h : x ∈ Memory.tabulate n f) : x.1 < n := by
  simp only [Memory.tabulate, List.mem_map, List.mem_range] at h
  obtain ⟨a, ha, rfl⟩ := h
  exact ha

/-! ### The canonical form -/

theorem Memory.wf_nil : Memory.wf [] := List.Pairwise.nil

theorem Memory.wf_write {m : Memory} (h : Memory.wf m) (a : Nat) (v : Byte) : Memory.wf (Memory.write m a v) := by
  induction m with
  | nil => simp [Memory.write, Memory.wf]
  | cons kv m ih =>
    obtain ⟨k, u⟩ := kv
    obtain ⟨hk, hm⟩ := List.pairwise_cons.1 h
    simp only [Memory.write]
    split
    · next hlt =>
      refine List.pairwise_cons.2 ⟨fun x hx => ?_, h⟩
      rcases List.mem_cons.1 hx with rfl | hx
      · exact hlt
      · exact hlt.trans (hk x hx)
    · split
      · subst_vars; exact List.pairwise_cons.2 ⟨hk, hm⟩
      · refine List.pairwise_cons.2 ⟨fun x hx => ?_, ih hm⟩
        rcases Memory.mem_write hx with rfl | hx
        · show k < a; omega
        · exact hk x hx

theorem Memory.wf_tabulate (n : Nat) (f : Nat → Byte) : Memory.wf (Memory.tabulate n f) :=
  List.pairwise_map.2 List.pairwise_lt_range

theorem Memory.wf_fill (n : Nat) (b : Byte) : Memory.wf (Memory.fill n b) := Memory.wf_tabulate n _

/-- Two canonical memories that list the same bytes are the same list. -/
theorem Memory.eq_of_lookup_eq {m n : Memory} (hm : Memory.wf m) (hn : Memory.wf n)
    (h : ∀ a, Memory.lookup m a = Memory.lookup n a) : m = n := by
  induction m generalizing n with
  | nil =>
    cases n with
    | nil => rfl
    | cons y n => have := h y.1; simp [Memory.lookup] at this
  | cons x m ih =>
    cases n with
    | nil => have := h x.1; simp [Memory.lookup] at this
    | cons y n =>
      obtain ⟨hx, hm'⟩ := List.pairwise_cons.1 hm
      obtain ⟨hy, hn'⟩ := List.pairwise_cons.1 hn
      have key : ∀ {z : Host.Cell} {l : Memory}, (∀ w ∈ l, z.1 < w.1) → ∀ a ≤ z.1, Memory.lookup l a = none := by
        intro z l hl a ha
        cases hs : Memory.lookup l a with
        | none => rfl
        | some v =>
          obtain ⟨v', hv⟩ := (Memory.lookup_isSome_iff l a).1 (by simp [hs])
          have := hl _ hv; simp only at this; omega
      have hxy : x.1 = y.1 := by
        by_contra hne
        rcases Nat.lt_or_gt_of_ne hne with hlt | hlt
        · have := h x.1; simp [Memory.lookup, hne, key hy x.1 hlt.le] at this
        · have := h y.1; simp [Memory.lookup, Ne.symm hne, key hx y.1 hlt.le] at this
      have hv : x = y := by
        have := h x.1
        obtain ⟨a, v⟩ := x; obtain ⟨b, w⟩ := y
        simp only at hxy; subst hxy
        simpa [Memory.lookup] using this
      subst hv
      refine congrArg _ (ih hm' hn' fun a => ?_)
      by_cases ha : a = x.1
      · rw [key hx a ha.le, key hy a ha.le]
      · have := h a; simpa [Memory.lookup, ha] using this

/-! ### Windows -/

theorem Window.byte_write (w : Window) (a b : Nat) (v : Byte) :
    (w.write a v).byte b = if b = a then v else w.byte b := by
  simp only [Window.byte, Window.write, Memory.lookup_write]
  split <;> rfl

@[simp] theorem Window.byte_write_same (w : Window) (a : Nat) (v : Byte) : (w.write a v).byte a = v := by
  simp [Window.byte_write]

theorem Window.byte_write_other (w : Window) {a b : Nat} (v : Byte) (h : b ≠ a) : (w.write a v).byte b = w.byte b := by
  simp [Window.byte_write, h]

theorem Window.byte_fill (w : Window) {n a : Nat} (b : Byte) (h : a < n) : (w.fill n b).byte a = b := by
  simp [Window.byte, Window.fill, Memory.fill, h]

@[simp] theorem Window.byte_unspecified (k a : Nat) : (Window.unspecified k).byte a = Config.freeByte k a := rfl

end Sys2Proof.Machine
end

