-- ==== Sys2Proof/Laws/Pixels.lean ====
section
/-! SUPPORT. What the pixel operations of 20_memory.md R66 and R67, and Plot (44_drawing.md R260), can do. -/

namespace Sys2Proof.Machine

/-! ### Bits and nibbles -/

theorem setBit_getLsbD (v : Byte) (k j : Nat) (b : Bool) (hj : j < 8) :
    (setBit v k b).getLsbD j = if j = k then b else v.getLsbD j := by
  rcases Nat.lt_trichotomy j k with h | h | h
  · have h1 : j ≠ k := by omega
    cases b <;> simp [setBit, hj, h, h1]
  · subst h; cases b <;> simp [setBit, hj]
  · have h1 : j ≠ k := by omega
    have h2 : ¬ j < k := by omega
    have h3 : j - k ≠ 0 := by omega
    cases b <;> simp [setBit, hj, h1, h2, h3]

theorem nibbleOf_setNibble (v : Byte) (x x' : Nat) (c : SlotIx) :
    nibbleOf (setNibble v x c) x' = if x' % 2 = x % 2 then c else nibbleOf v x' := by
  unfold nibbleOf setNibble
  split_ifs <;> first
    | omega
    | (apply BitVec.eq_of_getLsbD_eq; intro i hi; rw [BitVec.getLsbD_extractLsb']
       erw [BitVec.getLsbD_append]; simp [hi])

/-! ### Offsets -/

theorem div_lt_alphaRowBytes {x w : Nat} (h : x < w) : x / 8 < alphaRowBytes w := by
  unfold alphaRowBytes; omega

theorem div_lt_colorRowBytes {x w : Nat} (h : x < w) : x / 2 < colorRowBytes w := by
  unfold colorRowBytes; omega

/-- The bit positions of an alpha row, its pixels and its padding (20_memory.md R64). -/
theorem lt_alphaBits {x w : Nat} (h : x < w) : x < 8 * alphaRowBytes w := by
  unfold alphaRowBytes; omega

/-- The nibble positions of a colour row, its pixels and its padding (20_memory.md R65). -/
theorem lt_colorNibbles {x w : Nat} (h : x < w) : x < 2 * colorRowBytes w := by
  unfold colorRowBytes; omega

theorem rowOffset_inj {n y y' a a' : Nat} (ha : a < n) (ha' : a' < n) (h : y * n + a = y' * n + a') :
    y = y' ∧ a = a' := by
  have hn : 0 < n := by omega
  have h1 : (y * n + a) / n = y := by
    rw [Nat.add_comm, Nat.add_mul_div_right _ _ hn, Nat.div_eq_of_lt ha, Nat.zero_add]
  have h2 : (y' * n + a') / n = y' := by
    rw [Nat.add_comm, Nat.add_mul_div_right _ _ hn, Nat.div_eq_of_lt ha', Nat.zero_add]
  have hy : y = y' := by rw [← h1, ← h2, h]
  subst hy
  exact ⟨rfl, by omega⟩

theorem rowOffset_lt {n y a h : Nat} (ha : a < n) (hy : y < h) : y * n + a < h * n := by
  calc y * n + a < y * n + n := by omega
    _ = (y + 1) * n := by rw [Nat.succ_mul]
    _ ≤ h * n := Nat.mul_le_mul_right n hy

/-- An alpha byte of a pixel lies inside ALPHA. -/
theorem State.alphaOffset_lt {s : State} {x y : Nat} (hx : x < s.w) (hy : y < s.h) : s.alphaOffset x y < s.alphaSize :=
  rowOffset_lt (div_lt_alphaRowBytes hx) hy

/-- A colour byte of a pixel lies inside COLOR. -/
theorem State.colorOffset_lt {s : State} {x y : Nat} (hx : x < s.w) (hy : y < s.h) : s.colorOffset x y < s.colorSize :=
  rowOffset_lt (div_lt_colorRowBytes hx) hy

/-! ### AlphaSet and NibSet -/

/-- AlphaSet changes the one bit, among the bits of pixels and of padding (R66, R68). -/
theorem State.alphaGet_alphaSet (s : State) {x y x' y' : Nat} (b : Bool) (hx : x < s.w)
    (hx' : x' < 8 * alphaRowBytes s.w) :
    (s.alphaSet x y b).alphaGet x' y' = if x' = x ∧ y' = y then b else s.alphaGet x' y' := by
  have hoff : (s.alphaSet x y b).alphaOffset x' y' = s.alphaOffset x' y' := rfl
  simp only [State.alphaGet, hoff, State.alphaSet_alpha, Window.byte_write]
  by_cases h : s.alphaOffset x' y' = s.alphaOffset x y
  · obtain ⟨rfl, hq⟩ := rowOffset_inj (Nat.div_lt_of_lt_mul hx') (div_lt_alphaRowBytes hx) h
    rw [if_pos h, setBit_getLsbD _ _ _ _ (by omega), h]
    by_cases hm : x' % 8 = x % 8
    · have : x' = x := by omega
      simp [this]
    · have : x' ≠ x := fun h => hm (by rw [h])
      simp [hm, this]
  · have : ¬ (x' = x ∧ y' = y) := by rintro ⟨rfl, rfl⟩; exact h rfl
    rw [if_neg h, if_neg this]

/-- NibSet changes the one nibble, among the nibbles of pixels and of padding (R67, R68). -/
theorem State.nibGet_nibSet (s : State) {x y x' y' : Nat} (c : SlotIx) (hx : x < s.w)
    (hx' : x' < 2 * colorRowBytes s.w) :
    (s.nibSet x y c).nibGet x' y' = if x' = x ∧ y' = y then c else s.nibGet x' y' := by
  have hoff : (s.nibSet x y c).colorOffset x' y' = s.colorOffset x' y' := rfl
  simp only [State.nibGet, hoff, State.nibSet_color, Window.byte_write]
  by_cases h : s.colorOffset x' y' = s.colorOffset x y
  · obtain ⟨rfl, hq⟩ := rowOffset_inj (Nat.div_lt_of_lt_mul hx') (div_lt_colorRowBytes hx) h
    rw [if_pos h, nibbleOf_setNibble, h]
    by_cases hm : x' % 2 = x % 2
    · have : x' = x := by omega
      simp [this]
    · have : x' ≠ x := fun h => hm (by rw [h])
      simp [hm, this]
  · have : ¬ (x' = x ∧ y' = y) := by rintro ⟨rfl, rfl⟩; exact h rfl
    rw [if_neg h, if_neg this]

/-! ### setPixel -/

theorem State.alphaGet_setPixel (s : State) {x y x' y' : Nat} (c : SlotIx) (hx : x < s.w)
    (hx' : x' < 8 * alphaRowBytes s.w) :
    (s.setPixel x y c).alphaGet x' y' = if x' = x ∧ y' = y then true else s.alphaGet x' y' :=
  s.alphaGet_alphaSet true hx hx'

theorem State.nibGet_setPixel (s : State) {x y x' y' : Nat} (c : SlotIx) (hx : x < s.w)
    (hx' : x' < 2 * colorRowBytes s.w) :
    (s.setPixel x y c).nibGet x' y' = if x' = x ∧ y' = y then c else s.nibGet x' y' :=
  (s.alphaSet x y true).nibGet_nibSet c hx hx'

/-- Every ALPHA byte but the pixel's own is unchanged. -/
theorem State.setPixel_alpha_byte_other (s : State) (x y : Nat) (c : SlotIx) {a : Nat} (h : a ≠ s.alphaOffset x y) :
    (s.setPixel x y c).alpha.byte a = s.alpha.byte a := by
  simp [Window.byte_write_other _ _ h]

/-- Every COLOR byte but the pixel's own is unchanged. -/
theorem State.setPixel_color_byte_other (s : State) (x y : Nat) (c : SlotIx) {a : Nat} (h : a ≠ s.colorOffset x y) :
    (s.setPixel x y c).color.byte a = s.color.byte a := by
  simp [Window.byte_write_other _ _ h]

/-! ### Plot -/

/-- Everything Plot can do (R260): outside nothing, inside the pixel and DIRTY. -/
theorem State.plot_cases (r : Region) (c : SlotIx) (s : State) (p : Int × Int) :
    (s.InRegion r p.1 p.2 ∧
      State.plot r c s p = (s.setPixel (r.ox + p.1).toNat (r.oy + p.2).toNat c).markDirty) ∨
    (¬ s.InRegion r p.1 p.2 ∧ State.plot r c s p = s) := by
  unfold State.plot
  by_cases h : s.InRegion r p.1 p.2
  · exact .inl ⟨h, if_pos h⟩
  · exact .inr ⟨h, if_neg h⟩

/-- A point in the region lands on a pixel of the bitmap. -/
theorem State.InRegion.lt {s : State} {r : Region} {x y : Int} (h : s.InRegion r x y) :
    (r.ox + x).toNat < s.w ∧ (r.oy + y).toNat < s.h := by
  obtain ⟨-, -, -, -, h1, h2, h3, h4⟩ := h
  show (r.ox + x).toNat < s.width.toNat ∧ (r.oy + y).toNat < s.height.toNat
  omega

theorem State.alphaGet_plot (r : Region) (c : SlotIx) (s : State) (p : Int × Int) {x y : Nat}
    (hx : x < 8 * alphaRowBytes s.w) :
    (State.plot r c s p).alphaGet x y =
      if s.InRegion r p.1 p.2 ∧ r.ox + p.1 = x ∧ r.oy + p.2 = y then true else s.alphaGet x y := by
  rcases s.plot_cases r c p with ⟨hin, e⟩ | ⟨hin, e⟩ <;> rw [e]
  · have : (s.setPixel (r.ox + p.1).toNat (r.oy + p.2).toNat c).markDirty.alphaGet x y =
        (s.setPixel (r.ox + p.1).toNat (r.oy + p.2).toNat c).alphaGet x y := rfl
    rw [this, s.alphaGet_setPixel c hin.lt.1 hx]
    obtain ⟨-, -, -, -, h1, -, h3, -⟩ := id hin
    refine if_congr ?_ rfl rfl
    constructor
    · rintro ⟨rfl, rfl⟩; exact ⟨hin, by omega, by omega⟩
    · rintro ⟨-, h5, h6⟩; constructor <;> omega
  · simp [hin]

theorem State.nibGet_plot (r : Region) (c : SlotIx) (s : State) (p : Int × Int) {x y : Nat}
    (hx : x < 2 * colorRowBytes s.w) :
    (State.plot r c s p).nibGet x y =
      if s.InRegion r p.1 p.2 ∧ r.ox + p.1 = x ∧ r.oy + p.2 = y then c else s.nibGet x y := by
  rcases s.plot_cases r c p with ⟨hin, e⟩ | ⟨hin, e⟩ <;> rw [e]
  · have : (s.setPixel (r.ox + p.1).toNat (r.oy + p.2).toNat c).markDirty.nibGet x y =
        (s.setPixel (r.ox + p.1).toNat (r.oy + p.2).toNat c).nibGet x y := rfl
    rw [this, s.nibGet_setPixel c hin.lt.1 hx]
    obtain ⟨-, -, -, -, h1, -, h3, -⟩ := id hin
    refine if_congr ?_ rfl rfl
    constructor
    · rintro ⟨rfl, rfl⟩; exact ⟨hin, by omega, by omega⟩
    · rintro ⟨-, h5, h6⟩; constructor <;> omega
  · simp [hin]

/-! ### Folds -/

/-- What every step of a fold keeps, the fold keeps. -/
theorem foldl_keeps {σ α β : Type} (f : σ → α → σ) (view : σ → β) (h : ∀ s a, view (f s a) = view s) (l : List α)
    (s : σ) : view (l.foldl f s) = view s := by
  induction l generalizing s with
  | nil => rfl
  | cons a l ih => rw [List.foldl_cons, ih, h]

/-- What holds at the start and is kept by every step holds at the end. -/
theorem foldl_invariant {σ α : Type} (f : σ → α → σ) (P : σ → Prop) (l : List α)
    (h : ∀ s, P s → ∀ a ∈ l, P (f s a)) (s : σ) (hs : P s) : P (l.foldl f s) := by
  induction l generalizing s with
  | nil => exact hs
  | cons a l ih =>
    exact ih (fun t ht b hb => h t ht b (List.mem_cons_of_mem _ hb)) _ (h s hs a List.mem_cons_self)

theorem State.alphaGet_foldl_plot (r : Region) (c : SlotIx) (points : List (Int × Int)) (s : State) {x y : Nat}
    (hx : x < 8 * alphaRowBytes s.w) :
    (s.Hits r points x y → (points.foldl (State.plot r c) s).alphaGet x y = true) ∧
    (¬ s.Hits r points x y → (points.foldl (State.plot r c) s).alphaGet x y = s.alphaGet x y) := by
  induction points generalizing s with
  | nil => simp [State.Hits]
  | cons p l ih =>
    have hin : ∀ q : Int × Int, (State.plot r c s p).InRegion r q.1 q.2 ↔ s.InRegion r q.1 q.2 := fun q => by
      simp [State.InRegion, State.InBitmap]
    have hhits : (State.plot r c s p).Hits r l x y ↔ s.Hits r l x y := by simp only [State.Hits, hin]
    have hw : x < 8 * alphaRowBytes (State.plot r c s p).w := by simpa [State.w] using hx
    obtain ⟨h1, h2⟩ := ih (State.plot r c s p) hw
    rw [hhits] at h1 h2
    rw [List.foldl_cons]
    constructor
    · rintro ⟨q, hq, hq'⟩
      by_cases hl : s.Hits r l x y
      · exact h1 hl
      · rcases List.mem_cons.1 hq with rfl | hq
        · rw [h2 hl, s.alphaGet_plot r c _ hx, if_pos hq']
        · exact absurd ⟨q, hq, hq'⟩ hl
    · intro hn
      have hl : ¬ s.Hits r l x y := fun ⟨q, hq, hq'⟩ => hn ⟨q, List.mem_cons_of_mem _ hq, hq'⟩
      rw [h2 hl, s.alphaGet_plot r c _ hx, if_neg fun h => hn ⟨p, List.mem_cons_self, h⟩]

theorem State.nibGet_foldl_plot (r : Region) (c : SlotIx) (points : List (Int × Int)) (s : State) {x y : Nat}
    (hx : x < 2 * colorRowBytes s.w) :
    (s.Hits r points x y → (points.foldl (State.plot r c) s).nibGet x y = c) ∧
    (¬ s.Hits r points x y → (points.foldl (State.plot r c) s).nibGet x y = s.nibGet x y) := by
  induction points generalizing s with
  | nil => simp [State.Hits]
  | cons p l ih =>
    have hin : ∀ q : Int × Int, (State.plot r c s p).InRegion r q.1 q.2 ↔ s.InRegion r q.1 q.2 := fun q => by
      simp [State.InRegion, State.InBitmap]
    have hhits : (State.plot r c s p).Hits r l x y ↔ s.Hits r l x y := by simp only [State.Hits, hin]
    have hw : x < 2 * colorRowBytes (State.plot r c s p).w := by simpa [State.w] using hx
    obtain ⟨h1, h2⟩ := ih (State.plot r c s p) hw
    rw [hhits] at h1 h2
    rw [List.foldl_cons]
    constructor
    · rintro ⟨q, hq, hq'⟩
      by_cases hl : s.Hits r l x y
      · exact h1 hl
      · rcases List.mem_cons.1 hq with rfl | hq
        · rw [h2 hl, s.nibGet_plot r c _ hx, if_pos hq']
        · exact absurd ⟨q, hq, hq'⟩ hl
    · intro hn
      have hl : ¬ s.Hits r l x y := fun ⟨q, hq, hq'⟩ => hn ⟨q, List.mem_cons_of_mem _ hq, hq'⟩
      rw [h2 hl, s.nibGet_plot r c _ hx, if_neg fun h => hn ⟨p, List.mem_cons_self, h⟩]

/-! ### What a fold of plots or of pixels leaves alone -/

theorem State.setPixel_frame (s : State) (x y : Nat) (c : SlotIx) :
    s.setPixel x y c = { s with alpha := (s.setPixel x y c).alpha, color := (s.setPixel x y c).color } := rfl

/-- Plot changes ALPHA, COLOR and DIRTY, and nothing else. -/
theorem State.plot_frame (r : Region) (c : SlotIx) (s : State) (p : Int × Int) :
    State.plot r c s p = { s with
      status := { s.status with dirty := (State.plot r c s p).status.dirty }
      alpha := (State.plot r c s p).alpha
      color := (State.plot r c s p).color } := by
  rcases s.plot_cases r c p with ⟨-, e⟩ | ⟨-, e⟩
  all_goals (rw [e]; try rfl)

theorem State.foldl_plot_frame (r : Region) (c : SlotIx) (points : List (Int × Int)) (s : State) :
    points.foldl (State.plot r c) s = { s with
      status := { s.status with dirty := (points.foldl (State.plot r c) s).status.dirty }
      alpha := (points.foldl (State.plot r c) s).alpha
      color := (points.foldl (State.plot r c) s).color } := by
  refine foldl_invariant _ (fun t => t = { s with
    status := { s.status with dirty := t.status.dirty }, alpha := t.alpha, color := t.color }) points ?_ s rfl
  intro t ht p _
  rw [State.plot_frame, ht]

theorem State.plot_hits (r : Region) (c : SlotIx) (s : State) (p : Int × Int) (points : List (Int × Int)) (x y : Nat) :
    (State.plot r c s p).Hits r points x y ↔ s.Hits r points x y := by
  simp [State.Hits, State.InRegion, State.InBitmap]

theorem State.hits_cons (r : Region) (s : State) (p : Int × Int) (points : List (Int × Int)) (x y : Nat) :
    s.Hits r (p :: points) x y ↔
      (s.InRegion r p.1 p.2 ∧ r.ox + p.1 = x ∧ r.oy + p.2 = y) ∨ s.Hits r points x y := by
  simp [State.Hits]

/-- A plotted point in the region hits a pixel. -/
theorem State.InRegion.hits {s : State} {r : Region} {p : Int × Int} (h : s.InRegion r p.1 p.2) :
    s.InRegion r p.1 p.2 ∧ r.ox + p.1 = (r.ox + p.1).toNat ∧ r.oy + p.2 = (r.oy + p.2).toNat := by
  obtain ⟨-, -, -, -, h1, -, h3, -⟩ := id h
  exact ⟨h, by omega, by omega⟩

/-- DIRTY after a walk: set exactly when a point hits a pixel (R266(d)). -/
theorem State.foldl_plot_dirty (r : Region) (c : SlotIx) (points : List (Int × Int)) (s : State) :
    (points.foldl (State.plot r c) s).status.dirty = true ↔
      s.status.dirty = true ∨ ∃ x y, s.Hits r points x y := by
  induction points generalizing s with
  | nil => simp [State.Hits]
  | cons p l ih =>
    simp only [List.foldl_cons, ih, State.plot_hits, State.hits_cons]
    rcases s.plot_cases r c p with ⟨h, e⟩ | ⟨h, e⟩ <;> rw [e]
    · have : ∃ x y : Nat, (s.InRegion r p.1 p.2 ∧ r.ox + p.1 = x ∧ r.oy + p.2 = y) ∨ s.Hits r l x y :=
        ⟨_, _, .inl h.hits⟩
      simp only [this, or_true, iff_true]
      exact .inl rfl
    · simp [h]

/-- An ALPHA byte that holds no hit pixel is as before. -/
theorem State.foldl_plot_alpha_byte (r : Region) (c : SlotIx) (points : List (Int × Int)) (s : State) {a : Nat}
    (h : ∀ x y, s.Hits r points x y → a ≠ s.alphaOffset x y) :
    (points.foldl (State.plot r c) s).alpha.byte a = s.alpha.byte a := by
  induction points generalizing s with
  | nil => rfl
  | cons p l ih =>
    rw [List.foldl_cons, ih]
    · rcases s.plot_cases r c p with ⟨hin, e⟩ | ⟨-, e⟩ <;> rw [e]
      exact s.setPixel_alpha_byte_other _ _ c (h _ _ ((s.hits_cons r p l _ _).2 (.inl hin.hits)))
    · intro x y hh
      have : (State.plot r c s p).alphaOffset x y = s.alphaOffset x y := by
        simp [State.alphaOffset, State.w]
      rw [this]
      exact h x y ((s.hits_cons r p l x y).2 (.inr ((s.plot_hits r c p l x y).1 hh)))

/-- A COLOR byte that holds no hit pixel is as before. -/
theorem State.foldl_plot_color_byte (r : Region) (c : SlotIx) (points : List (Int × Int)) (s : State) {a : Nat}
    (h : ∀ x y, s.Hits r points x y → a ≠ s.colorOffset x y) :
    (points.foldl (State.plot r c) s).color.byte a = s.color.byte a := by
  induction points generalizing s with
  | nil => rfl
  | cons p l ih =>
    rw [List.foldl_cons, ih]
    · rcases s.plot_cases r c p with ⟨hin, e⟩ | ⟨-, e⟩ <;> rw [e]
      exact s.setPixel_color_byte_other _ _ c (h _ _ ((s.hits_cons r p l _ _).2 (.inl hin.hits)))
    · intro x y hh
      have : (State.plot r c s p).colorOffset x y = s.colorOffset x y := by
        simp [State.colorOffset, State.w]
      rw [this]
      exact h x y ((s.hits_cons r p l x y).2 (.inr ((s.plot_hits r c p l x y).1 hh)))

/-- Every pixel of a list of pixels painted in one colour, and every other pixel, padding bit, padding nibble and byte as
before. -/
theorem State.foldl_setPixel (c : SlotIx) (pixels : List (Nat × Nat)) (s : State)
    (hp : ∀ p ∈ pixels, p.1 < s.w ∧ p.2 < s.h) :
    let t := pixels.foldl (fun u p => u.setPixel p.1 p.2 c) s
    t = { s with alpha := t.alpha, color := t.color } ∧
    (∀ x y, x < 8 * alphaRowBytes s.w → t.alphaGet x y = if (x, y) ∈ pixels then true else s.alphaGet x y) ∧
    (∀ x y, x < 2 * colorRowBytes s.w → t.nibGet x y = if (x, y) ∈ pixels then c else s.nibGet x y) ∧
    (∀ a, (∀ x y, (x, y) ∈ pixels → a ≠ s.alphaOffset x y) → t.alpha.byte a = s.alpha.byte a) ∧
    (∀ a, (∀ x y, (x, y) ∈ pixels → a ≠ s.colorOffset x y) → t.color.byte a = s.color.byte a) := by
  induction pixels generalizing s with
  | nil => simp
  | cons p l ih =>
    obtain ⟨h0, h1, h2, h3, h4⟩ := ih (s.setPixel p.1 p.2 c) fun q hq => hp q (List.mem_cons_of_mem _ hq)
    have hx := (hp p List.mem_cons_self).1
    simp only [List.foldl_cons] at *
    refine ⟨?_, fun x y hxw => ?_, fun x y hxw => ?_, fun a ha => ?_, fun a ha => ?_⟩
    · rw [h0]; rfl
    · rw [h1 x y hxw, s.alphaGet_setPixel c hx hxw]
      by_cases hl : (x, y) ∈ l
      · simp [hl]
      · simp [hl, Prod.ext_iff]
    · rw [h2 x y hxw, s.nibGet_setPixel c hx hxw]
      by_cases hl : (x, y) ∈ l
      · simp [hl]
      · simp [hl, Prod.ext_iff]
    · rw [h3 a fun x y hl => ha x y (List.mem_cons_of_mem _ hl)]
      exact s.setPixel_alpha_byte_other _ _ c (ha _ _ List.mem_cons_self)
    · rw [h4 a fun x y hl => ha x y (List.mem_cons_of_mem _ hl)]
      exact s.setPixel_color_byte_other _ _ c (ha _ _ List.mem_cons_self)

end Sys2Proof.Machine
end

