-- ==== Sys2Proof/Laws/Commands.lean ====
section
/-! SUPPORT. What the planes hold after an allocation or a fill, and each command as a function of the state it starts
from, without the updates of STATUS around it. -/

namespace Sys2Proof.Machine

/-! ### Planes after an allocation or a fill -/

theorem State.fillAlpha_byte (s : State) (b : Byte) {a : Nat} (h : a < s.h * alphaRowBytes s.w) :
    (s.fillAlpha b).alpha.byte a = b := by
  rw [State.fillAlpha_alpha]; exact Window.byte_fill _ _ h

theorem State.fillColor_byte (s : State) (b : Byte) {a : Nat} (h : a < s.h * colorRowBytes s.w) :
    (s.fillColor b).color.byte a = b := by
  rw [State.fillColor_color]; exact Window.byte_fill _ _ h

theorem State.createBitmap_alpha_byte (s : State) (w h : Word) {a : Nat}
    (ha : a < h.toNat * alphaRowBytes w.toNat) : (s.createBitmap w h).alpha.byte a = 0 :=
  (s.setSize w h).fillAlpha_byte 0 ha

theorem State.createBitmap_color_byte (s : State) (w h : Word) {a : Nat}
    (ha : a < h.toNat * colorRowBytes w.toNat) : (s.createBitmap w h).color.byte a = 0 :=
  ((s.setSize w h).fillAlpha 0).fillColor_byte 0 ha

theorem State.resizeBitmap_alpha_byte (s : State) (w h : Word) {a : Nat}
    (ha : a < h.toNat * alphaRowBytes w.toNat) : (s.resizeBitmap w h).alpha.byte a = 0 :=
  (s.setSize w h).fillAlpha_byte 0 ha

/-- A freshly created bitmap is 0 in every bit and nibble, padding included (R152, 20_memory.md R68). -/
theorem State.createBitmap_zero (s : State) (w h : Word) {x y : Nat} (hy : y < h.toNat) :
    (x < 8 * alphaRowBytes w.toNat → (s.createBitmap w h).alphaGet x y = false) ∧
    (x < 2 * colorRowBytes w.toNat → (s.createBitmap w h).nibGet x y = 0) := by
  constructor
  · intro hx
    have h1 : (s.createBitmap w h).alpha.byte ((s.createBitmap w h).alphaOffset x y) = 0 :=
      s.createBitmap_alpha_byte w h (rowOffset_lt (Nat.div_lt_of_lt_mul hx) hy)
    rw [State.alphaGet, h1]; simp
  · intro hx
    have h2 : (s.createBitmap w h).color.byte ((s.createBitmap w h).colorOffset x y) = 0 :=
      s.createBitmap_color_byte w h (rowOffset_lt (Nat.div_lt_of_lt_mul hx) hy)
    rw [State.nibGet, h2, nibbleOf]; split <;> rfl

/-- A freshly created bitmap is transparent, with nibble 0 everywhere. -/
theorem State.createBitmap_pixel (s : State) (w h : Word) {x y : Nat} (hx : x < w.toNat) (hy : y < h.toNat) :
    (s.createBitmap w h).alphaGet x y = false ∧ (s.createBitmap w h).nibGet x y = 0 :=
  ⟨(s.createBitmap_zero w h hy).1 (lt_alphaBits hx), (s.createBitmap_zero w h hy).2 (lt_colorNibbles hx)⟩

/-! ### The region of CLEAR -/

/-- The pixels that CLEAR visits are those of the bitmap that lie in the region (R161). -/
theorem State.mem_regionPixels (s : State) (r : Region) (x y : Nat) :
    (x, y) ∈ s.regionPixels r ↔ s.Covers r x y := by
  simp only [State.regionPixels, List.mem_filter, List.mem_flatMap, List.mem_map, List.mem_range, Prod.mk.injEq,
    decide_eq_true_eq, State.InRegion, State.InBitmap, State.Covers, State.w, State.h]
  constructor
  · rintro ⟨⟨y', hy, x', hx, rfl, rfl⟩, h⟩; omega
  · rintro ⟨hx, hy, h⟩; exact ⟨⟨y, hy, x, hx, rfl, rfl⟩, by omega⟩

theorem State.clearRegion_dirty (s : State) (r : Region) (c : SlotIx) :
    (s.clearRegion r c).status.dirty = true ↔ s.status.dirty = true ∨ ∃ x y, s.Covers r x y := by
  have hf : ∀ l : List (Nat × Nat), (l.foldl (fun t p => t.setPixel p.1 p.2 c) s).status = s.status := fun l =>
    foldl_keeps (fun (t : State) (p : Nat × Nat) => t.setPixel p.1 p.2 c) State.status (fun _ _ => rfl) l s
  have he : (∃ x y, s.Covers r x y) ↔ (s.regionPixels r).isEmpty = false := by
    simp only [← s.mem_regionPixels]
    cases s.regionPixels r with
    | nil => simp
    | cons p l => simp only [List.isEmpty_cons, iff_true]; exact ⟨p.1, p.2, List.mem_cons_self⟩
  rw [he]
  simp only [State.clearRegion]
  cases h : (s.regionPixels r).isEmpty
  · simp
  · simp [hf]

/-- What CLEAR of a region does to the planes, their padding included, and that it changes nothing else but DIRTY (R161,
R162). -/
theorem State.clearRegion_spec (s : State) (r : Region) (c : SlotIx) :
    let t := s.clearRegion r c
    t = { s with status := { s.status with dirty := t.status.dirty }, alpha := t.alpha, color := t.color } ∧
    (∀ x y, s.Covers r x y → t.alphaGet x y = true ∧ t.nibGet x y = c) ∧
    (∀ x y, ¬ s.Covers r x y → (x < 8 * alphaRowBytes s.w → t.alphaGet x y = s.alphaGet x y) ∧
      (x < 2 * colorRowBytes s.w → t.nibGet x y = s.nibGet x y)) ∧
    (∀ a, (∀ x y, s.Covers r x y → a ≠ s.alphaOffset x y) → t.alpha.byte a = s.alpha.byte a) ∧
    (∀ a, (∀ x y, s.Covers r x y → a ≠ s.colorOffset x y) → t.color.byte a = s.color.byte a) := by
  obtain ⟨h0, h1, h2, h3, h4⟩ := s.foldl_setPixel c (s.regionPixels r) fun p hp => by
    have := (s.mem_regionPixels r p.1 p.2).1 hp
    exact ⟨this.1, this.2.1⟩
  have hc : ∃ d : Bool, s.clearRegion r c = { (s.regionPixels r).foldl (fun u p => u.setPixel p.1 p.2 c) s with
      status := { s.status with dirty := d } } := by
    simp only [State.clearRegion]
    rw [h0]
    split
    · exact ⟨s.status.dirty, rfl⟩
    · exact ⟨true, rfl⟩
  obtain ⟨d, hc⟩ := hc
  simp only [s.mem_regionPixels] at h3 h4
  intro t
  have ha : t.alpha = ((s.regionPixels r).foldl (fun u p => u.setPixel p.1 p.2 c) s).alpha := by simp only [t, hc]
  have hcol : t.color = ((s.regionPixels r).foldl (fun u p => u.setPixel p.1 p.2 c) s).color := by simp only [t, hc]
  have hw : t.width = ((s.regionPixels r).foldl (fun u p => u.setPixel p.1 p.2 c) s).width := by simp only [t, hc]
  have ga : ∀ x y, t.alphaGet x y = ((s.regionPixels r).foldl (fun u p => u.setPixel p.1 p.2 c) s).alphaGet x y :=
    fun x y => by simp only [State.alphaGet, State.alphaOffset, ha, State.w, hw]
  have gn : ∀ x y, t.nibGet x y = ((s.regionPixels r).foldl (fun u p => u.setPixel p.1 p.2 c) s).nibGet x y :=
    fun x y => by simp only [State.nibGet, State.colorOffset, hcol, State.w, hw]
  refine ⟨?_, fun x y h => ?_, fun x y h => ?_, ?_, ?_⟩
  · simp only [t, hc]; rw [h0]
  · have h' := (s.mem_regionPixels r x y).2 h
    rw [ga, gn, h1 x y (lt_alphaBits h.1), h2 x y (lt_colorNibbles h.1), if_pos h', if_pos h']; exact ⟨rfl, rfl⟩
  · have h' : (x, y) ∉ s.regionPixels r := fun hm => h ((s.mem_regionPixels r x y).1 hm)
    exact ⟨fun hx => by rw [ga, h1 x y hx, if_neg h'], fun hx => by rw [gn, h2 x y hx, if_neg h']⟩
  · rw [ha]; exact h3
  · rw [hcol]; exact h4

/-! ### Commands -/

theorem execHw2rgb_eq (s : State) : execHw2rgb s = .next (match hwc6Operand s.args[0] with
    | none => { s with status := s.status.failed .arg }
    | some c => { s with status := s.status.finished, res0 := (rgb c).word, res1 := 0 }) := by
  unfold execHw2rgb
  simp only [State.startCommand_args]
  cases hwc6Operand s.args[0] <;> rfl

theorem execCreate_eq (s : State) : execCreate s = .next (
    if s.ExceedsCapacity s.args[0] s.args[1] then { s with status := s.status.halted }
    else (s.startCommand.createBitmap s.args[0] s.args[1]).completeCommand) := rfl

theorem execResize_eq (s : State) : execResize s = .next (
    if s.args[0] = s.width ∧ s.args[1] = s.height then { s with status := s.status.finished }
    else if s.ExceedsCapacity s.args[0] s.args[1] then { s with status := s.status.halted }
    else (s.startCommand.resizeBitmap s.args[0] s.args[1]).completeCommand) := rfl

theorem execClear_eq (rgn : Bool) (s : State) : execClear rgn s = .next (match col4Operand s.args[0] with
    | none => { s with status := s.status.failed .arg }
    | some c =>
      (if s.resolveRegion rgn = s.fullRegion then s.startCommand.clearFull c
       else s.startCommand.clearRegion (s.resolveRegion rgn) c).completeCommand) := by
  unfold execClear
  simp only [State.startCommand_args]
  cases col4Operand s.args[0] <;> rfl

theorem execGetColor_eq (rgn : Bool) (s : State) : execGetColor rgn s = .next (
    if s.InRegion (s.resolveRegion rgn) s.args[0].toInt s.args[1].toInt then
      { s with
        status := s.status.finished
        res0 := (s.nibGet ((s.resolveRegion rgn).ox + s.args[0].toInt).toNat
          ((s.resolveRegion rgn).oy + s.args[1].toInt).toNat).setWidth 32
        res1 := 0 }
    else { s with status := s.status.failed .bounds }) := rfl

theorem execPoint_eq (rgn : Bool) (s : State) : execPoint rgn s = .next (match col4Operand s.args[2] with
    | none => { s with status := s.status.failed .arg }
    | some c => (State.plot (s.resolveRegion rgn) c s.startCommand (s.args[0].toInt, s.args[1].toInt)).completeCommand) := by
  unfold execPoint
  simp only [State.startCommand_args]
  cases col4Operand s.args[2] <;> rfl

theorem execLine_eq (rgn : Bool) (s : State) : execLine rgn s = .next (match col4Operand s.args[4] with
    | none => { s with status := s.status.failed .arg }
    | some c => ((linePoints s.args[0].toInt s.args[1].toInt s.args[2].toInt s.args[3].toInt).foldl
        (State.plot (s.resolveRegion rgn) c) s.startCommand).completeCommand) := by
  unfold execLine
  simp only [State.startCommand_args]
  cases col4Operand s.args[4] <;> rfl

theorem execDecode_eq (s : State) : execDecode s = .next (
    if s.args[0] ≠ s.width ∨ s.args[1] ≠ s.height then { s with status := s.status.failed .size }
    else if ¬ PaletteLegal s.palIn then { s with status := s.status.failed .palette }
    else if s.status.dirty = false ∧ s.palIn = s.cachePal then
      { s with status := { s.status.finished with hit := true } }
    else s.startCommand.recompute.completeCommand) := rfl

theorem execQuantize_eq (s : State) : execQuantize s = .next (
    if ¬ TemplateLegal s.template then { s with status := s.status.failed .template }
    else if usableSlots s.template = 0 then { s with status := s.status.failed .quant }
    else if s.ExceedsCapacity s.args[0] s.args[1] then { s with status := s.status.halted }
    else (s.startCommand.quantize s.args[0] s.args[1]).completeCommand) := rfl

end Sys2Proof.Machine
end

