-- ==== Sys2Proof/Laws/Encoding.lean ====
section
/-! SUPPORT. The fields of a CMD word and the word of its fields (30_encoding.md R91). -/

namespace Sys2Proof

theorem assembleCmd_cmdFields (c : Word) : assembleCmd (cmdFields c) = c := by
  apply BitVec.eq_of_getLsbD_eq
  intro j hj
  simp only [assembleCmd, cmdFields, BitVec.getLsbD_append, BitVec.getLsbD_extractLsb']
  by_cases h8 : j < 8
  · simp [h8]
  · simp only [h8, decide_false]
    by_cases h9 : j - 8 < 1
    · have : j = 8 := by omega
      subst this; simp
    · simp only [h9]
      have : j - 8 - 1 < 23 := by omega
      have e : 9 + (j - 8 - 1) = j := by omega
      simp [this, e]

theorem cmdFields_assembleCmd (f : CmdFields) : cmdFields (assembleCmd f) = f := by
  obtain ⟨r, g, o⟩ := f
  simp only [cmdFields, assembleCmd, CmdFields.mk.injEq]
  refine ⟨?_, ?_, ?_⟩
  · apply BitVec.eq_of_getLsbD_eq
    intro i hi
    simp only [BitVec.getLsbD_extractLsb', BitVec.getLsbD_append, hi]
    have h1 : ¬ 9 + i < 8 := by omega
    have h2 : ¬ 9 + i - 8 < 1 := by omega
    have h3 : 9 + i - 8 - 1 = i := by omega
    simp [h1, h2, h3]
  · rw [BitVec.getLsbD_append, BitVec.getLsbD_append]; simp
  · apply BitVec.eq_of_getLsbD_eq
    intro i hi
    simp only [BitVec.getLsbD_extractLsb', BitVec.getLsbD_append, hi]
    simp [hi]

/-- The fields of a command's word are the command's fields. -/
theorem cmdFields_encode (i : Instr) : cmdFields (encode i) = i.fields := cmdFields_assembleCmd _

end Sys2Proof
end

