-- ==== Sys2Proof/Laws/Step.lean ====
section
/-! SUPPORT. Everything a step can do: the engine's turn, a move of the host, or nothing (10_state.md R20). -/

namespace Sys2Proof.Machine

theorem step_engine {s : State} (h : s.engineTurn = true) : step s = engineStep s := by simp [step, h]

theorem step_idle {s : State} (h : s.engineTurn = false) (hh : s.host = []) : step s = .next s := by
  simp [step, h, hh]

theorem step_move {s : State} {op : HostOp} {rest : List HostOp} (h : s.engineTurn = false)
    (hh : s.host = op :: rest) :
    step s = if s.status.busy then ({ s with host := rest } : State).moveWhileBusy op
      else ({ s with host := rest } : State).moveWhileIdle op := by
  simp only [step, h, hh]; rfl

/-- Every step to a next state is one of three: the engine's atomic step, an idle step, or a move of the host. -/
theorem step_cases {s t : State} (h : step s = .next t) :
    (s.engineTurn = true ∧ engineStep s = .next t) ∨
    (s.engineTurn = false ∧ s.host = [] ∧ t = s) ∨
    (∃ op rest, s.engineTurn = false ∧ s.host = op :: rest ∧
      ((s.status.busy = true ∧ ({ s with host := rest } : State).moveWhileBusy op = .next t) ∨
       (s.status.busy = false ∧ ({ s with host := rest } : State).moveWhileIdle op = .next t))) := by
  cases he : s.engineTurn
  · cases hh : s.host with
    | nil =>
      rw [step_idle he hh] at h
      exact .inr (.inl ⟨rfl, rfl, by cases h; rfl⟩)
    | cons op rest =>
      rw [step_move he hh] at h
      refine .inr (.inr ⟨op, rest, rfl, rfl, ?_⟩)
      cases hb : s.status.busy
      · rw [hb] at h; exact .inr ⟨rfl, h⟩
      · rw [hb] at h; exact .inl ⟨rfl, h⟩
  · rw [step_engine he] at h
    exact .inl ⟨rfl, h⟩

/-- It is not the engine's turn while the host has a move to make that is no wait. -/
theorem State.engineTurn_of_move {s : State} {op : HostOp} {rest : List HostOp} (hh : s.host = op :: rest)
    (h : op ≠ .wait) : s.engineTurn = false := by
  cases op <;> simp_all [State.engineTurn]

/-- It is not the engine's turn while no command is latched. -/
theorem State.engineTurn_of_idle {s : State} (h : s.status.busy = false) : s.engineTurn = false := by
  simp [State.engineTurn, h]

end Sys2Proof.Machine
end

