-- ==== Sys2Proof/Laws/Quantizer.lean ====
section
/-! SUPPORT. What the operations of the quantizer can do (42_quantizer.md): the bitmap it stores, the nodes it keeps, and
the slots it gives them. -/

namespace Sys2Proof.Machine

/-! ### Step 11: the bitmap (R212) -/

/-- One pixel of step 11 changes the two planes at most. -/
theorem State.storePixel_frame (pixels : List Rgba) (q : QuantWork) (sw : Nat) (s : State) (p : Nat) :
    State.storePixel pixels q sw s p = { s with
      alpha := (State.storePixel pixels q sw s p).alpha, color := (State.storePixel pixels q sw s p).color } := by
  unfold State.storePixel
  split <;> rfl

/-- Step 11 changes the two planes and nothing else. -/
theorem State.foldl_storePixel_frame (pixels : List Rgba) (q : QuantWork) (sw : Nat) (l : List Nat) (s : State) :
    l.foldl (State.storePixel pixels q sw) s = { s with
      alpha := (l.foldl (State.storePixel pixels q sw) s).alpha
      color := (l.foldl (State.storePixel pixels q sw) s).color } := by
  refine foldl_invariant _ (fun t => t = { s with alpha := t.alpha, color := t.color }) l ?_ s rfl
  intro t ht p _
  rw [State.storePixel_frame, ht]

/-- The pixels that step 11 has stored after the first `n` of them: the opaque ones have their alpha bit and their
class's nibble, every other pixel is as before. -/
theorem State.foldl_storePixel_pixel (pixels : List Rgba) (q : QuantWork) (s : State) (n : Nat) {x y : Nat}
    (hx : x < s.w) :
    let t := (List.range n).foldl (State.storePixel pixels q s.w) s
    t.alphaGet x y = (if y * s.w + x < n ∧ (pixels.getD (y * s.w + x) ⟨0, 0, 0, 0⟩).opaquePixel = true then true
      else s.alphaGet x y) ∧
    t.nibGet x y = (if y * s.w + x < n ∧ (pixels.getD (y * s.w + x) ⟨0, 0, 0, 0⟩).opaquePixel = true then
      q.lut.getD (q.cls.getD (y * s.w + x) 0).toNat 0 else s.nibGet x y) := by
  induction n with
  | zero => simp
  | succ n ih =>
    simp only [List.range_succ, List.foldl_append, List.foldl_cons, List.foldl_nil]
    simp only at ih
    have hw : ((List.range n).foldl (State.storePixel pixels q s.w) s).w = s.w := by
      simp only [State.w]; rw [State.foldl_storePixel_frame]
    have hx' : x < ((List.range n).foldl (State.storePixel pixels q s.w) s).w := by rw [hw]; exact hx
    have hm : n % s.w < ((List.range n).foldl (State.storePixel pixels q s.w) s).w := by
      rw [hw]; exact Nat.mod_lt _ (by omega)
    have hn : (x = n % s.w ∧ y = n / s.w) ↔ y * s.w + x = n := by
      constructor
      · rintro ⟨rfl, rfl⟩; rw [Nat.mul_comm]; exact Nat.div_add_mod n s.w
      · rintro rfl
        constructor
        · rw [Nat.add_comm, Nat.add_mul_mod_self_right, Nat.mod_eq_of_lt hx]
        · rw [Nat.add_comm, Nat.add_mul_div_right _ _ (by omega), Nat.div_eq_of_lt hx, Nat.zero_add]
    rw [State.storePixel]
    by_cases ho : (pixels.getD n ⟨0, 0, 0, 0⟩).opaquePixel = true
    · rw [if_pos ho, State.alphaGet_setPixel _ _ hm (lt_alphaBits hx'),
        State.nibGet_setPixel _ _ hm (lt_colorNibbles hx'), ih.1, ih.2]
      simp only [hn]
      by_cases he : y * s.w + x = n
      · simp only [he, ho]; simp
      · have hlt : y * s.w + x < n + 1 ↔ y * s.w + x < n := by omega
        simp only [he, hlt, if_false, and_self]
    · rw [if_neg ho, ih.1, ih.2]
      by_cases he : y * s.w + x = n
      · simp only [he, ho]; simp
      · have hlt : y * s.w + x < n + 1 ↔ y * s.w + x < n := by omega
        simp only [hlt, and_self]

/-- Step 11 writes no padding: the bits and nibbles to the right of a row's pixels are as before (20_memory.md R68). -/
theorem State.foldl_storePixel_padding (pixels : List Rgba) (q : QuantWork) (s : State) (l : List Nat) {x y : Nat}
    (hx : s.w ≤ x) (hl : l ≠ [] → 0 < s.w) :
    (x < 8 * alphaRowBytes s.w → (l.foldl (State.storePixel pixels q s.w) s).alphaGet x y = s.alphaGet x y) ∧
    (x < 2 * colorRowBytes s.w → (l.foldl (State.storePixel pixels q s.w) s).nibGet x y = s.nibGet x y) := by
  have key := foldl_invariant (State.storePixel pixels q s.w) (fun t => t.w = s.w ∧
    (x < 8 * alphaRowBytes s.w → t.alphaGet x y = s.alphaGet x y) ∧
    (x < 2 * colorRowBytes s.w → t.nibGet x y = s.nibGet x y)) l ?_ s ⟨rfl, fun _ => rfl, fun _ => rfl⟩
  · exact key.2
  · rintro t ⟨hw, h1, h2⟩ p hp
    have hm : p % s.w < t.w := by rw [hw]; exact Nat.mod_lt _ (hl (List.ne_nil_of_mem hp))
    have hne : ¬ (x = p % s.w ∧ y = p / s.w) := fun h => by omega
    refine ⟨by simp only [State.w]; rw [State.storePixel_frame]; exact hw, fun h => ?_, fun h => ?_⟩
    · rw [State.storePixel]
      split
      · rw [State.alphaGet_setPixel _ _ hm (by rw [hw]; exact h), if_neg hne, h1 h]
      · exact h1 h
    · rw [State.storePixel]
      split
      · rw [State.nibGet_setPixel _ _ hm (by rw [hw]; exact h), if_neg hne, h2 h]
      · exact h2 h

/-- QUANTIZE past its checks changes the size, the bitmap, OUT, DIRTY, PAL_OUT and the working state, and nothing else
(R210). -/
theorem State.quantize_frame (s : State) (sw sh : Word) :
    s.quantize sw sh = { s with
      status := { s.status with dirty := true }
      width := sw
      height := sh
      alpha := (s.quantize sw sh).alpha
      color := (s.quantize sw sh).color
      out := Window.unspecified s.draws
      palOut := (s.quantize sw sh).palOut
      work := (s.quantize sw sh).work
      draws := s.draws + 1 } := by
  unfold State.quantize
  simp only [u32Operand]
  generalize quantizePixels s.template _ = result
  rw [State.foldl_storePixel_frame]
  rfl

/-- The pixels of the source image, in row-major order (R195). -/
def State.srcPixels (s : State) (n : Nat) : List Rgba := (List.range n).map s.srcPixel

theorem State.quantize_work (s : State) (sw sh : Word) :
    (s.quantize sw sh).work = (quantizePixels s.template (s.srcPixels (sw.toNat * sh.toNat))).1 := by
  unfold State.quantize
  simp only
  rw [State.foldl_storePixel_frame]
  simp only [State.createBitmap_work, State.srcPixels, u32Operand]

theorem State.quantize_palOut (s : State) (sw sh : Word) :
    (s.quantize sw sh).palOut =
      resolvedPalette (quantizePixels s.template (s.srcPixels (sw.toNat * sh.toNat))).2 := by
  unfold State.quantize
  simp only
  rw [State.foldl_storePixel_frame]
  simp only [State.createBitmap_palOut, State.srcPixels, u32Operand]

/-- The bitmap that QUANTIZE stores, pixel by pixel (R212). -/
theorem State.quantize_pixel (s : State) (sw sh : Word) {x y : Nat} (hx : x < sw.toNat) (hy : y < sh.toNat) :
    let q := (s.quantize sw sh).work
    let p := s.srcPixel (y * sw.toNat + x)
    (s.quantize sw sh).alphaGet x y = p.opaquePixel ∧
    (s.quantize sw sh).nibGet x y =
      if p.opaquePixel = true then q.lut.getD (q.cls.getD (y * sw.toNat + x) 0).toNat 0 else 0 := by
  have hp : y * sw.toNat + x < sw.toNat * sh.toNat := by
    rw [Nat.mul_comm sw.toNat]; exact rowOffset_lt hx hy
  have hget : ((List.range (sw.toNat * sh.toNat)).map s.srcPixel).getD (y * sw.toNat + x) ⟨0, 0, 0, 0⟩ =
      s.srcPixel (y * sw.toNat + x) := by
    simp [List.getD_eq_getElem?_getD, List.getElem?_range hp]
  simp only [s.quantize_work]
  unfold State.quantize
  simp only [u32Operand]
  generalize hq : quantizePixels s.template ((List.range (sw.toNat * sh.toNat)).map s.srcPixel) = result
  have hq' : quantizePixels s.template (s.srcPixels (sw.toNat * sh.toNat)) = result := hq
  rw [hq']
  generalize hu : ({ s with work := result.1, palOut := resolvedPalette result.2 } : State).createBitmap sw sh = u
  have huw : u.w = sw.toNat := by rw [← hu]; rfl
  have hux : x < u.w := by omega
  have h := State.foldl_storePixel_pixel ((List.range (sw.toNat * sh.toNat)).map s.srcPixel) result.1 u
    (sw.toNat * sh.toNat) (y := y) hux
  rw [huw] at h
  simp only [hget, hp, true_and] at h
  have hz := State.createBitmap_pixel { s with work := result.1, palOut := resolvedPalette result.2 } sw sh hx hy
  rw [hu] at hz
  rw [hz.1, hz.2] at h
  refine ⟨h.1.trans ?_, h.2⟩
  cases (s.srcPixel (y * sw.toNat + x)).opaquePixel <;> rfl

/-- QUANTIZE leaves the padding of the bitmap 0 (R212, 20_memory.md R68). -/
theorem State.quantize_padding (s : State) (sw sh : Word) {x y : Nat} (hx : sw.toNat ≤ x) (hy : y < sh.toNat) :
    (x < 8 * alphaRowBytes sw.toNat → (s.quantize sw sh).alphaGet x y = false) ∧
    (x < 2 * colorRowBytes sw.toNat → (s.quantize sw sh).nibGet x y = 0) := by
  unfold State.quantize
  simp only [u32Operand]
  generalize quantizePixels s.template _ = result
  generalize hu : ({ s with work := result.1, palOut := resolvedPalette result.2 } : State).createBitmap sw sh = u
  have huw : u.w = sw.toNat := by rw [← hu]; rfl
  have hz := State.createBitmap_zero { s with work := result.1, palOut := resolvedPalette result.2 } sw sh (x := x) hy
  rw [hu] at hz
  have h := State.foldl_storePixel_padding ((List.range (sw.toNat * sh.toNat)).map s.srcPixel) result.1 u
    (List.range (sw.toNat * sh.toNat)) (x := x) (y := y) (by omega) fun hne => by
      rw [huw]
      refine Nat.pos_of_ne_zero fun h0 => hne ?_
      rw [h0, Nat.zero_mul]; rfl
  rw [huw] at h
  exact ⟨fun hb => (h.1 hb).trans (hz.1 hb), fun hb => (h.2 hb).trans (hz.2 hb)⟩

end Sys2Proof.Machine
end

