-- ==== Sys2Proof/Laws/Outcomes.lean ====
section
/-! SUPPORT. Everything a command can do, said once: the thirteen shapes of the state that `exec` answers. -/

namespace Sys2Proof.Machine

/-- The next states of a command from `s`: an error, the halt, or a success of one of the shapes that 40_color_model.md to
44_drawing.md describe. -/
inductive CommandOutcome (i : Instr) (s : State) : State → Prop
  /-- A recoverable error (60_exceptions.md R302). -/
  | failed (c : ECode) (h : c ≠ .alloc) (h' : c ≠ .ok) : CommandOutcome i s { s with status := s.status.failed c }
  /-- The allocation failure (60_exceptions.md R306). -/
  | halted (h : i = .create ∨ i = .resize ∨ i = .quantize) : CommandOutcome i s { s with status := s.status.halted }
  /-- A result in RES0 and RES1. -/
  | result (lo hi : Word) (h : (∃ rgn, i = .getColor rgn) ∨ i ∈ [Instr.hw2rgb, .nearest, .gdist, .ldist]) :
    CommandOutcome i s { s with status := s.status.finished, res0 := lo, res1 := hi }
  /-- A success that writes STATUS only: NOP, and RESIZE to the current size. -/
  | unchanged (h : i = .nop ∨ i = .resize) : CommandOutcome i s { s with status := s.status.finished }
  /-- A cache hit of DECODE. -/
  | hit (h : i = .decode) (hd : s.status.dirty = false) :
    CommandOutcome i s { s with status := { s.status.finished with hit := true } }
  /-- A recomputing DECODE. -/
  | recomputed (h : i = .decode) (hp : PaletteLegal s.palIn) :
    CommandOutcome i s s.startCommand.recompute.completeCommand
  | created (h : i = .create) (hc : ¬ s.ExceedsCapacity s.args[0] s.args[1]) :
    CommandOutcome i s (s.startCommand.createBitmap s.args[0] s.args[1]).completeCommand
  | resized (h : i = .resize) (hc : ¬ s.ExceedsCapacity s.args[0] s.args[1]) :
    CommandOutcome i s (s.startCommand.resizeBitmap s.args[0] s.args[1]).completeCommand
  | quantized (h : i = .quantize) (ht : TemplateLegal s.template) (hu : usableSlots s.template ≠ 0)
      (hc : ¬ s.ExceedsCapacity s.args[0] s.args[1]) :
    CommandOutcome i s (s.startCommand.quantize s.args[0] s.args[1]).completeCommand
  | clearedFull (rgn : Bool) (c : SlotIx) (h : i = .clear rgn) :
    CommandOutcome i s (s.startCommand.clearFull c).completeCommand
  | clearedRegion (rgn : Bool) (c : SlotIx) (h : i = .clear rgn) :
    CommandOutcome i s (s.startCommand.clearRegion (s.resolveRegion rgn) c).completeCommand
  | clearedAlpha (h : i = .clearAlpha) : CommandOutcome i s (s.startCommand.fillAlpha 0).markDirty.completeCommand
  /-- POINT and LINE: a walk of plots. -/
  | plotted (r : Region) (c : SlotIx) (points : List (Int × Int))
      (h : (∃ rgn, i = .line rgn) ∨ ∃ rgn, i = .point rgn) :
    CommandOutcome i s (points.foldl (State.plot r c) s.startCommand).completeCommand

/-- Every next state of a command is one of the outcomes. -/
theorem exec_outcome {i : Instr} {s t : State} (h : exec i s = .next t) : CommandOutcome i s t := by
  cases i with
  | nop => cases h; exact .unchanged (.inl rfl)
  | clearAlpha => cases h; exact .clearedAlpha rfl
  | nearest => cases h; exact .result _ _ (by simp)
  | gdist => cases h; exact .result _ _ (by simp)
  | ldist => cases h; exact .result _ _ (by simp)
  | hw2rgb =>
    rw [exec, execHw2rgb_eq] at h
    injection h with h
    subst h
    cases hwc6Operand s.args[0]
    · exact .failed _ (by decide) (by decide)
    · exact .result _ _ (by simp)
  | create =>
    rw [exec, execCreate_eq] at h
    injection h with h
    subst h
    split_ifs with hc
    · exact .halted (by simp)
    · exact .created rfl hc
  | resize =>
    rw [exec, execResize_eq] at h
    injection h with h
    subst h
    split_ifs with _ hc
    · exact .unchanged (.inr rfl)
    · exact .halted (by simp)
    · exact .resized rfl hc
  | clear rgn =>
    rw [exec, execClear_eq] at h
    injection h with h
    subst h
    cases col4Operand s.args[0]
    · exact .failed _ (by decide) (by decide)
    · dsimp only
      split_ifs
      · exact .clearedFull rgn _ rfl
      · exact .clearedRegion rgn _ rfl
  | getColor rgn =>
    rw [exec, execGetColor_eq] at h
    injection h with h
    subst h
    split_ifs
    · exact .result _ _ (.inl ⟨rgn, rfl⟩)
    · exact .failed _ (by decide) (by decide)
  | quantize =>
    rw [exec, execQuantize_eq] at h
    injection h with h
    subst h
    split_ifs with ht hu hc
    · exact .failed _ (by decide) (by decide)
    · exact .halted (by simp)
    · exact .quantized rfl ht hu hc
    · exact .failed _ (by decide) (by decide)
  | decode =>
    rw [exec, execDecode_eq] at h
    injection h with h
    subst h
    split_ifs with _ hp hc
    · exact .failed _ (by decide) (by decide)
    · exact .hit rfl hc.1
    · exact .recomputed rfl hp
    · exact .failed _ (by decide) (by decide)
  | point rgn =>
    rw [exec, execPoint_eq] at h
    injection h with h
    subst h
    cases col4Operand s.args[2]
    · exact .failed _ (by decide) (by decide)
    · exact .plotted (s.resolveRegion rgn) _ [(s.args[0].toInt, s.args[1].toInt)] (.inr ⟨rgn, rfl⟩)
  | line rgn =>
    rw [exec, execLine_eq] at h
    injection h with h
    subst h
    cases col4Operand s.args[4]
    · exact .failed _ (by decide) (by decide)
    · exact .plotted (s.resolveRegion rgn) _ _ (.inl ⟨rgn, rfl⟩)
  | _ => cases h; exact .failed .unimpl (by decide) (by decide)

end Sys2Proof.Machine
end

