-- ==== Sys2Proof/Laws/Windows.lean ====
section
/-! SUPPORT. The operations on windows keep the canonical form and the extent of a window (Safety.lean, Memory.Within). -/

namespace Sys2Proof.Machine

theorem Memory.within_nil (n : Nat) : Memory.Within [] n := ⟨Memory.wf_nil, by simp⟩

theorem Memory.Within.write {m : Memory} {n a : Nat} (h : Memory.Within m n) (ha : a < n) (v : Byte) :
    Memory.Within (Memory.write m a v) n := by
  refine ⟨Memory.wf_write h.wf a v, fun x hx => ?_⟩
  rcases Memory.mem_write hx with rfl | hx
  · exact ha
  · exact h.below x hx

theorem Memory.within_tabulate (n : Nat) (f : Nat → Byte) : Memory.Within (Memory.tabulate n f) n :=
  ⟨Memory.wf_tabulate n f, fun _ hx => Memory.mem_tabulate hx⟩

theorem Memory.within_fill (n : Nat) (b : Byte) : Memory.Within (Memory.fill n b) n := Memory.within_tabulate n _

theorem Memory.isSome_lookup_fill {n a : Nat} (b : Byte) (h : a < n) : (Memory.lookup (Memory.fill n b) a).isSome := by
  simp [Memory.fill, h]

theorem Memory.isSome_lookup_write {m : Memory} {a b : Nat} (v : Byte) (h : (Memory.lookup m b).isSome) :
    (Memory.lookup (Memory.write m a v) b).isSome := by
  rw [Memory.lookup_write]; split
  · rfl
  · exact h

/-- Both planes are canonical and within their extents, and no ALPHA byte is open (10_state.md R34). -/
structure State.PlanesHeld (s : State) : Prop where
  alphaWithin : Memory.Within s.alpha.cells s.alphaSize
  colorWithin : Memory.Within s.color.cells s.colorSize
  alphaSpecified : ∀ a < s.alphaSize, (Memory.lookup s.alpha.cells a).isSome

theorem State.PlanesHeld.setPixel {s : State} (h : s.PlanesHeld) {x y : Nat} (hx : x < s.w) (hy : y < s.h)
    (c : SlotIx) : (s.setPixel x y c).PlanesHeld where
  alphaWithin := h.alphaWithin.write (State.alphaOffset_lt hx hy) _
  colorWithin := h.colorWithin.write (State.colorOffset_lt hx hy) _
  alphaSpecified := fun a ha => Memory.isSome_lookup_write _ (h.alphaSpecified a ha)

theorem State.PlanesHeld.plot {s : State} (h : s.PlanesHeld) (r : Region) (c : SlotIx) (p : Int × Int) :
    (State.plot r c s p).PlanesHeld := by
  rcases s.plot_cases r c p with ⟨hin, e⟩ | ⟨-, e⟩ <;> rw [e]
  · obtain ⟨h1, h2, h3⟩ := h.setPixel hin.lt.1 hin.lt.2 c
    exact ⟨h1, h2, h3⟩
  · exact h

theorem State.PlanesHeld.foldl_plot {s : State} (h : s.PlanesHeld) (r : Region) (c : SlotIx)
    (points : List (Int × Int)) : (points.foldl (State.plot r c) s).PlanesHeld :=
  foldl_invariant _ State.PlanesHeld points (fun _ ht p _ => ht.plot r c p) s h

theorem State.PlanesHeld.foldl_setPixel {s : State} (h : s.PlanesHeld) (c : SlotIx) (pixels : List (Nat × Nat))
    (hp : ∀ p ∈ pixels, p.1 < s.w ∧ p.2 < s.h) :
    (pixels.foldl (fun t p => t.setPixel p.1 p.2 c) s).PlanesHeld := by
  refine (foldl_invariant (fun (t : State) (p : Nat × Nat) => t.setPixel p.1 p.2 c)
    (fun t => t.PlanesHeld ∧ t.width = s.width ∧ t.height = s.height) pixels ?_ s ⟨h, rfl, rfl⟩).1
  rintro t ⟨ht, hw, hh⟩ p hm
  obtain ⟨h1, h2⟩ := hp p hm
  exact ⟨ht.setPixel (by rw [State.w, hw]; exact h1) (by rw [State.h, hh]; exact h2) c, hw, hh⟩

theorem State.PlanesHeld.clearRegion {s : State} (h : s.PlanesHeld) (r : Region) (c : SlotIx) :
    (s.clearRegion r c).PlanesHeld := by
  have hf := h.foldl_setPixel c (s.regionPixels r) fun p hp => by
    have := (s.mem_regionPixels r p.1 p.2).1 hp
    exact ⟨this.1, this.2.1⟩
  simp only [State.clearRegion]
  split
  · exact hf
  · exact ⟨hf.1, hf.2, hf.3⟩

theorem State.fillAlpha_planesHeld {s : State} (b : Byte) (h : Memory.Within s.color.cells s.colorSize) :
    (s.fillAlpha b).PlanesHeld where
  alphaWithin := Memory.within_fill _ b
  colorWithin := h
  alphaSpecified := fun _ ha => Memory.isSome_lookup_fill b ha

theorem State.createBitmap_planesHeld (s : State) (w h : Word) : (s.createBitmap w h).PlanesHeld where
  alphaWithin := Memory.within_fill _ 0
  colorWithin := Memory.within_fill _ 0
  alphaSpecified := fun _ ha => Memory.isSome_lookup_fill 0 ha

theorem State.resizeBitmap_planesHeld (s : State) (w h : Word) : (s.resizeBitmap w h).PlanesHeld where
  alphaWithin := Memory.within_fill _ 0
  colorWithin := Memory.within_nil _
  alphaSpecified := fun _ ha => Memory.isSome_lookup_fill 0 ha

theorem State.clearFull_planesHeld (s : State) (c : SlotIx) : (s.clearFull c).PlanesHeld where
  alphaWithin := Memory.within_fill _ 0xFF
  colorWithin := Memory.within_fill _ (c ++ c)
  alphaSpecified := fun _ ha => Memory.isSome_lookup_fill 0xFF ha

theorem State.quantize_planesHeld (s : State) (sw sh : Word) : (s.quantize sw sh).PlanesHeld := by
  unfold State.quantize
  simp only [u32Operand]
  generalize hq : quantizePixels s.template ((List.range (sw.toNat * sh.toNat)).map s.srcPixel) = result
  generalize hu : ({ s with work := result.1, palOut := resolvedPalette result.2 } : State) = u
  refine (foldl_invariant (State.storePixel ((List.range (sw.toNat * sh.toNat)).map s.srcPixel) result.1 sw.toNat)
    (fun t => t.PlanesHeld ∧ t.width = sw ∧ t.height = sh) _ ?_ (u.createBitmap sw sh)
    ⟨u.createBitmap_planesHeld sw sh, rfl, rfl⟩).1
  rintro t ⟨ht, hw, hh⟩ p hp
  unfold State.storePixel
  split
  · have hlt : p < sw.toNat * sh.toNat := List.mem_range.1 hp
    have hpos : 0 < sw.toNat := Nat.pos_of_ne_zero fun h0 => by simp [h0] at hlt
    refine ⟨ht.setPixel ?_ ?_ _, hw, hh⟩
    · rw [State.w, hw]; exact Nat.mod_lt _ hpos
    · rw [State.h, hh]; exact Nat.div_lt_of_lt_mul hlt
  · exact ⟨ht, hw, hh⟩

/-! ### Draw numbers: storing pixels leaves them as they are -/

theorem State.foldl_plot_draw (r : Region) (c : SlotIx) (points : List (Int × Int)) (s : State) :
    (points.foldl (State.plot r c) s).alpha.draw = s.alpha.draw ∧
      (points.foldl (State.plot r c) s).color.draw = s.color.draw :=
  Prod.mk.inj (foldl_keeps (State.plot r c) (fun t => (t.alpha.draw, t.color.draw))
    (fun t p => by
      rcases t.plot_cases r c p with ⟨-, e⟩ | ⟨-, e⟩
      · rw [e]; rfl
      · rw [e]) points s)

theorem State.clearRegion_draw (s : State) (r : Region) (c : SlotIx) :
    (s.clearRegion r c).alpha.draw = s.alpha.draw ∧ (s.clearRegion r c).color.draw = s.color.draw := by
  have h := foldl_keeps (fun (t : State) (p : Nat × Nat) => t.setPixel p.1 p.2 c)
    (fun t => (t.alpha.draw, t.color.draw)) (fun _ _ => rfl) (s.regionPixels r) s
  simp only [State.clearRegion]
  split <;> exact Prod.mk.inj h

theorem State.quantize_draw (s : State) (sw sh : Word) :
    (s.quantize sw sh).alpha.draw = s.alpha.draw ∧ (s.quantize sw sh).color.draw = s.color.draw := by
  unfold State.quantize
  simp only [u32Operand]
  generalize quantizePixels s.template _ = result
  exact Prod.mk.inj (foldl_keeps (State.storePixel ((List.range (sw.toNat * sh.toNat)).map s.srcPixel) result.1 sw.toNat)
    (fun t => (t.alpha.draw, t.color.draw)) (fun t p => by unfold State.storePixel; split <;> rfl) _ _)

theorem State.recompute_outWithin (s : State) : Memory.Within s.recompute.out.cells s.recompute.outSize :=
  Memory.within_tabulate _ _

/-! ### The host's writes to SRC -/

/-- Everything a host write of one byte does to SRC: the byte, when the block has it (20_memory.md R61, R77). -/
theorem State.writeSrc_byte (s : State) (a : Nat) (v : Byte) (b : Nat) :
    (s.writeSrc a v).src.byte b = if b = a ∧ a < s.srcSize then v else s.src.byte b := by
  rw [State.writeSrc_src]
  by_cases h : a < s.srcSize
  · simp [h, Window.byte_write]
  · simp [h]

/-- Beyond the window it changes nothing (log 8). -/
theorem State.writeSrc_outside {s : State} {a : Nat} (h : s.srcSize ≤ a) (v : Byte) : s.writeSrc a v = s := by
  rw [State.writeSrc, if_neg (Nat.not_lt.2 h)]

/-- Bytes of the host's writes to SRC stay within the window. -/
theorem State.writeSrc_within {s : State} (a : Nat) (h : Memory.Within s.src.cells s.srcSize) (v : Byte) :
    Memory.Within (s.writeSrc a v).src.cells s.srcSize := by
  rw [State.writeSrc_src]
  split
  · exact h.write ‹_› v
  · exact h

theorem State.writeSrc_draw (s : State) (a : Nat) (v : Byte) : (s.writeSrc a v).src.draw = s.src.draw := by
  rw [State.writeSrc_src]; split <;> rfl

@[simp] theorem State.writeSrc_srcSize (s : State) (a : Nat) (v : Byte) : (s.writeSrc a v).srcSize = s.srcSize := rfl

/-- Everything a host write of a word to SRC can do: its bytes stay within the window, and only SRC changes. -/
theorem State.writeWindowWord_src (s : State) (a : Nat) (v : Word) :
    let t := s.writeWindowWord .src a v
    t = { s with src := t.src } ∧ t.src.draw = s.src.draw ∧
      (Memory.Within s.src.cells s.srcSize → Memory.Within t.src.cells s.srcSize) := by
  simp only [State.writeWindowWord]
  generalize v.extractLsb' 0 8 = b0
  generalize v.extractLsb' 8 8 = b1
  generalize v.extractLsb' 16 8 = b2
  generalize v.extractLsb' 24 8 = b3
  have key : ∀ (u : State) (k : Nat) (b : Byte),
      u = { s with src := u.src } ∧ u.src.draw = s.src.draw ∧ u.srcSize = s.srcSize ∧
        (Memory.Within s.src.cells s.srcSize → Memory.Within u.src.cells s.srcSize) →
      u.writeSrc k b = { s with src := (u.writeSrc k b).src } ∧ (u.writeSrc k b).src.draw = s.src.draw ∧
        (u.writeSrc k b).srcSize = s.srcSize ∧
        (Memory.Within s.src.cells s.srcSize → Memory.Within (u.writeSrc k b).src.cells s.srcSize) := by
    rintro u k b ⟨e, hd, hs, hw⟩
    refine ⟨by rw [e]; rfl, by rw [State.writeSrc_draw, hd], hs, fun h => ?_⟩
    have := State.writeSrc_within (s := u) k (hs.symm ▸ hw h) b
    rwa [hs] at this
  obtain ⟨e, hd, -, hw⟩ := key _ (a + 3) b3 (key _ (a + 2) b2 (key _ (a + 1) b1 (key s a b0 ⟨rfl, rfl, rfl, id⟩)))
  exact ⟨e, hd, hw⟩

/-- Beyond the window a word changes nothing either. -/
theorem State.writeWindowWord_outside {s : State} {a : Nat} (h : s.srcSize ≤ a) (v : Word) :
    s.writeWindowWord .src a v = s := by
  simp only [State.writeWindowWord]
  rw [State.writeSrc_outside h, State.writeSrc_outside (Nat.le_add_right_of_le h),
    State.writeSrc_outside (Nat.le_add_right_of_le h), State.writeSrc_outside (Nat.le_add_right_of_le h)]

end Sys2Proof.Machine
end

