-- ==== Sys2Proof/Laws/Moves.lean ====
section
/-! SUPPORT. Everything a move of the host or the platform can do, said once. -/

namespace Sys2Proof.Machine

/-- The states that a move `op` leads to from `s`, the host's list already shortened. -/
inductive MoveOutcome (s : State) (op : HostOp) : State → Prop
  /-- A CMD write that starts a command (10_state.md R23). -/
  | started (v : Word) (hb : s.status.busy = false) (hf : s.status.fatal = false) :
    MoveOutcome s op { s with cmdLatch := v, status := { s.status with busy := true } }
  /-- A write to another register (R22). -/
  | wroteReg (r : Reg) (v : Word) (hr : r ≠ .cmd) (hb : s.status.busy = false) : MoveOutcome s op (s.writeReg r v)
  /-- An ignored access, or a wait that goes on. -/
  | ignored : MoveOutcome s op s
  /-- A read: the value for the host, and perhaps a draw. -/
  | answered (v : Word) (n : Nat) (hn : s.draws ≤ n) : MoveOutcome s op { s with hostData := v, draws := n }
  /-- A write to SRC inside the window (20_memory.md R61). -/
  | wroteSrc (w : Window) (h : Memory.Within s.src.cells s.srcSize → Memory.Within w.cells s.srcSize)
      (hd : w.draw = s.src.draw) :
    MoveOutcome s op { s with src := w }
  /-- The platform's reset. -/
  | reset (h : op = .reset) : MoveOutcome s op s.platformReset

theorem State.countHostDraw_draws_only (s : State) (sp : Space) (a n : Nat) :
    ∃ k, s.draws ≤ k ∧ s.countHostDraw sp a n = { s with draws := k } := by
  unfold State.countHostDraw
  split
  · exact ⟨s.draws, Nat.le_refl _, rfl⟩
  · exact ⟨s.draws + 1, Nat.le_succ _, rfl⟩

theorem State.countHostDraw_inside (s : State) {sp : Space} {a n : Nat} (h : a + n ≤ s.windowSize sp) :
    s.countHostDraw sp a n = s := if_pos h

theorem State.hostByte_inside (s : State) {sp : Space} {a : Nat} (h : a < s.windowSize sp) :
    s.hostByte sp a = (s.window sp).byte a := if_pos h

/-- Every next state of a move is one of the outcomes. -/
theorem move_outcome {s t : State} {op : HostOp}
    (h : (s.status.busy = true ∧ s.moveWhileBusy op = .next t) ∨
      (s.status.busy = false ∧ s.moveWhileIdle op = .next t)) : MoveOutcome s op t := by
  rcases h with ⟨hb, h⟩ | ⟨hb, h⟩
  · cases op with
    | wr off v =>
      simp only [State.moveWhileBusy] at h
      split at h <;> cases h
      rw [State.writeCmd, hb]
      simp only [if_true, ite_self]
      exact .ignored
    | rd off =>
      simp only [State.moveWhileBusy] at h
      split at h <;> cases h
      exact .answered _ _ (Nat.le_refl _)
    | reset => cases h; exact .reset rfl
    | wait => cases h; exact .ignored
    | _ => cases h
  · cases op with
    | wr off v =>
      simp only [State.moveWhileIdle] at h
      split at h <;> cases h
      rename_i r _
      by_cases hr : r = .cmd
      · subst hr
        rw [State.writeReg, State.writeCmd, hb]
        by_cases hf : s.status.fatal = true
        · rw [if_pos hf]; exact .ignored
        · rw [if_neg hf, if_neg (by decide)]; exact .started v hb (by simpa using hf)
      · exact .wroteReg r v hr hb
    | rd off =>
      simp only [State.moveWhileIdle] at h
      split at h <;> cases h
      exact .answered _ _ (Nat.le_refl _)
    | wrb sp a v =>
      cases sp
      · cases h; exact .wroteSrc _ (fun hm => State.writeSrc_within a hm v) (s.writeSrc_draw a v)
      all_goals (cases h; exact .ignored)
    | ww sp a v =>
      simp only [State.moveWhileIdle] at h
      split at h
      · cases sp
        · cases h
          obtain ⟨e, hd, hw⟩ := s.writeWindowWord_src a v
          rw [e]
          exact .wroteSrc _ hw hd
        all_goals (cases h; exact .ignored)
      · cases h
    | rdb sp a =>
      cases h
      obtain ⟨k, hn, hk⟩ := (s.returnToHost ((s.hostByte sp a).setWidth 32)).countHostDraw_draws_only sp a 1
      rw [State.readByte, hk]
      exact .answered _ _ hn
    | rdw sp a =>
      simp only [State.moveWhileIdle] at h
      split at h <;> cases h
      rw [State.readWindowWord]
      generalize s.hostByte sp (a + 3) ++ s.hostByte sp (a + 2) ++ s.hostByte sp (a + 1) ++ s.hostByte sp a = v
      obtain ⟨k, hn, hk⟩ := (s.returnToHost v).countHostDraw_draws_only sp a 4
      rw [hk]
      exact .answered _ _ hn
    | wait => cases h; exact .answered _ _ (Nat.le_refl _)
    | reset => cases h; exact .reset rfl

end Sys2Proof.Machine
end

