-- ==== Sys2Proof/Laws/Palettes.lean ====
section
/-! SUPPORT. Palette files: their slots, their words (10_state.md R30), and the checks over them (42_quantizer.md R192,
R193, 43_decoder.md R241). -/

namespace Sys2Proof.Machine

/-- Every slot is one of the sixteen. -/
theorem mem_allSlots (i : SlotIx) : i ∈ allSlots := by
  simp only [allSlots, List.mem_map, List.mem_range]
  exact ⟨i.toNat, i.isLt, by simp⟩

theorem nodup_allSlots : allSlots.Nodup := by decide

/-- Every colour is one of the sixty-four. -/
theorem mem_allColors (c : HwColor) : c ∈ allColors := by
  simp only [allColors, List.mem_map, List.mem_range]
  exact ⟨c.toNat, c.isLt, by simp⟩

theorem nodup_allColors : allColors.Nodup := by decide

theorem pairwise_allColors : allColors.Pairwise (fun a b => a.toNat < b.toNat) := by decide

theorem Palette.slot_ofSlots (f : SlotIx → Byte) (i : SlotIx) : Palette.slot (Palette.ofSlots f) i = f i := by
  obtain ⟨⟨n, hn⟩⟩ := i
  have : n < 16 := hn
  interval_cases n <;> rfl

/-- A palette file is its sixteen slots. -/
theorem Palette.ext_slot {p q : Palette} (h : ∀ i, Palette.slot p i = Palette.slot q i) : p = q := by
  apply Vector.ext
  intro i hi
  have := h (BitVec.ofNat 4 i)
  simpa [Palette.slot, Nat.mod_eq_of_lt hi] using this

theorem paletteLegal_iff (p : Palette) : PaletteLegal p ↔ ∀ i, (Palette.slot p i).toNat < 64 :=
  ⟨fun h i => h i (mem_allSlots i), fun h i _ => h i⟩

theorem templateLegal_iff (t : Palette) : TemplateLegal t ↔
    (∀ i, (Palette.slot t i).toNat < 64 ∨ Palette.slot t i = 0xFF ∨ Palette.slot t i = 0xFE) ∧
    (∀ i j, i ≠ j → (Palette.slot t i).toNat < 64 → Palette.slot t i ≠ Palette.slot t j) :=
  ⟨fun h => ⟨fun i => h.1 i (mem_allSlots i), fun i j => h.2 i (mem_allSlots i) j (mem_allSlots j)⟩,
    fun h => ⟨fun i _ => h.1 i, fun i _ j _ => h.2 i j⟩⟩

theorem usableSlots_eq_zero_iff (t : Palette) : usableSlots t = 0 ↔ ∀ i, Palette.slot t i = 0xFE := by
  simp only [usableSlots, List.countP_eq_zero, Config.sentUnused]
  constructor
  · intro h i; simpa using h i (mem_allSlots i)
  · intro h i _; simp [h i]

/-- Every byte of a resolved palette is a hardware colour (R209). -/
theorem resolvedPalette_legal (pal : Placement) : PaletteLegal (resolvedPalette pal) := by
  intro i _
  rw [resolvedPalette, Palette.slot_ofSlots]
  have := ((placedAt pal i).getD 0).isLt
  rw [BitVec.toNat_setWidth]
  omega

/-! ### Words -/

/-- The bytes of a word put together from four, the first in bits [7:0]. -/
theorem word_bytes (b3 b2 b1 b0 : Byte) :
    (b3 ++ b2 ++ b1 ++ b0).extractLsb' 0 8 = b0 ∧ (b3 ++ b2 ++ b1 ++ b0).extractLsb' 8 8 = b1 ∧
    (b3 ++ b2 ++ b1 ++ b0).extractLsb' 16 8 = b2 ∧ (b3 ++ b2 ++ b1 ++ b0).extractLsb' 24 8 = b3 := by
  refine ⟨?_, ?_, ?_, ?_⟩ <;>
    · apply BitVec.eq_of_getLsbD_eq
      intro i hi
      simp only [BitVec.getLsbD_extractLsb', BitVec.getLsbD_append, hi]
      norm_num
      split_ifs <;> first | omega | (congr 1; omega)

/-- A word is its four bytes put together again. -/
theorem word_of_bytes (v : Word) :
    v.extractLsb' 24 8 ++ v.extractLsb' 16 8 ++ v.extractLsb' 8 8 ++ v.extractLsb' 0 8 = v := by
  apply BitVec.eq_of_getLsbD_eq
  intro i hi
  have h3 : ¬ i < 24 → i - 8 - 8 - 8 < 8 := by omega
  simp only [BitVec.getLsbD_extractLsb', BitVec.getLsbD_append]
  split_ifs
  · simp only [*, decide_true, Bool.true_and]; congr 1; omega
  · simp only [*, decide_true, Bool.true_and]; congr 1; omega
  · simp only [*, decide_true, Bool.true_and]; congr 1; omega
  · rw [decide_eq_true (h3 (by omega)), Bool.true_and]; congr 1; omega

end Sys2Proof.Machine
end

