-- ==== Sys2Proof/Laws/PerInstr.lean ====
section
/-! SUPPORT. Statements for every command, one lemma for each constructor of Instr. -/

/-- The word of a command is a legal one (30_encoding.md R97): its reserved bits are 0, its opcode is in the map, and its
RGN bit is one the map allows. -/
def Sys2Proof.Laws.EncodeWellFormed.Statement (i : Sys2Proof.Instr) : Prop :=
  (Sys2Proof.cmdFields (Sys2Proof.encode i)).WellFormed

/-- The word of a command is legal when the command's fields are. -/
theorem Sys2Proof.Laws.EncodeWellFormed.of_fields {i : Sys2Proof.Instr} (h : i.fields.WellFormed) :
    Sys2Proof.Laws.EncodeWellFormed.Statement i := by
  rw [Sys2Proof.Laws.EncodeWellFormed.Statement, Sys2Proof.cmdFields_encode]
  exact h

theorem Sys2Proof.Laws.EncodeWellFormed.nop : Sys2Proof.Laws.EncodeWellFormed.Statement .nop := Sys2Proof.Laws.EncodeWellFormed.of_fields (by decide)

theorem Sys2Proof.Laws.EncodeWellFormed.hw2rgb : Sys2Proof.Laws.EncodeWellFormed.Statement .hw2rgb := Sys2Proof.Laws.EncodeWellFormed.of_fields (by decide)

theorem Sys2Proof.Laws.EncodeWellFormed.nearest : Sys2Proof.Laws.EncodeWellFormed.Statement .nearest := Sys2Proof.Laws.EncodeWellFormed.of_fields (by decide)

theorem Sys2Proof.Laws.EncodeWellFormed.gdist : Sys2Proof.Laws.EncodeWellFormed.Statement .gdist := Sys2Proof.Laws.EncodeWellFormed.of_fields (by decide)

theorem Sys2Proof.Laws.EncodeWellFormed.ldist : Sys2Proof.Laws.EncodeWellFormed.Statement .ldist := Sys2Proof.Laws.EncodeWellFormed.of_fields (by decide)

theorem Sys2Proof.Laws.EncodeWellFormed.create : Sys2Proof.Laws.EncodeWellFormed.Statement .create := Sys2Proof.Laws.EncodeWellFormed.of_fields (by decide)

theorem Sys2Proof.Laws.EncodeWellFormed.resize : Sys2Proof.Laws.EncodeWellFormed.Statement .resize := Sys2Proof.Laws.EncodeWellFormed.of_fields (by decide)

theorem Sys2Proof.Laws.EncodeWellFormed.clear (rgn : Bool) : Sys2Proof.Laws.EncodeWellFormed.Statement (.clear rgn) :=
  Sys2Proof.Laws.EncodeWellFormed.of_fields (by cases rgn <;> decide)

theorem Sys2Proof.Laws.EncodeWellFormed.clearAlpha : Sys2Proof.Laws.EncodeWellFormed.Statement .clearAlpha := Sys2Proof.Laws.EncodeWellFormed.of_fields (by decide)

theorem Sys2Proof.Laws.EncodeWellFormed.getColor (rgn : Bool) : Sys2Proof.Laws.EncodeWellFormed.Statement (.getColor rgn) :=
  Sys2Proof.Laws.EncodeWellFormed.of_fields (by cases rgn <;> decide)

theorem Sys2Proof.Laws.EncodeWellFormed.quantize : Sys2Proof.Laws.EncodeWellFormed.Statement .quantize := Sys2Proof.Laws.EncodeWellFormed.of_fields (by decide)

theorem Sys2Proof.Laws.EncodeWellFormed.decode : Sys2Proof.Laws.EncodeWellFormed.Statement .decode := Sys2Proof.Laws.EncodeWellFormed.of_fields (by decide)

theorem Sys2Proof.Laws.EncodeWellFormed.point (rgn : Bool) : Sys2Proof.Laws.EncodeWellFormed.Statement (.point rgn) :=
  Sys2Proof.Laws.EncodeWellFormed.of_fields (by cases rgn <;> decide)

theorem Sys2Proof.Laws.EncodeWellFormed.line (rgn : Bool) : Sys2Proof.Laws.EncodeWellFormed.Statement (.line rgn) :=
  Sys2Proof.Laws.EncodeWellFormed.of_fields (by cases rgn <;> decide)

theorem Sys2Proof.Laws.EncodeWellFormed.rect (rgn : Bool) : Sys2Proof.Laws.EncodeWellFormed.Statement (.rect rgn) :=
  Sys2Proof.Laws.EncodeWellFormed.of_fields (by cases rgn <;> decide)

theorem Sys2Proof.Laws.EncodeWellFormed.lineRect (rgn : Bool) : Sys2Proof.Laws.EncodeWellFormed.Statement (.lineRect rgn) :=
  Sys2Proof.Laws.EncodeWellFormed.of_fields (by cases rgn <;> decide)

theorem Sys2Proof.Laws.EncodeWellFormed.circle (rgn : Bool) : Sys2Proof.Laws.EncodeWellFormed.Statement (.circle rgn) :=
  Sys2Proof.Laws.EncodeWellFormed.of_fields (by cases rgn <;> decide)

theorem Sys2Proof.Laws.EncodeWellFormed.ellipse (rgn : Bool) : Sys2Proof.Laws.EncodeWellFormed.Statement (.ellipse rgn) :=
  Sys2Proof.Laws.EncodeWellFormed.of_fields (by cases rgn <;> decide)

theorem Sys2Proof.Laws.EncodeWellFormed.ellipseQb (rgn : Bool) : Sys2Proof.Laws.EncodeWellFormed.Statement (.ellipseQb rgn) :=
  Sys2Proof.Laws.EncodeWellFormed.of_fields (by cases rgn <;> decide)

theorem Sys2Proof.Laws.EncodeWellFormed.text (rgn : Bool) : Sys2Proof.Laws.EncodeWellFormed.Statement (.text rgn) :=
  Sys2Proof.Laws.EncodeWellFormed.of_fields (by cases rgn <;> decide)
end

