-- ==== Sys2Proof/Laws/Ranking.lean ====
section
/-! SUPPORT. Stable sorting, and the ranking of the nodes by distance (42_quantizer.md R198). -/

namespace Sys2Proof.Machine

/-! ### Stable insertion -/

theorem insertSorted_perm {α : Type} (precedes : α → α → Bool) (x : α) (l : List α) :
    (insertSorted precedes x l).Perm (x :: l) := by
  induction l with
  | nil => exact List.Perm.refl _
  | cons y ys ih =>
    simp only [insertSorted]
    split
    · exact List.Perm.refl _
    · exact (ih.cons y).trans (List.Perm.swap x y ys)

theorem sortStable_perm {α : Type} (precedes : α → α → Bool) (l : List α) : (sortStable precedes l).Perm l := by
  have key : ∀ (l acc : List α), (l.foldl (fun sorted x => insertSorted precedes x sorted) acc).Perm (acc ++ l) := by
    intro l
    induction l with
    | nil => intro acc; simp
    | cons x l ih =>
      intro acc
      rw [List.foldl_cons]
      exact (ih _).trans (((insertSorted_perm precedes x acc).append_right l).trans List.perm_middle.symm)
  have h := key l []
  rw [List.nil_append] at h
  exact h

/-- Inserting keeps a list in order, when the order holds between each element and what follows it: `precedes`, or else
arrival before the new element. -/
theorem insertSorted_pairwise {α : Type} {precedes : α → α → Bool} {before : α → α → Prop}
    (trans : ∀ {a b c}, before a b → before b c → before a c) {x : α} {l : List α}
    (hp : ∀ y ∈ l, precedes x y = true → before x y) (hn : ∀ y ∈ l, precedes x y = false → before y x)
    (h : l.Pairwise before) : (insertSorted precedes x l).Pairwise before := by
  induction l with
  | nil => simp [insertSorted]
  | cons y ys ih =>
    obtain ⟨h1, h2⟩ := List.pairwise_cons.1 h
    simp only [insertSorted]
    split
    · next hxy =>
      have hb := hp y List.mem_cons_self hxy
      refine List.pairwise_cons.2 ⟨fun z hz => ?_, h⟩
      rcases List.mem_cons.1 hz with rfl | hz
      · exact hb
      · exact trans hb (h1 z hz)
    · next hxy =>
      refine List.pairwise_cons.2 ⟨fun z hz => ?_,
        ih (fun z hz => hp z (List.mem_cons_of_mem _ hz)) (fun z hz => hn z (List.mem_cons_of_mem _ hz)) h2⟩
      rcases List.mem_cons.1 ((insertSorted_perm precedes x ys).subset hz) with rfl | hz
      · exact hn y List.mem_cons_self (by simpa using hxy)
      · exact h1 z hz

/-- A stable sort by an integer key: the keys rise, and equal keys stand in the order `arrives` of the input. -/
theorem sortStable_pairwise {α : Type} {precedes : α → α → Bool} (key : α → Int) {arrives : α → α → Prop}
    (hk : ∀ x y, precedes x y = true ↔ key x < key y) (atrans : ∀ {a b c}, arrives a b → arrives b c → arrives a c)
    {l : List α} (h : l.Pairwise arrives) :
    (sortStable precedes l).Pairwise (fun a b => key a < key b ∨ (key a = key b ∧ arrives a b)) := by
  have step : ∀ (l acc : List α), (∀ a ∈ acc, ∀ x ∈ l, arrives a x) → l.Pairwise arrives →
      acc.Pairwise (fun a b => key a < key b ∨ (key a = key b ∧ arrives a b)) →
      (l.foldl (fun sorted x => insertSorted precedes x sorted) acc).Pairwise
        (fun a b => key a < key b ∨ (key a = key b ∧ arrives a b)) := by
    intro l
    induction l with
    | nil => intro acc _ _ h; exact h
    | cons x l ih =>
      intro acc h1 h2 h3
      rw [List.foldl_cons]
      obtain ⟨hx, hl⟩ := List.pairwise_cons.1 h2
      apply ih
      · intro a ha y hy
        rcases List.mem_cons.1 ((insertSorted_perm precedes x acc).subset ha) with rfl | ha
        · exact hx y hy
        · exact h1 a ha y (List.mem_cons_of_mem _ hy)
      · exact hl
      · refine insertSorted_pairwise ?_ ?_ ?_ h3
        · intro a b c hab hbc
          rcases hab with h | ⟨h, h'⟩ <;> rcases hbc with h2 | ⟨h2, h2'⟩
          · exact .inl (h.trans h2)
          · exact .inl (h2 ▸ h)
          · exact .inl (h ▸ h2)
          · exact .inr ⟨h.trans h2, atrans h' h2'⟩
        · intro y _ hxy; exact .inl ((hk x y).1 hxy)
        · intro y hy hxy
          have : ¬ key x < key y := fun hlt => by rw [(hk x y).2 hlt] at hxy; cases hxy
          rcases Int.lt_or_eq_of_le (Int.not_lt.1 this) with h | h
          · exact .inl h
          · exact .inr ⟨h, h1 y hy x List.mem_cons_self⟩
  exact step l [] (by simp) h List.Pairwise.nil

/-! ### The ranked lists -/

theorem tableAt_distanceTable (n t : HwColor) : tableAt distanceTable n t = gdist (rgb n) (rgb t) := by
  have h : ∀ {β : Type} (f : HwColor → β) (d : β) (c : HwColor), (allColors.map f).getD c.toNat d = f c := by
    intro β f d c
    have hc : c.toNat < 64 := c.isLt
    simp [allColors, List.getD_eq_getElem?_getD, List.getElem?_map, List.getElem?_range hc]
  rw [tableAt, distanceTable, h (fun n => allColors.map fun t => gdist (rgb n) (rgb t)), h (fun t => gdist (rgb n) (rgb t))]

/-- Node `m` comes before node `n` in the list of target `t`: closer, or equally close with the lower id (R198). -/
def RanksBefore (t m n : HwColor) : Prop :=
  Binary64.lt (gdist (rgb m) (rgb t)) (gdist (rgb n) (rgb t)) = true ∨
    (Binary64.lt (gdist (rgb n) (rgb t)) (gdist (rgb m) (rgb t)) = false ∧ m.toNat < n.toNat)

theorem rankedNodes_perm (dist : List (List F64)) (t : HwColor) : (rankedNodes dist t).Perm allColors :=
  sortStable_perm _ _

theorem mem_rankedNodes (dist : List (List F64)) (t n : HwColor) : n ∈ rankedNodes dist t :=
  (rankedNodes_perm dist t).symm.subset (mem_allColors n)

theorem rankedNodes_pairwise (t : HwColor) : (rankedNodes distanceTable t).Pairwise (RanksBefore t) := by
  have h := sortStable_pairwise (precedes := fun x y => Binary64.lt (tableAt distanceTable x t) (tableAt distanceTable y t))
    (fun x => Binary64.value (tableAt distanceTable x t)) (arrives := fun a b : HwColor => a.toNat < b.toNat)
    (fun x y => by simp [Binary64.lt]) (fun h1 h2 => h1.trans h2) pairwise_allColors
  refine h.imp fun {a b} hab => ?_
  simp only [tableAt_distanceTable] at hab
  unfold RanksBefore Binary64.lt
  rcases hab with h | ⟨h, h'⟩
  · exact .inl (decide_eq_true h)
  · exact .inr ⟨decide_eq_false (by omega), h'⟩

end Sys2Proof.Machine
end

