-- ==== Sys2Proof/Laws/Reduction.lean ====
section
/-! SUPPORT. Steps 4 to 7 of the quantizer: the pinned nodes, the removals, and the number of nodes that remain
(42_quantizer.md R197 to R202). -/

namespace Sys2Proof.Machine

/-! ### Entries of the sixty-four-entry lists -/

theorem getD_map_allColors {β : Type} (f : HwColor → β) (d : β) (c : HwColor) :
    (allColors.map f).getD c.toNat d = f c := by
  have hc : c.toNat < 64 := c.isLt
  simp [allColors, List.getD_eq_getElem?_getD, List.getElem?_map, List.getElem?_range hc]

theorem getD_set {β : Type} (l : List β) (i j : Nat) (v d : β) (hi : i < l.length) :
    (l.set i v).getD j d = if j = i then v else l.getD j d := by
  simp only [List.getD_eq_getElem?_getD, List.getElem?_set]
  by_cases h : i = j
  · subst h; simp [hi]
  · have : j ≠ i := fun e => h e.symm
    simp [h, this]

theorem getD_replicate {β : Type} (n i : Nat) (v d : β) (hi : i < n) : (List.replicate n v).getD i d = v := by
  simp [List.getD_eq_getElem?_getD, hi]

/-- A list of sixty-four entries, read off by colour. -/
theorem eq_map_allColors {β : Type} (l : List β) (d : β) (h : l.length = 64) :
    l = allColors.map fun c => l.getD c.toNat d := by
  apply List.ext_getElem
  · simp [allColors, h]
  · intro i h1 h2
    have hi : i < 64 := by omega
    simp [allColors, Nat.mod_eq_of_lt hi, List.getD_eq_getElem?_getD, List.getElem?_eq_getElem h1]

theorem toNat_ne {m n : HwColor} (h : m ≠ n) : m.toNat ≠ n.toNat := fun e => h (BitVec.eq_of_toNat_eq e)

/-! ### Pinned colours (R193, R197) -/

theorem slot_eq_setWidth_iff (b : Byte) (c : HwColor) : b = c.setWidth 8 ↔ b.toNat = c.toNat := by
  have hc := c.isLt
  constructor
  · rintro rfl; rw [BitVec.toNat_setWidth]; omega
  · intro h; apply BitVec.eq_of_toNat_eq; rw [BitVec.toNat_setWidth]; omega

/-- `FSLOT[c] = i` exactly when slot `i` of a legal template is pinned to `c`. -/
theorem forcedSlots_getD {t : Palette} (ht : TemplateLegal t) (c : HwColor) (i : SlotIx) :
    (forcedSlots t).getD c.toNat none = some i ↔ Palette.slot t i = c.setWidth 8 := by
  have hleg := (templateLegal_iff t).1 ht
  have key : ∀ (l : List SlotIx) (f : List (Option SlotIx)), f.length = 64 →
      ((l.foldl (fun f i => if (Palette.slot t i).toNat < 64 then f.set (Palette.slot t i).toNat (some i) else f) f).getD
          c.toNat none = some i ↔
        (i ∈ l ∧ Palette.slot t i = c.setWidth 8) ∨
          (f.getD c.toNat none = some i ∧ ∀ j ∈ l, Palette.slot t j ≠ c.setWidth 8)) := by
    intro l
    induction l with
    | nil => intro f _; simp
    | cons j l ih =>
      intro f hf
      rw [List.foldl_cons]
      by_cases hj : (Palette.slot t j).toNat < 64
      · rw [if_pos hj, ih _ (by simp [hf]), getD_set _ _ _ _ _ (by omega)]
        by_cases hc : Palette.slot t j = c.setWidth 8
        · have hcj : c.toNat = (Palette.slot t j).toNat := ((slot_eq_setWidth_iff _ _).1 hc).symm
          rw [if_pos hcj]
          by_cases hij : i = j
          · subst hij
            simp only [hc, true_and, List.mem_cons, true_or, iff_true]
            by_cases hm : i ∈ l
            · exact .inl ⟨hm, trivial⟩
            · refine .inr fun k hk hkc => ?_
              have hne : k ≠ i := fun e => hm (e ▸ hk)
              exact hleg.2 k i hne (by rw [hkc, ← hc]; exact hj) (hkc.trans hc.symm)
          · have hic : Palette.slot t i ≠ c.setWidth 8 := fun e =>
              hleg.2 j i (fun e => hij e.symm) hj (hc.trans e.symm)
            simp [hic, hc, Ne.symm hij]
        · have hcj : c.toNat ≠ (Palette.slot t j).toNat := fun e => hc ((slot_eq_setWidth_iff _ _).2 e.symm)
          rw [if_neg hcj]
          simp only [List.mem_cons, forall_eq_or_imp]
          constructor
          · rintro (⟨h1, h2⟩ | ⟨h1, h2⟩)
            · exact .inl ⟨.inr h1, h2⟩
            · exact .inr ⟨h1, hc, h2⟩
          · rintro (⟨rfl | h1, h2⟩ | ⟨h1, -, h2⟩)
            · exact absurd h2 hc
            · exact .inl ⟨h1, h2⟩
            · exact .inr ⟨h1, h2⟩
      · have hc : Palette.slot t j ≠ c.setWidth 8 := fun e => by
          have := (slot_eq_setWidth_iff _ _).1 e
          have := c.isLt
          omega
        rw [if_neg hj, ih f hf]
        simp only [List.mem_cons, forall_eq_or_imp]
        constructor
        · rintro (⟨h1, h2⟩ | ⟨h1, h2⟩)
          · exact .inl ⟨.inr h1, h2⟩
          · exact .inr ⟨h1, hc, h2⟩
        · rintro (⟨rfl | h1, h2⟩ | ⟨h1, -, h2⟩)
          · exact absurd h2 hc
          · exact .inl ⟨h1, h2⟩
          · exact .inr ⟨h1, h2⟩
  have hnone : (List.replicate 64 (none : Option SlotIx)).getD c.toNat none ≠ some i := by
    rw [getD_replicate _ _ _ _ c.isLt]; simp
  unfold forcedSlots
  rw [key _ _ (by simp)]
  constructor
  · rintro (h | h)
    · exact h.2
    · exact absurd h.1 hnone
  · intro h; exact .inl ⟨mem_allSlots i, h⟩

theorem length_forcedSlots (t : Palette) : (forcedSlots t).length = 64 :=
  foldl_keeps _ List.length (fun f i => by split <;> simp) allSlots _

/-- The number of colours a legal template pins is the number of its pinned slots. -/
theorem count_pinned {t : Palette} (ht : TemplateLegal t) :
    allColors.countP (fun c => ((forcedSlots t).getD c.toNat none).isSome) =
      allSlots.countP (fun i => decide ((Palette.slot t i).toNat < 64)) := by
  have hleg := (templateLegal_iff t).1 ht
  simp only [List.countP_eq_length_filter]
  have hperm : (allColors.filter fun c => ((forcedSlots t).getD c.toNat none).isSome).Perm
      ((allSlots.filter fun i => decide ((Palette.slot t i).toNat < 64)).map fun i => (Palette.slot t i).setWidth 6) := by
    rw [List.perm_ext_iff_of_nodup (nodup_allColors.filter _)]
    · intro c
      simp only [List.mem_filter, mem_allColors, true_and, List.mem_map, mem_allSlots, decide_eq_true_eq,
        Option.isSome_iff_exists, forcedSlots_getD ht]
      constructor
      · rintro ⟨i, hi⟩
        have h := (slot_eq_setWidth_iff _ _).1 hi
        have hc := c.isLt
        exact ⟨i, by omega, by apply BitVec.eq_of_toNat_eq; rw [BitVec.toNat_setWidth]; omega⟩
      · rintro ⟨i, hi, rfl⟩
        exact ⟨i, (slot_eq_setWidth_iff _ _).2 (by rw [BitVec.toNat_setWidth]; omega)⟩
    · rw [List.nodup_map_iff_inj_on (nodup_allSlots.filter _)]
      intro i hi j hj he
      have h1 := of_decide_eq_true (List.mem_filter.1 hi).2
      have h2 := of_decide_eq_true (List.mem_filter.1 hj).2
      by_contra hne
      refine hleg.2 i j hne h1 (BitVec.eq_of_toNat_eq ?_)
      have := congrArg BitVec.toNat he
      rw [BitVec.toNat_setWidth, BitVec.toNat_setWidth] at this
      omega
  rw [hperm.length_eq, List.length_map]

/-- The usable slots of a legal template are its pinned and its free ones. -/
theorem usableSlots_eq {t : Palette} (ht : TemplateLegal t) :
    usableSlots t = allSlots.countP (fun i => decide ((Palette.slot t i).toNat < 64)) +
      allSlots.countP (fun i => Palette.slot t i == Config.sentUndefined) := by
  have hleg := ((templateLegal_iff t).1 ht).1
  unfold usableSlots
  induction allSlots with
  | nil => rfl
  | cons i l ih =>
    simp only [List.countP_cons, ih]
    rcases hleg i with h | h | h
    · have h1 : Palette.slot t i ≠ 0xFF := fun e => by rw [e] at h; exact absurd h (by decide)
      have h2 : Palette.slot t i ≠ 0xFE := fun e => by rw [e] at h; exact absurd h (by decide)
      simp only [Config.sentUndefined, Config.sentUnused, h, decide_true, if_true, beq_iff_eq, bne_iff_ne, ne_eq, h1, h2,
        not_false_eq_true, if_false]
      omega
    · simp [h, Config.sentUndefined, Config.sentUnused]; omega
    · simp [h, Config.sentUndefined, Config.sentUnused]

theorem usableSlots_le (t : Palette) : usableSlots t ≤ 16 := List.countP_le_length

/-! ### The working state of steps 5 to 7 -/

/-- What steps 6 and 7 keep: every list holds exactly the alive nodes in the order of R198 (R200), and a node that is
not removable is alive. -/
structure QuantWork.Consistent (q : QuantWork) : Prop where
  aliveLength : q.alive.length = 64
  listLength : q.list.length = 64
  lists : ∀ t, q.targetList t = (rankedNodes distanceTable t).filter q.isAlive
  pinned : ∀ n, q.isRemovable n = false → q.isAlive n = true

theorem QuantWork.aliveCount_eq {q : QuantWork} (h : q.Consistent) : q.aliveCount = allColors.countP q.isAlive := by
  rw [QuantWork.aliveCount, eq_map_allColors q.alive false h.aliveLength, List.countP_map]
  rfl

theorem buildWork_isAlive (t : Palette) (pixels : List Rgba) (n : HwColor) : (buildWork t pixels).isAlive n = true := by
  rw [QuantWork.isAlive, buildWork]
  exact getD_replicate 64 n.toNat true false n.isLt

theorem buildWork_isRemovable (t : Palette) (pixels : List Rgba) (n : HwColor) :
    (buildWork t pixels).isRemovable n = ((forcedSlots t).getD n.toNat none).isNone := by
  have hn : n.toNat < (forcedSlots t).length := by rw [length_forcedSlots]; exact n.isLt
  simp [QuantWork.isRemovable, buildWork, List.getD_eq_getElem?_getD, List.getElem?_map, List.getElem?_eq_getElem hn]

/-- Step 5 starts with sixty-four nodes and the ranked lists. -/
theorem buildWork_consistent (t : Palette) (pixels : List Rgba) : (buildWork t pixels).Consistent where
  aliveLength := by simp [buildWork]
  listLength := by simp [buildWork, allColors]
  lists := fun c => by
    have h : (buildWork t pixels).targetList c = rankedNodes distanceTable c := getD_map_allColors _ _ _
    rw [h, List.filter_eq_self.2]
    intro n _
    exact buildWork_isAlive t pixels n
  pinned := fun n _ => buildWork_isAlive t pixels n

theorem buildWork_aliveCount (t : Palette) (pixels : List Rgba) : (buildWork t pixels).aliveCount = 64 := by
  simp [QuantWork.aliveCount, buildWork]

/-- A change of costs changes nothing else. -/
theorem QuantWork.Consistent.withCost {q : QuantWork} (h : q.Consistent) (cost : List F64) :
    ({ q with cost := cost } : QuantWork).Consistent := ⟨h.1, h.2, h.3, h.4⟩

/-- `CNT` (R196): the opaque pixels by the hardware colour nearest to them. -/
theorem buildWork_cnt (t : Palette) (pixels : List Rgba) (c : HwColor) :
    (buildWork t pixels).cnt.getD c.toNat 0 = pixels.countP fun p => p.a == 255 && nearest p == c := by
  have h : (buildWork t pixels).cnt = allColors.map (classCount pixels (pixels.map classOf)) := rfl
  rw [h, getD_map_allColors, classCount, List.zip_map_right]
  clear h
  induction pixels with
  | nil => rfl
  | cons p l ih =>
    simp only [List.zip_cons_cons, List.map_cons, List.countP_cons, ih]
    have e : (p.opaquePixel && classOf p == c) = (p.a == 255 && nearest p == c) := by
      unfold classOf
      cases ho : p.opaquePixel
      · have h : (p.a == 255) = false := ho
        rw [h]; rfl
      · have h : (p.a == 255) = true := ho
        rw [h]; rfl
    simp only [Prod.map, id_eq, e]

/-- The lists of step 5 (R198): all sixty-four nodes, by distance, then by id. -/
theorem buildWork_targetList (t : Palette) (pixels : List Rgba) (c : HwColor) :
    ((buildWork t pixels).targetList c).Perm allColors ∧ ((buildWork t pixels).targetList c).Pairwise (RanksBefore c) := by
  have h : (buildWork t pixels).targetList c = rankedNodes distanceTable c := getD_map_allColors _ _ _
  rw [h]
  exact ⟨rankedNodes_perm _ _, rankedNodes_pairwise c⟩

/-! ### Costs (R199) -/

theorem QuantWork.length_targetList {q : QuantWork} (h : q.Consistent) (t : HwColor) :
    (q.targetList t).length = q.aliveCount := by
  rw [h.lists, ← List.countP_eq_length_filter, (rankedNodes_perm _ _).countP_eq, q.aliveCount_eq h]

/-- The cost that the quantizer computes is the sum of R199, while two nodes are alive. -/
theorem QuantWork.removalCost_eq {q : QuantWork} (h : q.Consistent) (h2 : 2 ≤ q.aliveCount) (n : HwColor) :
    q.removalCost n = q.weightedCost n := by
  unfold QuantWork.removalCost QuantWork.weightedCost
  rw [List.foldl_filter]
  refine congrFun (congrFun (congrArg _ ?_) _) _
  funext s t
  have hl := q.length_targetList h t
  unfold QuantWork.addTargetCost
  rcases hq : q.targetList t with _ | ⟨a, _ | ⟨b, l⟩⟩
  · rw [hq] at hl; simp at hl; omega
  · rw [hq] at hl; simp at hl; omega
  · simp

/-! ### Removal (R200) -/

theorem QuantWork.removeNode_isAlive {q : QuantWork} (h : q.Consistent) (n m : HwColor) :
    (q.removeNode n).isAlive m = if m = n then false else q.isAlive m := by
  have hn : n.toNat < q.alive.length := by rw [h.aliveLength]; exact n.isLt
  unfold QuantWork.isAlive QuantWork.removeNode
  simp only [getD_set _ _ _ _ _ hn]
  by_cases hm : m = n
  · subst hm; simp
  · simp [hm, toNat_ne hm]

theorem QuantWork.Consistent.removeNode {q : QuantWork} (h : q.Consistent) {n : HwColor}
    (hr : q.isRemovable n = true) : (q.removeNode n).Consistent where
  aliveLength := by simp [QuantWork.removeNode, h.aliveLength]
  listLength := by simp [QuantWork.removeNode, h.listLength]
  lists := fun t => by
    have ht : t.toNat < q.list.length := by rw [h.listLength]; exact t.isLt
    have e : (q.removeNode n).targetList t = (q.targetList t).filter (· != n) := by
      simp [QuantWork.targetList, QuantWork.removeNode, List.getD_eq_getElem?_getD, List.getElem?_map,
        List.getElem?_eq_getElem ht]
    rw [e, h.lists, List.filter_filter]
    congr 1
    funext m
    rw [q.removeNode_isAlive h]
    by_cases hm : m = n
    · simp [hm]
    · simp [hm]
  pinned := fun m hm => by
    have hm' : q.isRemovable m = false := hm
    have hne : m ≠ n := fun e => by rw [e, hr] at hm'; cases hm'
    rw [q.removeNode_isAlive h, if_neg hne]
    exact h.pinned m hm'

theorem QuantWork.aliveCount_removeNode {q : QuantWork} (h : q.Consistent) {n : HwColor} (hr : q.isRemovable n = true)
    (ha : q.isAlive n = true) : (q.removeNode n).aliveCount + 1 = q.aliveCount := by
  rw [(q.removeNode n).aliveCount_eq (h.removeNode hr), q.aliveCount_eq h]
  simp only [List.countP_eq_length_filter]
  have e : allColors.filter (q.removeNode n).isAlive = (allColors.filter q.isAlive).erase n := by
    rw [(nodup_allColors.filter _).erase_eq_filter, List.filter_filter]
    congr 1
    funext m
    rw [q.removeNode_isAlive h]
    by_cases hm : m = n
    · simp [hm]
    · simp [hm]
  have hmem : n ∈ allColors.filter q.isAlive := List.mem_filter.2 ⟨mem_allColors n, ha⟩
  rw [e, List.length_erase_of_mem hmem]
  have := List.length_pos_of_mem hmem
  omega

/-! ### Step 6 (R201) -/

/-- The turns of a list of nodes: costs only, and the best so far. -/
theorem foldl_candidateTurn (q : QuantWork) : ∀ (l : List HwColor) (qb : QuantWork × Option HwColor),
    qb.1 = { q with cost := qb.1.cost } →
    (∀ n, qb.2 = some n → q.isAlive n = true ∧ q.isRemovable n = true) →
    let r := l.foldl candidateTurn qb
    r.1 = { q with cost := r.1.cost } ∧
    (∀ n, r.2 = some n → q.isAlive n = true ∧ q.isRemovable n = true) ∧
    (r.2 = none → qb.2 = none ∧ ∀ n ∈ l, ¬ (q.isAlive n = true ∧ q.isRemovable n = true)) := by
  intro l
  induction l with
  | nil => intro qb h1 h2; exact ⟨h1, h2, fun h => ⟨h, by simp⟩⟩
  | cons m l ih =>
    rintro ⟨u, b⟩ h1 h2
    simp only at h1 h2
    have ha : u.isAlive m = q.isAlive m := by rw [h1]; rfl
    have hr : u.isRemovable m = q.isRemovable m := by rw [h1]; rfl
    rw [List.foldl_cons]
    by_cases hm : q.isAlive m = true ∧ q.isRemovable m = true
    · have hturn : ∃ b', candidateTurn (u, b) m = (u.setCost m (u.removalCost m), some b') ∧
          (b' = m ∨ b = some b') := by
        simp only [candidateTurn, ha, hr, hm.1, hm.2, Bool.and_self, if_true]
        cases b with
        | none => exact ⟨m, rfl, .inl rfl⟩
        | some b =>
          dsimp only
          split
          · exact ⟨m, rfl, .inl rfl⟩
          · exact ⟨b, rfl, .inr rfl⟩
      obtain ⟨b', hb, hb'⟩ := hturn
      rw [hb]
      obtain ⟨h3, h4, h5⟩ := ih (u.setCost m (u.removalCost m), some b') (by rw [h1]; rfl) (fun n hn => by
        injection hn with hn
        subst hn
        rcases hb' with rfl | hb'
        · exact hm
        · exact h2 _ hb')
      exact ⟨h3, h4, fun h => absurd (h5 h).1 (by simp)⟩
    · have hturn : candidateTurn (u, b) m = (u, b) := by
        have : (u.isAlive m && u.isRemovable m) = false := by
          rw [ha, hr]; exact Bool.eq_false_iff.2 fun h => hm (by simpa using h)
        simp only [candidateTurn, this, Bool.false_eq_true, if_false]
      rw [hturn]
      obtain ⟨h3, h4, h5⟩ := ih (u, b) h1 h2
      refine ⟨h3, h4, fun h => ⟨(h5 h).1, fun n hn => ?_⟩⟩
      rcases List.mem_cons.1 hn with rfl | hn
      · exact hm
      · exact (h5 h).2 n hn

/-- A round of step 6 changes costs only, and finds a removable alive node when there is one. -/
theorem QuantWork.costRound_spec (q : QuantWork) {r : QuantWork × Option HwColor} (hr : q.costRound = r) :
    r.1 = { q with cost := r.1.cost } ∧
    (∀ n, r.2 = some n → q.isAlive n = true ∧ q.isRemovable n = true) ∧
    (r.2 = none → ∀ n, ¬ (q.isAlive n = true ∧ q.isRemovable n = true)) := by
  have h := foldl_candidateTurn q allColors (q, none) rfl (by simp)
  have hr' : allColors.foldl candidateTurn (q, none) = r := hr
  rw [hr'] at h
  obtain ⟨h1, h2, h3⟩ := h
  exact ⟨h1, h2, fun h n => (h3 h).2 n (mem_allColors n)⟩

/-- What the turns of the colours `done` leave: their recomputed costs, and the first of the cheapest as the best. -/
structure QuantWork.Turned (q : QuantWork) (done : List HwColor) (qb : QuantWork × Option HwColor) : Prop where
  frame : qb.1 = { q with cost := qb.1.cost }
  costLength : qb.1.cost.length = 64
  costs : ∀ m, qb.1.costAt m = if m ∈ done ∧ q.Candidate m then q.weightedCost m else q.costAt m
  best : ∀ n, qb.2 = some n → n ∈ done ∧ q.Candidate n ∧ ∀ m ∈ done, q.Candidate m →
    Binary64.lt (q.weightedCost m) (q.weightedCost n) = false ∧
      (m.toNat < n.toNat → Binary64.lt (q.weightedCost n) (q.weightedCost m) = true)
  none : qb.2 = none → ∀ m ∈ done, ¬ q.Candidate m

theorem QuantWork.costAt_setCost {q : QuantWork} (h : q.cost.length = 64) (n m : HwColor) (c : F64) :
    (q.setCost n c).costAt m = if m = n then c else q.costAt m := by
  have hn : n.toNat < q.cost.length := by rw [h]; exact n.isLt
  unfold QuantWork.costAt QuantWork.setCost
  simp only [getD_set _ _ _ _ _ hn]
  by_cases hm : m = n
  · subst hm; simp
  · rw [if_neg hm, if_neg (toNat_ne hm)]

/-- The turn of a node above those done. -/
theorem QuantWork.Turned.turn {q : QuantWork} {done : List HwColor} {qb : QuantWork × Option HwColor}
    (h : q.Turned done qb) (hc : q.Consistent) (h2 : 2 ≤ q.aliveCount) {n : HwColor}
    (hn : ∀ m ∈ done, m.toNat < n.toNat) : q.Turned (done ++ [n]) (candidateTurn qb n) := by
  obtain ⟨u, b⟩ := qb
  have hnd : n ∉ done := fun hm => lt_irrefl _ (hn n hm)
  have hf : u = { q with cost := u.cost } := h.frame
  have ha : u.isAlive n = q.isAlive n := by rw [hf]; rfl
  have hr : u.isRemovable n = q.isRemovable n := by rw [hf]; rfl
  have hw : u.removalCost n = q.weightedCost n := by rw [← q.removalCost_eq hc h2, hf]; rfl
  by_cases hcand : q.Candidate n
  · have hcosts : ∀ m, (u.setCost n (q.weightedCost n)).costAt m =
        if m ∈ done ++ [n] ∧ q.Candidate m then q.weightedCost m else q.costAt m := fun m => by
      rw [u.costAt_setCost h.costLength, h.costs m]
      by_cases hm : m = n
      · subst hm; simp [hcand]
      · simp [hm]
    have hself : Binary64.lt (q.weightedCost n) (q.weightedCost n) = false := by simp [Binary64.lt]
    cases hb : b with
    | none =>
      have e : candidateTurn (u, b) n = (u.setCost n (q.weightedCost n), some n) := by
        simp [candidateTurn, ha, hr, hcand.1, hcand.2, hw, hb]
      rw [← hb, e]
      refine ⟨by rw [hf]; rfl, by simp [QuantWork.setCost, h.costLength], hcosts, fun k hk => ?_, fun hk => by cases hk⟩
      injection hk with hk
      subst hk
      refine ⟨by simp, hcand, fun m hm hcm => ?_⟩
      rcases List.mem_append.1 hm with hm | hm
      · exact absurd hcm (h.none hb m hm)
      · obtain rfl : m = n := by simpa using hm
        exact ⟨hself, fun hlt => absurd hlt (lt_irrefl _)⟩
    | some k =>
      obtain ⟨hkd, hkc, hkb⟩ := h.best k hb
      have hck : (u.setCost n (q.weightedCost n)).costAt k = q.weightedCost k := by
        rw [hcosts k, if_pos ⟨List.mem_append_left _ hkd, hkc⟩]
      have e : candidateTurn (u, b) n = if Binary64.lt (q.weightedCost n) (q.weightedCost k) = true then
          (u.setCost n (q.weightedCost n), some n) else (u.setCost n (q.weightedCost n), some k) := by
        simp [candidateTurn, ha, hr, hcand.1, hcand.2, hw, hb, hck]
      rw [← hb, e]
      by_cases hlt : Binary64.lt (q.weightedCost n) (q.weightedCost k) = true
      · rw [if_pos hlt]
        refine ⟨by rw [hf]; rfl, by simp [QuantWork.setCost, h.costLength], hcosts, fun j hj => ?_, fun hj => by cases hj⟩
        injection hj with hj
        subst hj
        refine ⟨by simp, hcand, fun m hm hcm => ?_⟩
        rcases List.mem_append.1 hm with hm | hm
        · have h3 := (hkb m hm hcm).1
          simp only [Binary64.lt, decide_eq_true_eq, decide_eq_false_iff_not] at *
          exact ⟨by omega, fun _ => by omega⟩
        · obtain rfl : m = n := by simpa using hm
          exact ⟨hself, fun hlt => absurd hlt (lt_irrefl _)⟩
      · rw [if_neg hlt]
        refine ⟨by rw [hf]; rfl, by simp [QuantWork.setCost, h.costLength], hcosts, fun j hj => ?_, fun hj => by cases hj⟩
        injection hj with hj
        subst hj
        refine ⟨List.mem_append_left _ hkd, hkc, fun m hm hcm => ?_⟩
        rcases List.mem_append.1 hm with hm | hm
        · exact hkb m hm hcm
        · obtain rfl : m = n := by simpa using hm
          exact ⟨by simpa using hlt, fun h' => absurd h' (by have := hn k hkd; omega)⟩
  · have e : candidateTurn (u, b) n = (u, b) := by
      have : (u.isAlive n && u.isRemovable n) = false := by
        rw [ha, hr]; exact Bool.eq_false_iff.2 fun h' => hcand (by simpa using h')
      simp only [candidateTurn, this, Bool.false_eq_true, if_false]
    rw [e]
    refine ⟨hf, h.costLength, fun m => ?_, fun k hk => ?_, fun hb m hm => ?_⟩
    · rw [h.costs m]
      by_cases hm : m = n
      · subst hm; simp [hcand]
      · simp [hm]
    · obtain ⟨h3, h4, h5⟩ := h.best k hk
      refine ⟨List.mem_append_left _ h3, h4, fun m hm hcm => ?_⟩
      rcases List.mem_append.1 hm with hm | hm
      · exact h5 m hm hcm
      · obtain rfl : m = n := by simpa using hm
        exact absurd hcm hcand
    · rcases List.mem_append.1 hm with hm | hm
      · exact h.none hb m hm
      · obtain rfl : m = n := by simpa using hm
        exact hcand

/-- A round of step 6 has recomputed every candidate's cost and found the first of the cheapest (R201). -/
theorem QuantWork.costRound_turned {q : QuantWork} (hc : q.Consistent) (hl : q.cost.length = 64)
    (h2 : 2 ≤ q.aliveCount) : q.Turned allColors q.costRound := by
  have key : ∀ (l done : List HwColor) (qb : QuantWork × Option HwColor),
      (∀ m ∈ done, ∀ n ∈ l, m.toNat < n.toNat) → l.Pairwise (fun a b => a.toNat < b.toNat) → q.Turned done qb →
      q.Turned (done ++ l) (l.foldl candidateTurn qb) := by
    intro l
    induction l with
    | nil => intro done qb _ _ h; simpa using h
    | cons n l ih =>
      intro done qb h1 hp h
      obtain ⟨hn, hp⟩ := List.pairwise_cons.1 hp
      have := ih (done ++ [n]) (candidateTurn qb n) (fun m hm k hk => by
        rcases List.mem_append.1 hm with hm | hm
        · exact h1 m hm k (List.mem_cons_of_mem _ hk)
        · obtain rfl : m = n := by simpa using hm
          exact hn k hk) hp (h.turn hc h2 fun m hm => h1 m hm n List.mem_cons_self)
      simpa using this
  exact key allColors [] (q, .none) (by simp) pairwise_allColors
    ⟨rfl, hl, fun m => by simp, (fun n hn => by cases hn), by simp⟩

/-- The parts of the working state that steps 6 and 7 do not touch. -/
structure QuantWork.SameProblem (q q' : QuantWork) : Prop where
  cls : q'.cls = q.cls
  cnt : q'.cnt = q.cnt
  totalCount : q'.totalCount = q.totalCount
  fslot : q'.fslot = q.fslot
  remov : q'.remov = q.remov
  dist : q'.dist = q.dist

theorem QuantWork.SameProblem.refl (q : QuantWork) : q.SameProblem q := ⟨rfl, rfl, rfl, rfl, rfl, rfl⟩

theorem QuantWork.SameProblem.trans {a b c : QuantWork} (h : a.SameProblem b) (h' : b.SameProblem c) :
    a.SameProblem c :=
  ⟨h'.1.trans h.1, h'.2.trans h.2, h'.3.trans h.3, h'.4.trans h.4, h'.5.trans h.5, h'.6.trans h.6⟩

theorem QuantWork.SameProblem.isRemovable {q q' : QuantWork} (h : q.SameProblem q') (n : HwColor) :
    q'.isRemovable n = q.isRemovable n := by simp only [QuantWork.isRemovable, h.remov]

/-- One round of step 6. -/
theorem QuantWork.reduce_succ (q : QuantWork) (fuel : Nat) : q.reduce (fuel + 1) =
    if q.totalCount < q.aliveCount then (endRound q.costRound).reduce fuel else q := rfl

theorem QuantWork.reduce_sameProblem (q : QuantWork) (fuel : Nat) : q.SameProblem (q.reduce fuel) := by
  induction fuel generalizing q with
  | zero => exact .refl q
  | succ fuel ih =>
    rw [QuantWork.reduce_succ]
    split
    · generalize hr : q.costRound = r
      obtain ⟨h1, -, -⟩ := q.costRound_spec hr
      obtain ⟨u, b⟩ := r
      have h0 : q.SameProblem u := by simp only at h1; rw [h1]; exact ⟨rfl, rfl, rfl, rfl, rfl, rfl⟩
      cases b with
      | none => exact h0.trans (ih u)
      | some n =>
        have h2 : u.SameProblem (u.removeNode n) := ⟨rfl, rfl, rfl, rfl, rfl, rfl⟩
        exact (h0.trans h2).trans (ih (u.removeNode n))
    · exact .refl q

/-- Step 6 keeps the lists consistent, and ends with `totalCount` nodes when that is no fewer than the pinned ones and
the fuel reaches (R201). -/
theorem QuantWork.reduce_spec (q : QuantWork) (fuel : Nat) (h : q.Consistent)
    (hp : allColors.countP (fun n => !q.isRemovable n) ≤ q.totalCount) (ht : q.totalCount ≤ q.aliveCount)
    (hf : q.aliveCount ≤ q.totalCount + fuel) :
    (q.reduce fuel).Consistent ∧ (q.reduce fuel).aliveCount = q.totalCount := by
  induction fuel generalizing q with
  | zero => exact ⟨h, by show q.aliveCount = q.totalCount; omega⟩
  | succ fuel ih =>
    rw [QuantWork.reduce_succ]
    split
    · next hlt =>
      generalize hcr : q.costRound = r
      obtain ⟨h1, h2, h3⟩ := q.costRound_spec hcr
      obtain ⟨u, b⟩ := r
      simp only at h1 h2 h3
      have hu : u.Consistent := by rw [h1]; exact h.withCost _
      cases b with
      | none =>
        exfalso
        have hle : allColors.countP q.isAlive ≤ allColors.countP (fun n => !q.isRemovable n) :=
          List.countP_mono_left fun n _ hn => by
            have := h3 rfl n
            rw [hn] at this
            simpa using this
        rw [← q.aliveCount_eq h] at hle
        omega
      | some n =>
        obtain ⟨ha, hr⟩ := h2 n rfl
        have ha' : u.isAlive n = true := by rw [h1]; exact ha
        have hr' : u.isRemovable n = true := by rw [h1]; exact hr
        have hc := QuantWork.aliveCount_removeNode hu hr' ha'
        have hcu : u.aliveCount = q.aliveCount := by rw [h1]; rfl
        have htu : (u.removeNode n).totalCount = q.totalCount := by rw [h1]; rfl
        have hru : ∀ m, (u.removeNode n).isRemovable m = q.isRemovable m := fun m => by rw [h1]; rfl
        have := ih (u.removeNode n) (hu.removeNode hr') (by simpa only [hru, htu] using hp) (by omega) (by omega)
        rw [htu] at this
        exact this
    · next hlt => exact ⟨h, by omega⟩

/-- Step 6 is a chain of rounds of R201. -/
theorem QuantWork.reduce_rounds (q : QuantWork) (fuel : Nat) (h : q.Consistent) (hl : q.cost.length = 64)
    (h1 : 1 ≤ q.totalCount) (hp : allColors.countP (fun n => !q.isRemovable n) ≤ q.totalCount) :
    Relation.ReflTransGen QuantWork.Round q (q.reduce fuel) := by
  induction fuel generalizing q with
  | zero => exact .refl
  | succ fuel ih =>
    rw [QuantWork.reduce_succ]
    split
    · next hlt =>
      have ht := q.costRound_turned h hl (by omega)
      generalize q.costRound = r at *
      obtain ⟨u, b⟩ := r
      have hf : u = { q with cost := u.cost } := ht.frame
      cases b with
      | none =>
        exfalso
        have hle : allColors.countP q.isAlive ≤ allColors.countP (fun n => !q.isRemovable n) :=
          List.countP_mono_left fun n _ hn => by
            have := ht.none rfl n (mem_allColors n)
            simp only [QuantWork.Candidate, hn, true_and] at this
            simpa using this
        rw [← q.aliveCount_eq h] at hle
        omega
      | some n =>
        obtain ⟨-, hn, hbest⟩ := ht.best n rfl
        have hu : u.Consistent := by rw [hf]; exact h.withCost _
        have hr' : u.isRemovable n = true := by rw [hf]; exact hn.2
        have htu : (u.removeNode n).totalCount = q.totalCount := by rw [hf]; rfl
        have hru : ∀ m, (u.removeNode n).isRemovable m = q.isRemovable m := fun m => by rw [hf]; rfl
        refine .head ⟨hlt, n, hn, fun m hm => hbest m (mem_allColors m) hm, by rw [hf]; rfl,
          fun m => ?_⟩ (ih (u.removeNode n) (hu.removeNode hr') ht.costLength (by omega) (by simpa only [hru, htu] using hp))
        rw [show (u.removeNode n).costAt m = u.costAt m from rfl, ht.costs m]
        simp only [mem_allColors, true_and]
    · exact .refl

/-! ### Step 7 (R202) -/

/-- What a list of turns of step 7 keeps. -/
theorem QuantWork.foldl_dropIfFree_spec (l : List HwColor) (q : QuantWork) (h : q.Consistent) (hpos : 1 ≤ q.aliveCount) :
    q.SameProblem (l.foldl QuantWork.dropIfFree q) ∧ (l.foldl QuantWork.dropIfFree q).Consistent ∧
      1 ≤ (l.foldl QuantWork.dropIfFree q).aliveCount ∧ (l.foldl QuantWork.dropIfFree q).aliveCount ≤ q.aliveCount := by
  refine foldl_invariant QuantWork.dropIfFree
    (fun u => q.SameProblem u ∧ u.Consistent ∧ 1 ≤ u.aliveCount ∧ u.aliveCount ≤ q.aliveCount) l ?_ q
    ⟨.refl q, h, hpos, le_rfl⟩
  rintro u ⟨h1, h2, h3, h4⟩ n _
  unfold QuantWork.dropIfFree
  split
  · next hc =>
    simp only [Bool.and_eq_true, decide_eq_true_eq] at hc
    obtain ⟨⟨ha, hr⟩, h1lt⟩ := hc
    have hcost : (u.setCost n (u.removalCost n)).Consistent := h2.withCost _
    have hs : q.SameProblem (u.setCost n (u.removalCost n)) := h1.trans ⟨rfl, rfl, rfl, rfl, rfl, rfl⟩
    dsimp only
    split
    · have hcount := QuantWork.aliveCount_removeNode hcost (n := n) hr ha
      have hsame : (u.setCost n (u.removalCost n)).aliveCount = u.aliveCount := rfl
      exact ⟨hs.trans ⟨rfl, rfl, rfl, rfl, rfl, rfl⟩, hcost.removeNode hr, by omega, by omega⟩
    · exact ⟨hs, hcost, h3, h4⟩
  · exact ⟨h1, h2, h3, h4⟩

theorem QuantWork.dropFree_spec (q : QuantWork) (h : q.Consistent) (hpos : 1 ≤ q.aliveCount) :
    q.SameProblem q.dropFree ∧ q.dropFree.Consistent ∧ 1 ≤ q.dropFree.aliveCount ∧
      q.dropFree.aliveCount ≤ q.aliveCount := QuantWork.foldl_dropIfFree_spec allColors q h hpos

theorem QuantWork.dropIfFree_turn {q : QuantWork} (h : q.Consistent) (n : HwColor) :
    QuantWork.DropTurn n q (q.dropIfFree n) := by
  unfold QuantWork.DropTurn QuantWork.dropIfFree
  by_cases hc : q.Candidate n ∧ 1 < q.aliveCount
  · have hb : (q.isAlive n && q.isRemovable n && decide (1 < q.aliveCount)) = true := by
      simp [hc.1.1, hc.1.2, hc.2]
    rw [if_pos hc, if_pos hb]
    dsimp only
    rw [q.removalCost_eq h hc.2]
    by_cases hz : Binary64.value (q.weightedCost n) = 0
    · rw [if_pos hz, if_pos (show Binary64.isZero _ = true from decide_eq_true hz)]; rfl
    · rw [if_neg hz, if_neg (by simpa [Binary64.isZero] using hz)]; rfl
  · have hb : ¬ (q.isAlive n && q.isRemovable n && decide (1 < q.aliveCount)) = true := fun h' => hc (by simpa using h')
    rw [if_neg hc, if_neg hb]

/-- Step 7 is the turns of R202, in ascending order. -/
theorem QuantWork.dropFree_turns (q : QuantWork) (h : q.Consistent) (hpos : 1 ≤ q.aliveCount) :
    ∃ turn : Nat → QuantWork, turn 0 = q ∧ turn 64 = q.dropFree ∧
      ∀ n : HwColor, QuantWork.DropTurn n (turn n.toNat) (turn (n.toNat + 1)) := by
  refine ⟨fun k => (allColors.take k).foldl QuantWork.dropIfFree q, rfl, rfl, fun n => ?_⟩
  have hn : n.toNat < allColors.length := by simp only [allColors, List.length_map, List.length_range]; exact n.isLt
  have e : allColors[n.toNat] = n := by simp [allColors]
  have hc := (QuantWork.foldl_dropIfFree_spec (allColors.take n.toNat) q h hpos).2.1
  simp only [← List.take_concat_get' allColors n.toNat hn, List.foldl_append, List.foldl_cons, List.foldl_nil, e]
  exact QuantWork.dropIfFree_turn hc n

end Sys2Proof.Machine
end

