-- ==== Sys2Proof/Laws/Rounding.lean ====
section
/-! SUPPORT. The fields of a binary64 pattern, the length of a number, and which magnitudes a pattern can have
(00_scope.md R6). -/

namespace Sys2Proof.Binary64

/-! ### The fields of a pattern -/

theorem toNat_pattern (neg : Bool) {bits : Nat} (h : bits < 2 ^ 63) :
    (pattern neg bits).toNat = (if neg then 2 ^ 63 else 0) + bits := by
  have hs : signWeight = 2 ^ 63 := rfl
  unfold pattern
  cases neg <;> simp only [BitVec.toNat_ofNat, hs, Bool.false_eq_true, if_false, if_true] <;> omega

theorem signBit_pattern (neg : Bool) {bits : Nat} (h : bits < 2 ^ 63) : signBit (pattern neg bits) = neg := by
  rw [signBit, BitVec.getLsbD, toNat_pattern neg h, Nat.testBit_eq_decide_div_mod_eq]
  cases neg
  · simp only [Bool.false_eq_true, if_false, Nat.zero_add, Nat.div_eq_of_lt h]; rfl
  · simp only [if_true]
    rw [Nat.add_comm, Nat.add_div_right _ (by decide), Nat.div_eq_of_lt h]; rfl

theorem expField_eq (x : F64) : expField x = x.toNat / 2 ^ 52 % 2 ^ 11 := by
  simp [expField, BitVec.extractLsb'_toNat, Nat.shiftRight_eq_div_pow]

theorem fracField_eq (x : F64) : fracField x = x.toNat % 2 ^ 52 := by
  simp [fracField, BitVec.extractLsb'_toNat]

theorem expField_pattern (neg : Bool) {bits : Nat} (h : bits < 2 ^ 63) : expField (pattern neg bits) = bits / 2 ^ 52 := by
  rw [expField_eq, toNat_pattern neg h]
  cases neg <;> simp only [Bool.false_eq_true, if_false, if_true] <;> omega

theorem fracField_pattern (neg : Bool) {bits : Nat} (h : bits < 2 ^ 63) : fracField (pattern neg bits) = bits % 2 ^ 52 := by
  rw [fracField_eq, toNat_pattern neg h]
  cases neg <;> simp only [Bool.false_eq_true, if_false, if_true] <;> omega

theorem fracField_lt (x : F64) : fracField x < 2 ^ 52 := by rw [fracField_eq]; exact Nat.mod_lt _ (by decide)

theorem expField_lt (x : F64) : expField x < 2048 := by rw [expField_eq]; exact Nat.mod_lt _ (by decide)

theorem roundMagnitude_lt (m k : Nat) : roundMagnitude m k < 2 ^ 63 :=
  lt_of_le_of_lt (Nat.min_le_right _ _) (by decide)

/-- The magnitude of a pattern whose bits [62:0] are `e * 2^52 + q`, for a rounded significand `q`: below 2^52 only with
`e = 0`, and at most 2^53, which carries. -/
theorem magnitude_pattern (neg : Bool) {e q : Nat} (h : e * 2 ^ 52 + q < 2 ^ 63) (hq : q ≤ 2 ^ 53)
    (hlow : e = 0 ∨ 2 ^ 52 ≤ q) : magnitude (pattern neg (e * 2 ^ 52 + q)) = q * 2 ^ e := by
  have hb : hiddenBit = 2 ^ 52 := rfl
  rw [magnitude, expField_pattern neg h, fracField_pattern neg h, Nat.shiftLeft_eq, hb]
  rcases Nat.lt_or_ge q (2 ^ 52) with h1 | h1
  · obtain rfl : e = 0 := by omega
    have h2 : (0 * 2 ^ 52 + q) / 2 ^ 52 = 0 := by omega
    rw [if_pos h2]; simp only [Nat.pow_zero]; omega
  · rcases Nat.lt_or_ge q (2 ^ 53) with h2 | h2
    · have h3 : (e * 2 ^ 52 + q) / 2 ^ 52 = e + 1 := by omega
      have h4 : (e * 2 ^ 52 + q) % 2 ^ 52 = q - 2 ^ 52 := by omega
      rw [h3, h4, if_neg (by omega)]
      have h5 : 2 ^ 52 + (q - 2 ^ 52) = q := by omega
      rw [h5]; rfl
    · have h3 : (e * 2 ^ 52 + q) / 2 ^ 52 = e + 2 := by omega
      have h4 : (e * 2 ^ 52 + q) % 2 ^ 52 = 0 := by omega
      have h5 : q = 2 ^ 52 * 2 := by omega
      rw [h3, h4, if_neg (by omega), h5]
      simp only [Nat.add_zero, show e + 2 - 1 = e + 1 by omega, Nat.pow_succ]
      ring

/-- Every magnitude below `2^53 * 2^e` units is a significand of at most 53 bits, and every one from `2^52 * 2^e` on is a
multiple of `2^e`. -/
theorem magnitude_dvd (x : F64) {e : Nat} (h : 2 ^ 52 * 2 ^ e ≤ magnitude x) : 2 ^ e ∣ magnitude x := by
  have hf := fracField_lt x
  have hb : hiddenBit = 2 ^ 52 := rfl
  unfold magnitude at *
  split
  · next h0 =>
    rw [if_pos h0] at h
    have : 1 ≤ 2 ^ e := Nat.one_le_two_pow
    have := Nat.mul_le_mul_left (2 ^ 52) this
    omega
  · next h0 =>
    rw [if_neg h0, Nat.shiftLeft_eq, hb] at h
    rw [Nat.shiftLeft_eq, hb]
    by_contra hn
    have hlt : expField x - 1 < e := by
      by_contra hge
      exact hn (Dvd.dvd.mul_left (pow_dvd_pow 2 (by omega)) _)
    have h1 : 2 ^ (expField x - 1) * 2 ≤ 2 ^ e := by rw [← Nat.pow_succ]; exact Nat.pow_le_pow_right (by decide) hlt
    have h2 : (2 ^ 52 + fracField x) * 2 ^ (expField x - 1) < 2 ^ 53 * 2 ^ (expField x - 1) :=
      Nat.mul_lt_mul_of_pos_right (by omega) (Nat.two_pow_pos _)
    have h3 : 2 ^ 53 * 2 ^ (expField x - 1) = 2 ^ 52 * (2 ^ (expField x - 1) * 2) := by ring
    have h4 := Nat.mul_le_mul_left (2 ^ 52) h1
    omega

theorem magnitude_lt (x : F64) : magnitude x < 2 ^ (53 + 2047) := by
  have hf := fracField_lt x
  have he := expField_lt x
  have hb : hiddenBit = 2 ^ 52 := rfl
  unfold magnitude
  split
  · rw [Nat.pow_add]
    refine lt_of_lt_of_le (b := 2 ^ 53) (by omega) (Nat.le_mul_of_pos_right (2 ^ 53) (Nat.two_pow_pos _))
  · rw [Nat.shiftLeft_eq, hb, Nat.pow_add]
    exact Nat.mul_lt_mul_of_lt_of_le (by omega) (Nat.pow_le_pow_right (by decide) (by omega)) (Nat.two_pow_pos _)

/-! ### The length of a number -/

theorem bitLengthBelow_spec (k m : Nat) (h : m < 2 ^ 2 ^ k) :
    m < 2 ^ bitLengthBelow k m ∧ (0 < m → 2 ^ bitLengthBelow k m ≤ 2 * m) := by
  induction k generalizing m with
  | zero =>
    have : m < 2 := h
    interval_cases m <;> decide
  | succ k ih =>
    have h1 : (1 <<< k : Nat) = 2 ^ k := by rw [Nat.shiftLeft_eq, Nat.one_mul]
    have hsq : 2 ^ 2 ^ (k + 1) = 2 ^ 2 ^ k * 2 ^ 2 ^ k := by rw [← Nat.pow_add, Nat.pow_succ, Nat.mul_two]
    rw [bitLengthBelow, h1, Nat.shiftRight_eq_div_pow]
    have hpos : 0 < 2 ^ 2 ^ k := Nat.two_pow_pos _
    split
    · next h0 => exact ih m (by have := Nat.div_eq_zero_iff.1 h0; omega)
    · next h0 =>
      have hd : m / 2 ^ 2 ^ k < 2 ^ 2 ^ k := Nat.div_lt_of_lt_mul (by rw [← hsq]; exact h)
      obtain ⟨h2, h3⟩ := ih _ hd
      have h4 := h3 (Nat.pos_of_ne_zero h0)
      have h5 : m / 2 ^ 2 ^ k * 2 ^ 2 ^ k ≤ m := Nat.div_mul_le_self _ _
      have h6 : m < (m / 2 ^ 2 ^ k + 1) * 2 ^ 2 ^ k := (Nat.div_lt_iff_lt_mul hpos).1 (Nat.lt_succ_self _)
      rw [Nat.pow_add]
      constructor
      · calc m < (m / 2 ^ 2 ^ k + 1) * 2 ^ 2 ^ k := h6
          _ ≤ 2 ^ bitLengthBelow k (m / 2 ^ 2 ^ k) * 2 ^ 2 ^ k := Nat.mul_le_mul_right _ h2
          _ = _ := Nat.mul_comm _ _
      · intro _
        calc 2 ^ 2 ^ k * 2 ^ bitLengthBelow k (m / 2 ^ 2 ^ k) ≤ 2 ^ 2 ^ k * (2 * (m / 2 ^ 2 ^ k)) :=
              Nat.mul_le_mul_left _ h4
          _ = 2 * (m / 2 ^ 2 ^ k * 2 ^ 2 ^ k) := by ring
          _ ≤ 2 * m := Nat.mul_le_mul_left _ h5

theorem bitLength_spec {m : Nat} (h : m < 2 ^ 2 ^ 13) :
    m < 2 ^ bitLength m ∧ (0 < m → 2 ^ bitLength m ≤ 2 * m) := bitLengthBelow_spec 13 m h

/-! ### Rounding -/

/-- Rounding is the floor or the next integer: the next when the remainder is above the half, or at the half with an odd
floor. -/
theorem shiftRoundEven_spec (m t : Nat) : ∃ d r : Nat, m = d * 2 ^ t + r ∧ r < 2 ^ t ∧
    ((shiftRoundEven m t = d + 1 ∧ (2 ^ t < 2 * r ∨ (2 ^ t = 2 * r ∧ d % 2 = 1))) ∨
      (shiftRoundEven m t = d ∧ (2 * r < 2 ^ t ∨ (2 ^ t = 2 * r ∧ d % 2 = 0)))) := by
  have hpos : 0 < 2 ^ t := Nat.two_pow_pos t
  refine ⟨m / 2 ^ t, m % 2 ^ t, (Nat.div_add_mod' m _).symm, Nat.mod_lt m hpos, ?_⟩
  have hq : shiftRoundEven m t =
      if 2 ^ t < 2 * (m % 2 ^ t) ∨ (2 ^ t = 2 * (m % 2 ^ t) ∧ m / 2 ^ t % 2 = 1) then m / 2 ^ t + 1
      else m / 2 ^ t := by
    simp only [shiftRoundEven, Nat.shiftRight_eq_div_pow, Nat.shiftLeft_eq, Nat.one_mul]
    have : m - m / 2 ^ t * 2 ^ t = m % 2 ^ t := by have := Nat.div_add_mod' m (2 ^ t); omega
    rw [this]
  by_cases h : 2 ^ t < 2 * (m % 2 ^ t) ∨ (2 ^ t = 2 * (m % 2 ^ t) ∧ m / 2 ^ t % 2 = 1)
  · rw [if_pos h] at hq; exact .inl ⟨hq, h⟩
  · rw [if_neg h] at hq; refine .inr ⟨hq, ?_⟩; omega

theorem shiftRoundEven_le (m t n : Nat) (h : m ≤ n * 2 ^ t) : shiftRoundEven m t ≤ n := by
  obtain ⟨d, r, hm, hr, h'⟩ := shiftRoundEven_spec m t
  have hp := Nat.two_pow_pos t
  generalize 2 ^ t = P at *
  by_contra hn
  rcases h' with ⟨e, h'⟩ | ⟨e, h'⟩
  · have : n ≤ d := by omega
    have := Nat.mul_le_mul_right P this
    omega
  · have : n + 1 ≤ d := by omega
    have := Nat.mul_le_mul_right P this
    rw [Nat.add_mul] at this
    omega

theorem le_shiftRoundEven (m t n : Nat) (h : n * 2 ^ t ≤ m) : n ≤ shiftRoundEven m t := by
  obtain ⟨d, r, hm, hr, h'⟩ := shiftRoundEven_spec m t
  generalize 2 ^ t = P at *
  have : n ≤ d := by
    by_contra hn
    have : d + 1 ≤ n := by omega
    have := Nat.mul_le_mul_right P this
    rw [Nat.add_mul] at this
    omega
  omega

/-- The bits [62:0] of a rounded magnitude are a finite number: its magnitude is the rounded significand, in the binade
of the exact value, and the last bit of the pattern is that of the significand. -/
theorem roundMagnitude_spec (m k : Nat) (neg : Bool) (hm : m < 2 ^ 2 ^ 13)
    (hfin : expField (pattern neg (roundMagnitude m k)) < 2047) :
    let e := bitLength m - k - 53
    magnitude (pattern neg (roundMagnitude m k)) = shiftRoundEven m (k + e) * 2 ^ e ∧
      (e = 0 ∨ 2 ^ 52 * 2 ^ (k + e) ≤ m) ∧
      (pattern neg (roundMagnitude m k)).toNat % 2 = shiftRoundEven m (k + e) % 2 := by
  intro e
  obtain ⟨h1, h2⟩ := bitLength_spec hm
  rw [expField_pattern neg (roundMagnitude_lt m k)] at hfin
  have hup : m ≤ 2 ^ 53 * 2 ^ (k + e) := by
    rw [← Nat.pow_add]
    exact h1.le.trans (Nat.pow_le_pow_right (by decide) (by simp only [e]; omega))
  have hlow : e = 0 ∨ 2 ^ 52 * 2 ^ (k + e) ≤ m := by
    by_cases he : e = 0
    · exact .inl he
    · right
      have hpos : 0 < m := by
        by_contra h0
        have : m = 0 := by omega
        subst this
        have hz : bitLength 0 = 0 := by decide
        exact he (by simp only [e, hz]; omega)
      have h3 := h2 hpos
      have : bitLength m = (52 + (k + e)) + 1 := by simp only [e] at he ⊢; omega
      rw [this, Nat.pow_succ, Nat.pow_add] at h3
      omega
  have hq := shiftRoundEven_le m (k + e) (2 ^ 53) hup
  have hq2 : e = 0 ∨ 2 ^ 52 ≤ shiftRoundEven m (k + e) := hlow.imp_right (le_shiftRoundEven m (k + e) _)
  have hr : roundMagnitude m k = min (e * 2 ^ 52 + shiftRoundEven m (k + e)) infinityBits := by
    simp only [roundMagnitude, e, Nat.shiftLeft_eq]
  have hi : infinityBits = 2047 * 2 ^ 52 := rfl
  have hb : roundMagnitude m k = e * 2 ^ 52 + shiftRoundEven m (k + e) := by
    rw [hr, hi] at hfin ⊢
    omega
  refine ⟨?_, hlow, ?_⟩
  · rw [hb]
    have := roundMagnitude_lt m k
    exact magnitude_pattern neg (by omega) hq hq2
  · rw [toNat_pattern neg (roundMagnitude_lt m k), hb]
    cases neg <;> simp only [Bool.false_eq_true, if_false, if_true] <;> omega

end Sys2Proof.Binary64
end

