-- ==== Sys2Proof/Laws/Slots.lean ====
section
/-! SUPPORT. Steps 8 to 10 of the quantizer: every retained node gets a slot, and the lookup table follows the lists
(42_quantizer.md R203 to R206). -/

namespace Sys2Proof.Machine

theorem placedAt_set (pal : Placement) (i j : SlotIx) (n : HwColor) (h : pal.length = 16) :
    placedAt (pal.set i.toNat (some n)) j = if j = i then some n else placedAt pal j := by
  have hi : i.toNat < pal.length := by rw [h]; exact i.isLt
  rw [placedAt, getD_set _ _ _ _ _ hi]
  by_cases hj : j = i
  · subst hj; simp
  · have : j.toNat ≠ i.toNat := fun e => hj (BitVec.eq_of_toNat_eq e)
    rw [if_neg this, if_neg hj]; rfl

/-- `NSLOT` and `PAL` of step 9 agree, and nothing else of the working state `q` changes. -/
structure PlacingFrom (q : QuantWork) (qp : QuantWork × Placement) : Prop where
  frame : qp.1 = { q with nslot := qp.1.nslot }
  nslotLength : qp.1.nslot.length = 64
  palLength : qp.2.length = 16
  agree : ∀ n i, qp.1.nslot.getD n.toNat none = some i ↔ placedAt qp.2 i = some n

/-- An unplaced node goes into an empty slot. -/
theorem PlacingFrom.place {q : QuantWork} {qp : QuantWork × Placement} (h : PlacingFrom q qp) {n : HwColor} {i : SlotIx}
    (hn : qp.1.nslot.getD n.toNat none = none) (hi : placedAt qp.2 i = none) : PlacingFrom q (place qp n i) where
  frame := by unfold Machine.place; rw [h.frame]
  nslotLength := by simp [Machine.place, h.nslotLength]
  palLength := by simp [Machine.place, h.palLength]
  agree := fun m j => by
    have hlen : n.toNat < qp.1.nslot.length := by rw [h.nslotLength]; exact n.isLt
    simp only [Machine.place]
    rw [getD_set _ _ _ _ _ hlen, placedAt_set _ _ _ _ h.palLength]
    by_cases hm : m = n
    · subst hm
      by_cases hj : j = i
      · subst hj; simp
      · have hj' : i ≠ j := fun e => hj e.symm
        have : placedAt qp.2 j ≠ some m := fun e => by
          rw [(h.agree m j).2 e] at hn; cases hn
        simp [hj, hj', this]
    · have hm' : n ≠ m := fun e => hm e.symm
      rw [if_neg (toNat_ne hm), h.agree]
      by_cases hj : j = i
      · subst hj; simp [hi, hm']
      · rw [if_neg hj]

/-- Placing writes the node's own entry of NSLOT and no other. -/
theorem place_nslot {q : QuantWork} {qp : QuantWork × Placement} (h : PlacingFrom q qp) (n m : HwColor) (i : SlotIx) :
    (place qp n i).1.nslot.getD m.toNat none = if m = n then some i else qp.1.nslot.getD m.toNat none := by
  have hlen : n.toNat < qp.1.nslot.length := by rw [h.nslotLength]; exact n.isLt
  simp only [place]
  rw [getD_set _ _ _ _ _ hlen]
  by_cases hm : m = n
  · subst hm; simp
  · rw [if_neg (toNat_ne hm), if_neg hm]

/-! ### Step 9(a) -/

/-- After step 9(a) exactly the pinned nodes are placed, each in its own slot. -/
theorem foldl_placeForced {t : Palette} (ht : TemplateLegal t) {q : QuantWork} (hf : q.fslot = forcedSlots t)
    (hr : ∀ n, q.isRemovable n = ((forcedSlots t).getD n.toNat none).isNone)
    (hp : ∀ n, q.isRemovable n = false → q.isAlive n = true) :
    let r := allColors.foldl placeForced ({ q with nslot := List.replicate 64 none }, List.replicate 16 none)
    PlacingFrom q r ∧ ∀ n : HwColor, r.1.nslot.getD n.toNat none = (forcedSlots t).getD n.toNat none := by
  have key : ∀ (l : List HwColor) (qp : QuantWork × Placement), l.Nodup → PlacingFrom q qp →
      (∀ n : HwColor, qp.1.nslot.getD n.toNat none = if n ∈ l then none else (forcedSlots t).getD n.toNat none) →
      PlacingFrom q (l.foldl placeForced qp) ∧
        ∀ n : HwColor, (l.foldl placeForced qp).1.nslot.getD n.toNat none = (forcedSlots t).getD n.toNat none := by
    intro l
    induction l with
    | nil => intro qp _ h1 h2; exact ⟨h1, by simpa using h2⟩
    | cons m l ih =>
      intro qp hd h1 h2
      obtain ⟨hml, hl⟩ := List.nodup_cons.1 hd
      rw [List.foldl_cons]
      have hfs : qp.1.fslot = forcedSlots t := by rw [h1.frame]; exact hf
      have hal : qp.1.isAlive m = q.isAlive m := by rw [h1.frame]; rfl
      have hre : qp.1.isRemovable m = q.isRemovable m := by rw [h1.frame]; rfl
      have hm := h2 m
      rw [if_pos List.mem_cons_self] at hm
      cases hs : (forcedSlots t).getD m.toNat none with
      | none =>
        have hrem : q.isRemovable m = true := by rw [hr, hs]; rfl
        have hstep : placeForced qp m = qp := by simp [placeForced, hre, hrem]
        rw [hstep]
        refine ih qp hl h1 fun n => ?_
        rw [h2 n]
        by_cases hn : n = m
        · subst hn; rw [if_pos List.mem_cons_self, if_neg hml, hs]
        · simp [hn]
      | some i =>
        have hrem : q.isRemovable m = false := by rw [hr, hs]; rfl
        have hstep : placeForced qp m = place qp m i := by
          rw [placeForced, hre, hrem, hal, hp m hrem, hfs, hs]; rfl
        have hempty : placedAt qp.2 i = none := by
          cases hpl : placedAt qp.2 i with
          | none => rfl
          | some m' =>
            exfalso
            have h3 := (h1.agree m' i).2 hpl
            rw [h2 m'] at h3
            split at h3
            · cases h3
            · next hnot =>
              have e1 := (forcedSlots_getD ht m i).1 hs
              have e2 := (forcedSlots_getD ht m' i).1 h3
              have : m.toNat = m'.toNat := by
                rw [← (slot_eq_setWidth_iff _ _).1 e1, ← (slot_eq_setWidth_iff _ _).1 e2]
              exact hnot (BitVec.eq_of_toNat_eq this ▸ List.mem_cons_self)
        rw [hstep]
        refine ih _ hl (h1.place hm hempty) fun n => ?_
        rw [place_nslot h1, h2 n]
        by_cases hn : n = m
        · subst hn; rw [if_pos rfl, if_neg hml, hs]
        · simp [hn]
  have hstart : ∀ n : HwColor, (List.replicate 64 (none : Option SlotIx)).getD n.toNat none = none :=
    fun n => getD_replicate 64 n.toNat none none n.isLt
  refine key allColors _ nodup_allColors ⟨rfl, by simp, by simp, fun n i => ?_⟩ fun n => ?_
  · have h16 : placedAt (List.replicate 16 none) i = none := getD_replicate 16 i.toNat none none i.isLt
    rw [h16]
    simp only [hstart n]
    simp
  · simp only [hstart n, mem_allColors, if_true]

/-! ### Step 9(b) -/

/-- The still-empty slots of R204, in ascending order. -/
def emptySlots (t : Palette) (pal : Placement) : List SlotIx :=
  allSlots.filter fun i => Palette.slot t i == Config.sentUndefined && placedAt pal i == none

theorem firstEmptySlot_eq (t : Palette) (pal : Placement) : firstEmptySlot t pal = (emptySlots t pal).head? := by
  rw [firstEmptySlot, emptySlots, List.head?_filter]

/-- Filling the first empty slot leaves the others. -/
theorem emptySlots_set {t : Palette} {pal : Placement} {i : SlotIx} {rest : List SlotIx} (hl : pal.length = 16)
    (n : HwColor) (h : emptySlots t pal = i :: rest) : emptySlots t (pal.set i.toNat (some n)) = rest := by
  have e : emptySlots t (pal.set i.toNat (some n)) = (emptySlots t pal).erase i := by
    unfold emptySlots
    rw [(nodup_allSlots.filter _).erase_eq_filter, List.filter_filter]
    congr 1
    funext j
    rw [placedAt_set _ _ _ _ hl]
    by_cases hj : j = i
    · simp [hj]
    · simp [hj]
  rw [e, h, List.erase_cons_head]

/-- Step 9(b) places the nodes of a list without repeats in the empty slots in ascending order, when there are enough, and
changes nothing else (R204). -/
theorem foldl_placeFree {t : Palette} {q : QuantWork} (l : List HwColor) (qp : QuantWork × Placement) (hd : l.Nodup)
    (h : PlacingFrom q qp) (hn : ∀ n ∈ l, qp.1.nslot.getD n.toNat none = none)
    (he : l.length ≤ (emptySlots t qp.2).length) :
    PlacingFrom q (l.foldl (placeFree t) qp) ∧
    (∀ (k : Nat) (n : HwColor), l[k]? = some n → ∃ i, (emptySlots t qp.2)[k]? = some i ∧
      (l.foldl (placeFree t) qp).1.nslot.getD n.toNat none = some i) ∧
    (∀ n, n ∉ l → (l.foldl (placeFree t) qp).1.nslot.getD n.toNat none = qp.1.nslot.getD n.toNat none) := by
  induction l generalizing qp with
  | nil => exact ⟨h, by simp, fun _ _ => rfl⟩
  | cons m l ih =>
    obtain ⟨hml, hl⟩ := List.nodup_cons.1 hd
    rw [List.length_cons] at he
    cases hE : emptySlots t qp.2 with
    | nil => rw [hE] at he; simp at he
    | cons i rest =>
      have hfirst : firstEmptySlot t qp.2 = some i := by rw [firstEmptySlot_eq, hE]; rfl
      have hempty : placedAt qp.2 i = none := by
        have : i ∈ emptySlots t qp.2 := by rw [hE]; exact List.mem_cons_self
        have := (List.mem_filter.1 this).2
        simp only [Bool.and_eq_true, beq_iff_eq] at this
        exact this.2
      have hstep : placeFree t qp m = place qp m i := by simp [placeFree, hfirst]
      have hrest : emptySlots t (place qp m i).2 = rest := emptySlots_set h.palLength m hE
      rw [List.foldl_cons, hstep]
      obtain ⟨h3, h4, h5⟩ := ih (place qp m i) hl (h.place (hn m List.mem_cons_self) hempty)
        (fun n hnl => by
          rw [place_nslot h, if_neg (fun e : n = m => hml (e ▸ hnl))]
          exact hn n (List.mem_cons_of_mem _ hnl))
        (by rw [hrest]; rw [hE] at he; simpa using he)
      rw [hrest] at h4
      refine ⟨h3, fun k n hk => ?_, fun n hnl => ?_⟩
      · cases k with
        | zero =>
          obtain rfl : m = n := by simpa using hk
          exact ⟨i, rfl, by rw [h5 _ hml, place_nslot h, if_pos rfl]⟩
        | succ k => exact h4 k n (by simpa using hk)
      · rw [h5 n fun hm => hnl (List.mem_cons_of_mem _ hm), place_nslot h,
          if_neg fun e : n = m => hnl (e ▸ List.mem_cons_self)]

/-! ### Steps 8 and 9 together -/

theorem QuantWork.mem_order (q : QuantWork) (n : HwColor) :
    n ∈ q.order ↔ q.isAlive n = true ∧ q.isRemovable n = true := by
  rw [QuantWork.order, (sortStable_perm _ _).mem_iff]
  simp [mem_allColors]

theorem QuantWork.nodup_order (q : QuantWork) : q.order.Nodup :=
  (sortStable_perm _ _).nodup_iff.2 (nodup_allColors.filter _)

/-- `ORDER` falls by cost, and nodes of one cost rise by id (R203). -/
theorem QuantWork.order_pairwise (q : QuantWork) : q.order.Pairwise fun m n =>
    Binary64.value (q.costAt n) < Binary64.value (q.costAt m) ∨
      (Binary64.value (q.costAt m) = Binary64.value (q.costAt n) ∧ m.toNat < n.toNat) := by
  have h := sortStable_pairwise (precedes := fun x y => Binary64.lt (q.costAt y) (q.costAt x))
    (fun x => -Binary64.value (q.costAt x)) (arrives := fun a b : HwColor => a.toNat < b.toNat)
    (fun x y => by simp [Binary64.lt]) (fun h1 h2 => h1.trans h2)
    (pairwise_allColors.filter fun n => q.isAlive n && q.isRemovable n)
  refine h.imp fun {a b} hab => ?_
  rcases hab with h | ⟨h, h'⟩
  · exact .inl (by omega)
  · exact .inr ⟨by omega, h'⟩

/-- The UNDEFINED slots of a template, in ascending order. -/
def freeSlots (t : Palette) : List SlotIx := allSlots.filter fun i => Palette.slot t i == Config.sentUndefined

/-- Steps 8 and 9: NSLOT and PAL agree, every alive node has a slot, every pinned node its own, and the nodes
of ORDER the UNDEFINED slots in ascending order; no other slot is filled (R204). -/
theorem QuantWork.assignSlots_spec {t : Palette} (ht : TemplateLegal t) {q : QuantWork} (hc : q.Consistent)
    (hf : q.fslot = forcedSlots t) (hr : ∀ n, q.isRemovable n = ((forcedSlots t).getD n.toNat none).isNone)
    (hle : q.aliveCount ≤ usableSlots t) :
    PlacingFrom q (q.assignSlots t) ∧
    (∀ n, q.isAlive n = true → ∃ i, (q.assignSlots t).1.nslot.getD n.toNat none = some i) ∧
    (∀ (n : HwColor) (i : SlotIx), Palette.slot t i = n.setWidth 8 → (q.assignSlots t).1.nslot.getD n.toNat none = some i) ∧
    (∀ (k : Nat) (n : HwColor), q.order[k]? = some n → ∃ i, (freeSlots t)[k]? = some i ∧
      (q.assignSlots t).1.nslot.getD n.toNat none = some i) ∧
    (∀ (n : HwColor) (i : SlotIx), (q.assignSlots t).1.nslot.getD n.toNat none = some i →
      Palette.slot t i = n.setWidth 8 ∨
        ∃ k : Nat, q.order[k]? = some n ∧ (freeSlots t)[k]? = some i) := by
  obtain ⟨h1, h2⟩ := foldl_placeForced ht hf hr hc.pinned
  unfold QuantWork.assignSlots
  dsimp only
  generalize allColors.foldl placeForced ({ q with nslot := List.replicate 64 none }, List.replicate 16 none) = r at *
  have hnone : ∀ n ∈ q.order, r.1.nslot.getD n.toNat none = none := fun n hn => by
    have hrem := ((q.mem_order n).1 hn).2
    rw [hr] at hrem
    rw [h2 n]
    exact Option.isNone_iff_eq_none.1 hrem
  have hempty : emptySlots t r.2 = freeSlots t := by
    refine List.filter_congr fun i _ => ?_
    suffices hp : Palette.slot t i = Config.sentUndefined → placedAt r.2 i = none by
      by_cases hu : Palette.slot t i = Config.sentUndefined
      · simp [hu, hp hu]
      · simp [hu]
    intro hu
    cases hpl : placedAt r.2 i with
    | none => rfl
    | some n =>
      exfalso
      have h3 := (h1.agree n i).2 hpl
      rw [h2 n] at h3
      have h4 := (slot_eq_setWidth_iff _ _).1 ((forcedSlots_getD ht n i).1 h3)
      rw [hu] at h4
      have h5 : n.toNat < 64 := n.isLt
      have h6 : Config.sentUndefined.toNat = 255 := rfl
      omega
  have hlen : q.order.length ≤ (emptySlots t r.2).length := by
    have e1 : q.order.length = allColors.countP fun n => q.isAlive n && q.isRemovable n := by
      rw [QuantWork.order, (sortStable_perm _ _).length_eq, List.countP_eq_length_filter]
    have e2 : allColors.countP (fun n => q.isAlive n && q.isRemovable n) +
        allColors.countP (fun n => ((forcedSlots t).getD n.toNat none).isSome) = allColors.countP q.isAlive := by
      have : ∀ n, ((forcedSlots t).getD n.toNat none).isSome = (q.isAlive n && !q.isRemovable n) := fun n => by
        cases hs : (forcedSlots t).getD n.toNat none with
        | none => rw [hr, hs]; simp
        | some i =>
          have hrem : q.isRemovable n = false := by rw [hr, hs]; rfl
          simp [hrem, hc.pinned n hrem]
      simp only [this]
      induction allColors with
      | nil => rfl
      | cons n l ih =>
        simp only [List.countP_cons, ← ih]
        cases q.isAlive n <;> cases q.isRemovable n <;> simp <;> omega
    have e3 : (freeSlots t).length = allSlots.countP fun i => Palette.slot t i == Config.sentUndefined :=
      List.countP_eq_length_filter.symm
    rw [hempty, e1, e3]
    rw [q.aliveCount_eq hc, usableSlots_eq ht, ← count_pinned ht, ← e2] at hle
    omega
  obtain ⟨h3, h4, h5⟩ := foldl_placeFree q.order r q.nodup_order h1 hnone hlen
  rw [hempty] at h4
  refine ⟨h3, fun n ha => ?_, fun n i hi => ?_, h4, fun n i hi => ?_⟩
  · by_cases hrem : q.isRemovable n = true
    · obtain ⟨k, hk⟩ := List.mem_iff_getElem?.1 ((q.mem_order n).2 ⟨ha, hrem⟩)
      obtain ⟨i, -, hi⟩ := h4 k n hk
      exact ⟨i, hi⟩
    · have hno : n ∉ q.order := fun hm => hrem ((q.mem_order n).1 hm).2
      rw [h5 n hno, h2 n]
      rw [hr] at hrem
      exact Option.ne_none_iff_exists'.1 fun e => hrem (by rw [e]; rfl)
  · have hs := (forcedSlots_getD ht n i).2 hi
    have hno : n ∉ q.order := fun hm => by
      have := ((q.mem_order n).1 hm).2
      rw [hr, hs] at this
      cases this
    rw [h5 n hno, h2 n, hs]
  · by_cases hno : n ∈ q.order
    · obtain ⟨k, hk⟩ := List.mem_iff_getElem?.1 hno
      obtain ⟨j, hj, hj'⟩ := h4 k n hk
      rw [hj'] at hi
      injection hi with hi
      exact .inr ⟨k, hk, hi ▸ hj⟩
    · rw [h5 n hno, h2 n] at hi
      exact .inl ((forcedSlots_getD ht n i).1 hi)

/-! ### Steps 1 to 10 -/

/-- The head of a list: the alive node closest to the target, ties to the lower id (R198, R200). -/
theorem QuantWork.head_spec {q : QuantWork} (hc : q.Consistent) (hpos : 1 ≤ q.aliveCount) (c : HwColor) :
    ∃ n rest, q.targetList c = n :: rest ∧ q.isAlive n = true ∧
      ∀ m, q.isAlive m = true → m ≠ n → RanksBefore c n m := by
  rw [q.aliveCount_eq hc] at hpos
  obtain ⟨m, -, hm⟩ := List.countP_pos_iff.1 hpos
  have hmem : ∀ k, q.isAlive k = true → k ∈ q.targetList c := fun k hk => by
    rw [hc.lists]; exact List.mem_filter.2 ⟨mem_rankedNodes _ _ _, hk⟩
  cases hl : q.targetList c with
  | nil => have := hmem m hm; rw [hl] at this; cases this
  | cons n rest =>
    have hpw : (q.targetList c).Pairwise (RanksBefore c) := by rw [hc.lists]; exact (rankedNodes_pairwise c).filter _
    rw [hl] at hpw
    refine ⟨n, rest, rfl, ?_, fun k hk hne => ?_⟩
    · have : n ∈ q.targetList c := by rw [hl]; exact List.mem_cons_self
      rw [hc.lists] at this
      exact (List.mem_filter.1 this).2
    · have hk' := hmem k hk
      rw [hl] at hk'
      rcases List.mem_cons.1 hk' with rfl | hk'
      · exact absurd rfl hne
      · exact (List.pairwise_cons.1 hpw).1 k hk'

/-- The working state and the placement at the end, from those of steps 1 to 7. -/
theorem quantizePixels_eq (t : Palette) (pixels : List Rgba) :
    quantizePixels t pixels =
      (((((buildWork t pixels).reduce 64).dropFree.assignSlots t).1).buildLut,
        (((buildWork t pixels).reduce 64).dropFree.assignSlots t).2) := by
  unfold quantizePixels
  generalize ((buildWork t pixels).reduce 64).dropFree.assignSlots t = r
  rfl

theorem QuantWork.buildLut_getD (q : QuantWork) (c : HwColor) : q.buildLut.lut.getD c.toNat 0 = q.lutEntry c :=
  getD_map_allColors _ _ _

/-- Steps 1 to 7: consistent lists, at least one node and no more than the usable slots, every pinned colour among
them, and the classes and pins of steps 3 and 4. -/
theorem retained_spec {t : Palette} (ht : TemplateLegal t) (hu : usableSlots t ≠ 0) (pixels : List Rgba) :
    let q := ((buildWork t pixels).reduce 64).dropFree
    q.Consistent ∧ 1 ≤ q.aliveCount ∧ q.aliveCount ≤ usableSlots t ∧ (buildWork t pixels).SameProblem q := by
  have hb := buildWork_consistent t pixels
  have hcount := buildWork_aliveCount t pixels
  have htot : (buildWork t pixels).totalCount = usableSlots t := rfl
  have hle := usableSlots_le t
  have hp : allColors.countP (fun n => !(buildWork t pixels).isRemovable n) ≤ usableSlots t := by
    have e : (fun n => !(buildWork t pixels).isRemovable n) = fun n => ((forcedSlots t).getD n.toNat none).isSome := by
      funext n
      rw [buildWork_isRemovable]
      cases (forcedSlots t).getD n.toNat none <;> rfl
    rw [e, count_pinned ht, usableSlots_eq ht]
    omega
  obtain ⟨h1, h2⟩ := QuantWork.reduce_spec _ 64 hb (htot ▸ hp) (by omega) (by omega)
  have h3 := (buildWork t pixels).reduce_sameProblem 64
  rw [htot] at h2
  obtain ⟨h4, h5, h6, h7⟩ := QuantWork.dropFree_spec _ h1 (by omega)
  exact ⟨h5, h6, by omega, h3.trans h4⟩

end Sys2Proof.Machine
end

