-- ==== Sys2Proof/Tests/Slice0.lean ====
section
/-! SUPPORT. Tests of the model's own: a smoke test of WellFormed, the decoding of every command from its word, small
steps whose results are the vectors of 95_test_vectors.md, and a witness for the hypotheses of every statement. -/

namespace Sys2Proof.Tests

open Sys2Proof Sys2Proof.Machine

/-! ### WellFormed -/

theorem test_wellFormed_accepts_a_clear : ({ reserved := 0, rgn := true, opc := 0x22 } : CmdFields).WellFormed := by
  decide

/-- 95_test_vectors.md V71e: a reserved bit. -/
theorem test_wellFormed_refuses_reserved_bits :
    ¬ ({ reserved := 1, rgn := false, opc := 0x20 } : CmdFields).WellFormed := by decide

/-- V71a: no opcode of the map. -/
theorem test_wellFormed_refuses_unknown_opcode :
    ¬ ({ reserved := 0, rgn := false, opc := 0x14 } : CmdFields).WellFormed := by decide

/-- V71d: RGN on a command without a region. -/
theorem test_wellFormed_refuses_region :
    ¬ ({ reserved := 0, rgn := true, opc := 0x30 } : CmdFields).WellFormed := by decide

/-! ### Decoding: the words of 30_encoding.md R91 and R92, written out bit by bit -/

theorem test_decode_nop : decode 0b00000000000000000000000000000000 = .ok .nop := by decide

theorem test_decode_hw2rgb : decode 0b00000000000000000000000000010000 = .ok .hw2rgb := by decide

theorem test_decode_nearest : decode 0b00000000000000000000000000010001 = .ok .nearest := by decide

theorem test_decode_gdist : decode 0b00000000000000000000000000010010 = .ok .gdist := by decide

theorem test_decode_ldist : decode 0b00000000000000000000000000010011 = .ok .ldist := by decide

theorem test_decode_create : decode 0b00000000000000000000000000100000 = .ok .create := by decide

theorem test_decode_resize : decode 0b00000000000000000000000000100001 = .ok .resize := by decide

theorem test_decode_clear :
    decode 0b00000000000000000000000000100010 = .ok (.clear false) ∧
    decode 0b00000000000000000000000100100010 = .ok (.clear true) := by decide

theorem test_decode_clearAlpha : decode 0b00000000000000000000000000100011 = .ok .clearAlpha := by decide

theorem test_decode_getColor :
    decode 0b00000000000000000000000000100100 = .ok (.getColor false) ∧
    decode 0b00000000000000000000000100100100 = .ok (.getColor true) := by decide

theorem test_decode_quantize : decode 0b00000000000000000000000000110000 = .ok .quantize := by decide

theorem test_decode_decode : decode 0b00000000000000000000000001000000 = .ok .decode := by decide

theorem test_decode_point :
    decode 0b00000000000000000000000001010000 = .ok (.point false) ∧
    decode 0b00000000000000000000000101010000 = .ok (.point true) := by decide

theorem test_decode_line :
    decode 0b00000000000000000000000001010001 = .ok (.line false) ∧
    decode 0b00000000000000000000000101010001 = .ok (.line true) := by decide

theorem test_decode_rect :
    decode 0b00000000000000000000000001010010 = .ok (.rect false) ∧
    decode 0b00000000000000000000000101010010 = .ok (.rect true) := by decide

theorem test_decode_lineRect :
    decode 0b00000000000000000000000001010011 = .ok (.lineRect false) ∧
    decode 0b00000000000000000000000101010011 = .ok (.lineRect true) := by decide

theorem test_decode_circle :
    decode 0b00000000000000000000000001010100 = .ok (.circle false) ∧
    decode 0b00000000000000000000000101010100 = .ok (.circle true) := by decide

theorem test_decode_ellipse :
    decode 0b00000000000000000000000001010101 = .ok (.ellipse false) ∧
    decode 0b00000000000000000000000101010101 = .ok (.ellipse true) := by decide

theorem test_decode_ellipseQb :
    decode 0b00000000000000000000000001010110 = .ok (.ellipseQb false) ∧
    decode 0b00000000000000000000000101010110 = .ok (.ellipseQb true) := by decide

theorem test_decode_text :
    decode 0b00000000000000000000000001010111 = .ok (.text false) ∧
    decode 0b00000000000000000000000101010111 = .ok (.text true) := by decide

/-- V71, V71b, V71c and V71e: illegal words, by name. -/
theorem test_decode_refuses :
    decode 0x00000058 = .error .unknownOpcode ∧ decode 0x00000100 = .error .regionNotAllowed ∧
    decode 0x00000125 = .error .unknownOpcode ∧ decode 0x80000000 = .error .reservedBits ∧
    decode 0x00000252 = .error .reservedBits := by decide

/-! ### Small states -/

/-- The reset state with the capacity 64 x 64 that 95_test_vectors.md uses. -/
def base : State := { State.reset with maxW := 64, maxH := 64 }

/-- A window that holds a list of bytes. -/
def bytes (l : List Byte) : Window := { cells := Memory.tabulate l.length fun a => l.getD a 0, draw := 0 }

/-- A bitmap with the given planes. -/
def bitmap (w h : Word) (alpha color : List Byte) : State :=
  { base with width := w, height := h, alpha := bytes alpha, color := bytes color }

/-- The operands ARG0, ARG1, ... -/
def withArgs (s : State) (l : List Word) : State :=
  { s with args := #v[l.getD 0 0, l.getD 1 0, l.getD 2 0, l.getD 3 0, l.getD 4 0, 0, 0, 0] }

/-- The region registers. -/
def withRegion (s : State) (ox oy rw rh : Word) : State := { s with rgnOx := ox, rgnOy := oy, rgnW := rw, rgnH := rh }

/-- A palette file of its first slots, the others `d`. -/
def slots (d : Byte) (l : List Byte) : Palette := Palette.ofSlots fun i => l.getD i.toNat d

/-- The state after a command. -/
def after (i : Instr) (s : State) : State :=
  match exec i s with
  | .next t => t
  | .fault _ => s
  | .refused _ => s

/-- The first `n` bytes of a window. -/
def firstBytes (w : Window) (n : Nat) : List Byte := (List.range n).map w.byte

/-- A state whose host makes the moves `l`. -/
def withHost (s : State) (l : List HostOp) : State := { s with host := l }

/-- A state in which the engine is about to run the word `c`. -/
def latched (c : Word) : State := { base with cmdLatch := c, status := { Status.reset with busy := true } }

/-! ### Steps, from the vectors of 95_test_vectors.md -/

/-- V28. -/
theorem test_nop : (after .nop (after (.clear false) (withArgs base [16]))).status.word = 0x00000008 := by decide

/-- V10b. -/
theorem test_hw2rgb : (after .hw2rgb (withArgs base [0x14])).res0 = 0xFF0055AA := by decide

/-- V11. -/
theorem test_hw2rgb_argument : (after .hw2rgb (withArgs base [0x40])).status.word = 0x0000030A := by decide

/-- V12f, the lower side of the threshold. -/
theorem test_nearest_below : (after .nearest (withArgs base [0x003E3E3E])).res0 = 0 := by decide +kernel

/-- V12f, the upper side. -/
theorem test_nearest_above : (after .nearest (withArgs base [0x003F3F3F])).res0 = 56 := by decide +kernel

/-- V13. -/
theorem test_gdist : (after .gdist (withArgs base [0, 0x55])).res0 = 0xACA60010 ∧
    (after .gdist (withArgs base [0, 0x55])).res1 = 0x3F804AF6 := by decide +kernel

/-- V13d: alpha is ignored. -/
theorem test_gdist_alpha : (after .gdist (withArgs base [0xFF123456, 0x00123456])).res1 = 0 := by decide +kernel

/-- V14b. -/
theorem test_ldist : (after .ldist (withArgs base [0x000000AA, 0x00AA0000])).res0 = 0xBFAF2D10 ∧
    (after .ldist (withArgs base [0x000000AA, 0x00AA0000])).res1 = 0x3FD4AEDA := by decide +kernel

/-- V20. -/
theorem test_create :
    firstBytes (after .create (withArgs base [3, 2])).alpha 2 = [0, 0] ∧
    firstBytes (after .create (withArgs base [3, 2])).color 4 = [0, 0, 0, 0] ∧
    (after .create (withArgs base [3, 2])).status.word = 0x00000008 := by decide

/-- V27, with the capacity 64. -/
theorem test_create_fatal : (after .create (withArgs base [65, 1])).status.word = 0x0000800E := by decide

/-- V24a. -/
theorem test_resize :
    let t := after .resize (withArgs (bitmap 3 2 [0xFF, 0xFF] [0xAA, 0xAA, 0xAA, 0xAA]) [8, 1])
    t.width = 8 ∧ t.height = 1 ∧ firstBytes t.alpha 1 = [0] ∧ t.color.cells = [] ∧ t.out.cells = [] := by decide

/-- V24. -/
theorem test_resize_unchanged :
    let t := after .resize (withArgs (bitmap 3 2 [0xFF, 0xFF] [0xAA, 0xAA, 0xAA, 0xAA]) [3, 2])
    firstBytes t.alpha 2 = [0xFF, 0xFF] ∧ firstBytes t.color 4 = [0xAA, 0xAA, 0xAA, 0xAA] := by decide

/-- V22. -/
theorem test_clear_region :
    let t := after (.clear true) (withArgs (withRegion (bitmap 3 2 [0, 0] [0, 0, 0, 0]) 1 0 5 1) [9])
    firstBytes t.alpha 2 = [0x06, 0] ∧ firstBytes t.color 4 = [0x90, 0x09, 0, 0] := by decide

/-- V22c: a region equal to the full one. -/
theorem test_clear_full :
    let t := after (.clear true) (withArgs (withRegion (bitmap 3 2 [7, 7] [0x33, 3, 0x33, 3]) 0 0 3 2) [10])
    firstBytes t.alpha 2 = [0xFF, 0xFF] ∧ firstBytes t.color 4 = [0xAA, 0xAA, 0xAA, 0xAA] := by decide

/-- V25. -/
theorem test_clearAlpha :
    let t := after .clearAlpha (bitmap 3 1 [0xFF] [0x66, 0x66])
    firstBytes t.alpha 1 = [0] ∧ firstBytes t.color 2 = [0x66, 0x66] := by decide

/-- V23b. -/
theorem test_getColor :
    (after (.getColor true) (withRegion (bitmap 3 2 [6, 0] [0x90, 9, 0, 0]) 1 0 5 1)).res0 = 9 := by decide

/-- V23a. -/
theorem test_getColor_bounds :
    (after (.getColor false) (withArgs (bitmap 3 2 [6, 0] [0x90, 9, 0, 0]) [3, 0])).status.word = 0x0000040A := by
  decide

/-- V42. -/
theorem test_quantize_no_slots :
    (after .quantize (withArgs { base with template := slots 0xFE [] } [1, 1])).status.word = 0x0000060A := by decide

/-- V48b: the template is checked first. -/
theorem test_quantize_template :
    (after .quantize (withArgs { base with template := slots 0xFE [64] } [1, 1])).status.word = 0x0000050A := by decide

/-- V55. -/
theorem test_decode_image :
    firstBytes (after .decode (withArgs { bitmap 2 1 [2] [0x33, 0x33] with palIn := slots 0 [0, 0, 0, 63] } [2, 1])).out 8 =
      [0, 0, 0, 0, 0xFF, 0xFF, 0xFF, 0xFF] := by decide

/-- V51. -/
theorem test_decode_hit :
    let s := withArgs { bitmap 2 1 [1] [1, 0] with palIn := slots 0 [0, 20] } [2, 1]
    (after .decode (after .decode s)).status.word = 0x00000010 := by decide

/-- V60. -/
theorem test_point :
    let t := after (.point false) (withArgs (after .create (withArgs base [10, 10])) [3, 4, 7])
    t.alpha.byte 8 = 8 ∧ t.color.byte 25 = 0x70 := by decide

/-- V60b: inside the region, outside the bitmap. -/
theorem test_point_clipped :
    let s := withRegion (bitmap 3 2 [0, 0] [0, 0, 0, 0]) 2 1 5 5
    (after (.point true) (withArgs s [2, 1, 4])).color = s.color := by decide

/-- V65. -/
theorem test_line_points : linePoints (-2) (-1) 2 1 = [(-2, -1), (-1, 0), (0, 0), (1, 0), (2, 1)] := by decide

/-- V61, on a bitmap one row high. -/
theorem test_line :
    let t := after (.line false) (withArgs (bitmap 5 1 [0] [0, 0, 0]) [0, 0, 4, 0, 7])
    firstBytes t.alpha 1 = [0x1F] ∧ firstBytes t.color 3 = [0x77, 0x77, 0x07] := by decide

/-- V70, V70a. -/
theorem test_rect : (after (.rect true) base).status.word = 0x0000020A := by decide

/-- V70, V70a. -/
theorem test_lineRect : (after (.lineRect true) base).status.word = 0x0000020A := by decide

/-- V70, V70a. -/
theorem test_circle : (after (.circle true) base).status.word = 0x0000020A := by decide

/-- V70, V70a. -/
theorem test_ellipse : (after (.ellipse true) base).status.word = 0x0000020A := by decide

/-- V70, V70a. -/
theorem test_ellipseQb : (after (.ellipseQb true) base).status.word = 0x0000020A := by decide

/-- V70, V70a. -/
theorem test_text : (after (.text true) base).status.word = 0x0000020A := by decide

/-- V80: registers after reset. -/
theorem test_reset_registers :
    State.reset.readReg .status = 8 ∧ State.reset.readReg .crbr = 1 ∧ State.reset.readReg (.template 3) = 0xFFFFFFFF := by
  decide

/-- The memories of the reset state are in the canonical form. -/
theorem test_reset_memories :
    Memory.wf State.reset.src.cells ∧ Memory.wf State.reset.alpha.cells ∧ Memory.wf State.reset.color.cells ∧
    Memory.wf State.reset.out.cells := by decide

/-- 95_test_vectors.md P1: `wr CMD, 0x20`, then the engine's turn, then `wait` returns STATUS. -/
theorem test_wait : ∃ t u v : State,
    step (withHost base [.wr 0 0x20, .wait]) = .next t ∧ step t = .next u ∧ step u = .next v ∧
    v.hostData = 0x00000008 ∧ v.host = [] := ⟨_, _, _, rfl, rfl, rfl, by decide, rfl⟩

/-! ### Witnesses: states and operands that meet the hypotheses of the statements -/

/-- One state for each line of 30_encoding.md R93. -/
theorem witness_EngineDecodesInOrder :
    (latched 0x80000000).engineTurn = true ∧ (0x80000000 : Word).extractLsb' 9 23 ≠ 0 ∧
    (latched 0x58).engineTurn = true ∧ (0x58 : Word).extractLsb' 9 23 = 0 ∧
    (0x58 : Word).extractLsb' 0 8 ∉ definedOpcodes ∧
    (latched 0x130).engineTurn = true ∧ (0x130 : Word).getLsbD 8 = true ∧
    (0x130 : Word).extractLsb' 0 8 ∈ definedOpcodes ∧ (0x130 : Word).extractLsb' 0 8 ∉ regionOpcodes ∧
    (latched 0x152).engineTurn = true ∧ ((0x152 : Word).extractLsb' 0 8).toNat = 0x52 ∧
    (latched 0x157).engineTurn = true ∧ ((0x157 : Word).extractLsb' 0 8).toNat = 0x57 ∧
    (latched 0x151).engineTurn = true ∧ ((0x151 : Word).extractLsb' 0 8).toNat = 0x51 := by decide

theorem witness_StepRunsDecodedCommand :
    (latched 0x151).engineTurn = true ∧ decode (latched 0x151).cmdLatch = .ok (.line true) := by decide

/-- The last legal operand and the first illegal one. -/
theorem witness_Hw2rgbGivesTheRgbWord :
    (withArgs base [63]).args[0].extractLsb' 6 26 = 0 ∧ (withArgs base [64]).args[0].extractLsb' 6 26 ≠ 0 := by decide

theorem witness_RgbIsInjective : rgb 0x14 = rgb 0b010100 := by decide

theorem witness_GdistGivesTheDistancePattern : (254 : Byte) ≠ 255 := by decide

theorem witness_LdistGivesTheDistancePattern : (0 : Byte) ≠ 255 := by decide

theorem witness_NearestIsTheLowestMinimum : (62 : HwColor).toNat < (nearest (rgb 63)).toNat := by decide +kernel

/-- A tie. -/
theorem witness_ShiftRoundsToNearestEven :
    2 * ((1 : Int) - (Binary64.shiftRoundEven 1 1 : Int) * 2 ^ 1).natAbs = 2 ^ 1 := by decide

/-- `a = b = x = 1.0`, and the largest exact integer. -/
theorem witness_AdditionRoundsToNearest :
    9007199254740992 ≤ 2 ^ 53 ∧
    Binary64.expField 0x3FF0000000000000 < 2047 ∧
    Binary64.expField (Binary64.add 0x3FF0000000000000 0x3FF0000000000000) < 2047 ∧
    Binary64.expField (Binary64.sub 0x3FF0000000000000 0x3FF0000000000000) < 2047 := by decide +kernel

/-- `1 + 2^-53` lies between 1 and `1 + 2^-52`, `1 - 2^-54` between `1 - 2^-53` and 1. -/
theorem witness_AdditionRoundsToNearest_tie :
    (let a : F64 := 0x3FF0000000000000
     let b : F64 := 0x3CA0000000000000
     let x : F64 := 0x3FF0000000000001
     let exact := Binary64.value a + Binary64.value b
     Binary64.expField (Binary64.add a b) < 2047 ∧
     (Binary64.value (Binary64.add a b) - exact).natAbs = (Binary64.value x - exact).natAbs ∧
     Binary64.value x ≠ Binary64.value (Binary64.add a b)) ∧
    (let a : F64 := 0x3FF0000000000000
     let b : F64 := 0x3C90000000000000
     let x : F64 := 0x3FEFFFFFFFFFFFFF
     let exact := Binary64.value a - Binary64.value b
     Binary64.expField (Binary64.sub a b) < 2047 ∧
     (Binary64.value (Binary64.sub a b) - exact).natAbs = (Binary64.value x - exact).natAbs ∧
     Binary64.value x ≠ Binary64.value (Binary64.sub a b)) := by decide +kernel

/-- `(1 + 2^-52) * 1.5` lies between two neighbours of 1.5. -/
theorem witness_MultiplicationRoundsToNearest_tie :
    let a : F64 := 0x3FF0000000000001
    let b : F64 := 0x3FF8000000000000
    let x : F64 := 0x3FF8000000000001
    let exact := Binary64.value a * Binary64.value b
    Binary64.expField (Binary64.mul a b) < 2047 ∧
    (Binary64.value (Binary64.mul a b) * 2 ^ 1074 - exact).natAbs = (Binary64.value x * 2 ^ 1074 - exact).natAbs ∧
    Binary64.value x ≠ Binary64.value (Binary64.mul a b) := by decide +kernel

theorem witness_MultiplicationRoundsToNearest :
    Binary64.expField 0x3FF0000000000000 < 2047 ∧
    Binary64.expField (Binary64.mul 0x3FF0000000000000 0x3FF0000000000000) < 2047 := by decide +kernel

theorem witness_NopWritesOnlyStatus : (0x100 : Word).extractLsb' 0 8 = 0 ∧ (0x100 : Word) ≠ 0 := by decide

/-- The largest size the capacity admits. -/
theorem witness_CreateZeroesThePlanes :
    (withArgs base [64, 64]).args[0].toNat ≤ (withArgs base [64, 64]).maxW.toNat ∧
    (withArgs base [64, 64]).args[1].toNat ≤ (withArgs base [64, 64]).maxH.toNat := by decide

/-- The first size beyond the capacity, in either dimension. -/
theorem witness_AllocationFailureHalts :
    (withArgs base [65, 1]).maxW.toNat < (withArgs base [65, 1]).args[0].toNat ∧
    (withArgs base [65, 1]).args[0] ≠ (withArgs base [65, 1]).width ∧
    (withArgs base [1, 65]).maxH.toNat < (withArgs base [1, 65]).args[1].toNat ∧
    (withArgs base [1, 65]).args[1] ≠ (withArgs base [1, 65]).height := by decide

theorem witness_ResizeDiscardsOrKeeps :
    base.args[0] = base.width ∧ base.args[1] = base.height ∧
    (withArgs base [64, 0]).args[0] ≠ (withArgs base [64, 0]).width ∧
    (withArgs base [64, 0]).args[0].toNat ≤ (withArgs base [64, 0]).maxW.toNat ∧
    (withArgs base [0, 64]).args[1] ≠ (withArgs base [0, 64]).height ∧
    (withArgs base [0, 64]).args[1].toNat ≤ (withArgs base [0, 64]).maxH.toNat := by decide

theorem witness_ClearOfTheFullRegion :
    (withArgs base [16]).args[0].extractLsb' 4 28 ≠ 0 ∧ (withArgs base [15]).args[0].extractLsb' 4 28 = 0 ∧
    (withArgs base [15]).resolveRegion false = (withArgs base [15]).fullRegion ∧
    (withRegion (bitmap 3 2 [] []) 0 0 3 2).resolveRegion true = (bitmap 3 2 [] []).fullRegion := by decide

/-- A region that covers a corner of the bitmap and leaves another pixel, and the padding of the written bytes. -/
theorem witness_ClearOfARegion :
    let s := withArgs (withRegion (bitmap 3 2 [0, 0] [0, 0, 0, 0]) 2 1 5 5) [15]
    s.args[0].extractLsb' 4 28 = 0 ∧ s.resolveRegion true ≠ s.fullRegion ∧
    s.Covers (s.resolveRegion true) 2 1 ∧ ¬ s.Covers (s.resolveRegion true) 1 1 ∧
    (¬ s.Covers (s.resolveRegion true) 7 1 ∧ 7 < 8 * ((s.w + 7) / 8)) ∧
    (¬ s.Covers (s.resolveRegion true) 3 1 ∧ 3 < 2 * (s.w / 2 + 1)) := by
  unfold State.Covers; decide

/-- The last pixel, and the first one outside. -/
theorem witness_GetColorReadsTheNibble :
    let s := withArgs (bitmap 3 2 [6, 0] [0x90, 9, 0, 0]) [2, 1]
    let u := withArgs (bitmap 3 2 [6, 0] [0x90, 9, 0, 0]) [3, 1]
    s.InRegion (s.resolveRegion false) s.args[0].toInt s.args[1].toInt ∧
    ¬ u.InRegion (u.resolveRegion false) u.args[0].toInt u.args[1].toInt := by decide

theorem witness_QuantizeChecksInOrder :
    (¬ ∀ i : SlotIx, (Palette.slot (slots 0xFF [64]) i).toNat < 64 ∨ Palette.slot (slots 0xFF [64]) i = 0xFF ∨
      Palette.slot (slots 0xFF [64]) i = 0xFE) ∧
    (∀ i : SlotIx, Palette.slot (slots 0xFE []) i = 0xFE) ∧
    (∃ i : SlotIx, Palette.slot base.template i ≠ 0xFE) ∧
    (∀ i : SlotIx, Palette.slot base.template i = 0xFF) ∧
    (withArgs base [65, 1]).maxW.toNat < (withArgs base [65, 1]).args[0].toNat := by decide

theorem witness_QuantizeStoresTheImage :
    TemplateLegal base.template ∧ usableSlots base.template ≠ 0 ∧
    (withArgs base [64, 64]).args[0].toNat ≤ (withArgs base [64, 64]).maxW.toNat ∧
    (withArgs base [64, 64]).args[1].toNat ≤ (withArgs base [64, 64]).maxH.toNat ∧
    (withArgs base [3, 1]).args[0].toNat ≤ 7 ∧ 7 < 8 * (((withArgs base [3, 1]).args[0].toNat + 7) / 8) ∧
    3 < 2 * ((withArgs base [3, 1]).args[0].toNat / 2 + 1) := by decide

/-- A template with a pinned slot, an excluded one and free ones. -/
theorem witness_QuantizeCodesTheClosestRetainedColor :
    let s := withArgs { base with template := slots 0xFF [9, 0xFE] } [2, 1]
    TemplateLegal s.template ∧ usableSlots s.template ≠ 0 ∧ s.args[0].toNat ≤ s.maxW.toNat ∧
    s.args[1].toNat ≤ s.maxH.toNat := by decide

theorem witness_ReductionReachesTheTotal :
    TemplateLegal (slots 0xFE [63]) ∧ usableSlots (slots 0xFE [63]) = 1 ∧
    Palette.slot (slots 0xFE [63]) 0 = (63 : HwColor).setWidth 8 := by decide

/-- With a fully free template some node is placed in the order of step 8. -/
theorem witness_ReductionReachesTheTotal_order :
    TemplateLegal base.template ∧ usableSlots base.template ≠ 0 ∧
    (withArgs base [64, 64]).args[0].toNat ≤ (withArgs base [64, 64]).maxW.toNat ∧
    (withArgs base [64, 64]).args[1].toNat ≤ (withArgs base [64, 64]).maxH.toNat ∧
    ∃ n, (((buildWork base.template []).reduce 64).dropFree).order[0]? = some n := by
  refine ⟨by decide, by decide, by decide, by decide, ?_⟩
  obtain ⟨h1, h2, -, h4⟩ := retained_spec (t := base.template) (by decide) (by decide) []
  generalize ((buildWork base.template []).reduce 64).dropFree = q at *
  rw [q.aliveCount_eq h1] at h2
  obtain ⟨n, -, hn⟩ := List.countP_pos_iff.1 h2
  have hfree : ∀ m : HwColor, ((forcedSlots base.template).getD m.toNat none).isNone = true := by decide
  have hmem : n ∈ q.order := (q.mem_order n).2 ⟨hn, by rw [h4.isRemovable, buildWork_isRemovable]; exact hfree n⟩
  cases ho : q.order with
  | nil => rw [ho] at hmem; cases hmem
  | cons m l => exact ⟨m, rfl⟩

/-- V45. -/
theorem witness_AllForcedTemplateIsThePalette :
    let s := withArgs { base with template := slots 0 [0, 1, 2, 3, 4, 5, 6, 7, 8, 9, 10, 11, 12, 13, 14, 15] } [4, 1]
    (∀ i, (Palette.slot s.template i).toNat < 64) ∧
    (∀ i j, i ≠ j → Palette.slot s.template i ≠ Palette.slot s.template j) ∧
    s.args[0].toNat ≤ s.maxW.toNat ∧ s.args[1].toNat ≤ s.maxH.toNat := by decide

theorem witness_QuantizedPaletteDecodes :
    ∃ t, exec .quantize (withArgs base [1, 1]) = .next t ∧ t.status.err = false := by
  refine ⟨((withArgs base [1, 1]).startCommand.quantize (withArgs base [1, 1]).args[0]
    (withArgs base [1, 1]).args[1]).completeCommand, ?_, ?_⟩
  · rw [exec, execQuantize_eq, if_neg (by decide), if_neg (by decide), if_neg (by decide)]
  · rw [State.quantize_frame]; rfl

theorem witness_DecodeChecksInOrder :
    (withArgs base [1, 0]).args[0] ≠ (withArgs base [1, 0]).width ∧ base.args[0] = base.width ∧
    base.args[1] = base.height ∧ ∃ i, 64 ≤ (Palette.slot (slots 0 [0, 0, 0, 64]) i).toNat := by decide

/-- The state after a recomputing DECODE. -/
theorem witness_DecodeHitsTheCache :
    let s := after .decode (withArgs (bitmap 2 1 [1] [1, 0]) [2, 1])
    s.args[0] = s.width ∧ s.args[1] = s.height ∧ (∀ i, (Palette.slot s.palIn i).toNat < 64) ∧
    s.status.dirty = false ∧ s.palIn = s.cachePal := by decide

/-- DIRTY = 1, and a palette that differs in one unused slot (V53). -/
theorem witness_DecodeRecomputesTheImage :
    let s := withArgs (bitmap 2 1 [1] [1, 0]) [2, 1]
    let u := { after .decode s with palIn := slots 7 [0, 0, 0, 0, 0, 0, 0, 0, 0, 0, 0, 0, 0, 0, 0] }
    s.args[0] = s.width ∧ s.args[1] = s.height ∧ (∀ i, (Palette.slot s.palIn i).toNat < 64) ∧ s.status.dirty = true ∧
    u.args[0] = u.width ∧ u.args[1] = u.height ∧ (∀ i, (Palette.slot u.palIn i).toNat < 64) ∧
    u.status.dirty = false ∧ u.palIn ≠ u.cachePal := by decide

theorem witness_DecodeTwiceHits :
    ∃ t, exec .decode (withArgs (bitmap 2 1 [1] [1, 0]) [2, 1]) = .next t ∧ t.status.err = false :=
  ⟨_, rfl, by decide⟩

theorem witness_PointSetsOnePixel :
    let s := withArgs (bitmap 3 2 [0, 0] [0, 0, 0, 0]) [2, 1, 15]
    let u := withArgs (bitmap 3 2 [0, 0] [0, 0, 0, 0]) [3, 1, 15]
    (withArgs base [0, 0, 16]).args[2].extractLsb' 4 28 ≠ 0 ∧ s.args[2].extractLsb' 4 28 = 0 ∧
    s.InRegion (s.resolveRegion false) s.args[0].toInt s.args[1].toInt ∧ u.args[2].extractLsb' 4 28 = 0 ∧
    ¬ u.InRegion (u.resolveRegion false) u.args[0].toInt u.args[1].toInt ∧
    7 < 8 * ((s.w + 7) / 8) ∧ 3 < 2 * (s.w / 2 + 1) := by decide

/-- V3: each side of the region's extent. -/
theorem witness_PointOutsideTheRegionIsClipped :
    let r := (withRegion base 0 0 3 3).resolveRegion true
    (withArgs base [0xFFFFFFFF]).args[0].toInt < 0 ∧ r.rw ≤ (withArgs base [3]).args[0].toInt ∧
    (withArgs base [0, 0xFFFFFFFF]).args[1].toInt < 0 ∧ r.rh ≤ (withArgs base [0, 3]).args[1].toInt := by decide

/-- V63: a line of which one point is clipped. -/
theorem witness_LineDrawsItsWalk :
    let s := withArgs (bitmap 5 1 [0] [0, 0, 0]) [0, 0, 3, 0xFFFFFFFF, 15]
    (withArgs base [0, 0, 1, 0, 16]).args[4].extractLsb' 4 28 ≠ 0 ∧ s.args[4].extractLsb' 4 28 = 0 ∧
    s.Hits (s.resolveRegion false) (linePoints 0 0 3 (-1)) 2 0 ∧
    ¬ s.InRegion (s.resolveRegion false) 3 (-1) := by
  refine ⟨by decide, by decide, ⟨(2, 0), by decide, by decide, by decide, by decide⟩, by decide⟩

theorem witness_LineStepsAlongItsMajorAxis :
    ¬ ((0 : Int) = 1 ∧ (0 : Int) = 3) ∧ ¬ ((3 : Int) = 0 ∧ (1 : Int) = 0) ∧ ¬ ((0 : Int) = 2 ∧ (0 : Int) = -2) := by
  decide

theorem witness_StraightLinesAreSegments :
    (0 : Int) ≠ 4 ∧ (1 : Int) ≠ -1 ∧ ((3 : Int) ≠ 1 ∧ ((1 : Int) - 3).natAbs = ((2 : Int) - 0).natAbs) := by decide

theorem witness_ReservedPrimitivesAreUnimplemented :
    Instr.text true ∈
      [Instr.rect true, .lineRect true, .circle true, .ellipse true, .ellipseQb true, .text true] := by decide

/-- A recoverable error, the allocation failure, and an idle step. -/
theorem witness_FailureChangesOnlyStatus :
    (∃ t, exec .hw2rgb (withArgs base [64]) = .next t ∧ t.status.err = true ∧ t.status.ecode = .arg) ∧
    (∃ t, exec .create (withArgs base [65, 1]) = .next t ∧ t.status.err = true ∧ t.status.ecode = .alloc) ∧
    (∃ t, base.engineTurn = false ∧ (∀ rest, base.host ≠ .reset :: rest) ∧ step base = .next t) :=
  ⟨⟨_, rfl, by decide, by decide⟩, ⟨_, rfl, by decide, by decide⟩, ⟨_, rfl, (by intro rest h; cases h), rfl⟩⟩

theorem witness_CommandsKeepTheHostsInputs : ∃ t, exec .nop base = .next t := ⟨_, rfl⟩

theorem witness_OnlyNamedCommandsWriteResults :
    (∃ t, exec .nop base = .next t) ∧ Instr.nop ∉ [Instr.create, .resize, .quantize, .decode] ∧
    (∀ rgn, Instr.nop ≠ .getColor rgn) ∧ Instr.nop ∉ [Instr.hw2rgb, .nearest, .gdist, .ldist] ∧
    Instr.nop ≠ .quantize ∧ Instr.nop ≠ .decode :=
  ⟨⟨_, rfl⟩, by decide, by decide, by decide, by decide, by decide⟩

/-- A change of size; a command that clears DIRTY; a command that hits. -/
theorem witness_EveryMutationSetsDirty :
    (∃ t, exec .create (withArgs base [3, 2]) = .next t ∧ t.width ≠ (withArgs base [3, 2]).width) ∧
    (∃ t, base.status.dirty = true ∧ exec .decode base = .next t ∧ t.status.dirty = false) ∧
    (∃ t, exec .decode (after .decode base) = .next t ∧ t.status.hit = true) :=
  ⟨⟨_, rfl, by decide⟩, ⟨_, by decide, rfl, by decide⟩, ⟨_, rfl, by decide⟩⟩

/-- V54: after DECODE 0,0 from reset DIRTY is 0, and OUT is empty. -/
theorem witness_StepKeepsTheCacheCoherent :
    (after .decode base).status.dirty = false ∧ (after .decode base).CacheCoherent ∧
    ∃ t, step (after .decode base) = .next t := by
  refine ⟨by decide, fun _ a ha => ?_, ⟨_, rfl⟩⟩
  exact absurd ha (Nat.not_lt_zero a)

theorem witness_StepKeepsTheInvariant : base.Inv ∧ ∃ t, step base = .next t := by
  refine ⟨⟨by decide, by decide, by decide, by decide, ⟨by decide, by decide⟩, ⟨by decide, by decide⟩,
    ⟨by decide, by decide⟩, ⟨by decide, by decide⟩, by decide, by decide, by decide, by decide, by decide⟩, ⟨_, rfl⟩⟩

/-- A move of each kind at the edge of what is answered, and no move at all. -/
theorem witness_AnsweredMovesGoOn :
    let s := base
    s.MoveAnswered (.wr 0xFC 0) ∧ s.MoveAnswered (.rd 0xFC) ∧ s.MoveAnswered (.wrb .src 16384 0) ∧
    s.MoveAnswered (.ww .src 16384 0) ∧ s.MoveAnswered (.rdb .out 7) ∧ s.MoveAnswered (.rdw .out 8) ∧
    s.MoveAnswered .wait ∧ s.MoveAnswered .reset ∧
    (latched 0).MoveAnswered (.wr 0 0) ∧ (latched 0).MoveAnswered (.rd 4) ∧
    ∀ op rest, s.host = op :: rest → s.MoveAnswered op := by
  refine ⟨?_, ?_, ?_, ?_, ?_, ?_, ?_, ?_, ?_, ?_, ?_⟩
  · exact ⟨by decide, by decide⟩
  · exact ⟨by decide, by decide⟩
  · exact rfl
  · exact ⟨by decide, by decide⟩
  · exact rfl
  · exact ⟨by decide, by decide⟩
  · trivial
  · trivial
  · exact ⟨by decide, by decide⟩
  · exact ⟨by decide, by decide⟩
  · intro op rest h; cases h

/-- The block after an allocation failure (V27a). -/
theorem witness_FatalLastsUntilReset :
    let s := withHost (after .create (withArgs base [65, 1])) [.wr 0 0x20]
    s.status.fatal = true ∧ s.status.busy = false ∧ (∀ rest, s.host ≠ .reset :: rest) ∧ (∃ t, step s = .next t) ∧
    (withHost s [.reset]).host = .reset :: [] :=
  ⟨by decide, by decide, (by intro rest h; cases h), ⟨_, rfl⟩, rfl⟩

/-- A CMD write in the fatal state, while busy, and when it is accepted. -/
theorem witness_CmdWriteStartsACommand :
    let fatal := withHost (after .create (withArgs base [65, 1])) [.wr 0 0x20]
    let busy := withHost (latched 0x20) [.wr 0 0x10]
    let idle := withHost base [.wr 0 0x20]
    (fatal.host = [.wr 0 0x20] ∧ fatal.status.fatal = true) ∧
    (busy.host = [.wr 0 0x10] ∧ busy.status.fatal = false ∧ busy.status.busy = true) ∧
    (idle.host = [.wr 0 0x20] ∧ idle.status.fatal = false ∧ idle.status.busy = false) := by decide

theorem witness_RegisterWritesReadBack :
    (Reg.arg 7 ≠ .cmd ∧ (Reg.arg 7).writable = true ∧ Reg.status ≠ .cmd ∧ Reg.status.writable = false) ∧
    ((withHost base [.wr 0x3C 5]).host = [.wr 0x3C 5] ∧ (withHost base [.wr 0x3C 5]).status.busy = false ∧
      regOfOffset 0x3C = some (.arg 7)) ∧
    ((withHost base [.rd 0xFC]).host = [.rd 0xFC] ∧ (withHost base [.rd 0xFC]).status.busy = false ∧
      regOfOffset 0xFC = some .reserved) ∧
    (withHost (latched 0) [.rd 0x04]).host = [.rd 0x04] := by decide

theorem witness_RegisterOffsets :
    0xA0 ≤ (0xA0 : BitVec 8).toNat ∧ (0xA0 : BitVec 8).toNat % 4 = 0 ∧ 0xA0 ≤ (0xFC : BitVec 8).toNat ∧
    (0xFC : BitVec 8).toNat % 4 = 0 := by decide

/-- One read of each kind, and a STATUS read while busy. -/
theorem witness_HostReadsHaveNoSideEffect :
    (withHost base [.rd 0xFC]).engineTurn = false ∧ (∃ t, step (withHost base [.rd 0xFC]) = .next t) ∧
    (withHost base [.rdb .out 0]).engineTurn = false ∧ (∃ t, step (withHost base [.rdb .out 0]) = .next t) ∧
    (withHost base [.rdw .color 4]).engineTurn = false ∧ (∃ t, step (withHost base [.rdw .color 4]) = .next t) ∧
    (withHost base [.wait]).engineTurn = false ∧ (∃ t, step (withHost base [.wait]) = .next t) ∧
    (withHost (latched 0) [.rd 4]).engineTurn = false ∧ (∃ t, step (withHost (latched 0) [.rd 4]) = .next t) :=
  ⟨rfl, ⟨_, rfl⟩, rfl, ⟨_, rfl⟩, rfl, ⟨_, rfl⟩, rfl, ⟨_, rfl⟩, rfl, ⟨_, rfl⟩⟩

/-- The last byte and the last word of SRC, the first ones beyond it, and a write to a window that is read only. -/
theorem witness_HostWritesReachOnlySrc :
    let s := withHost base [.wrb .src 16383 1]
    let u := withHost base [.ww .src 16380 1]
    let v := withHost base [.wrb .out 0 1]
    let w := withHost base [.ww .alpha 0 1]
    let beyond := withHost base [.wrb .src 16384 1]
    let wordBeyond := withHost base [.ww .src 16384 1]
    (s.host = [.wrb .src 16383 1] ∧ s.status.busy = false ∧ 16383 < 4 * s.maxW.toNat * s.maxH.toNat) ∧
    (u.host = [.ww .src 16380 1] ∧ u.status.busy = false ∧ 16380 % 4 = 0 ∧
      16380 + 3 < 4 * u.maxW.toNat * u.maxH.toNat) ∧
    (v.host = [.wrb .out 0 1] ∧ v.status.busy = false ∧ Space.out ≠ .src) ∧
    (w.host = [.ww .alpha 0 1] ∧ w.status.busy = false ∧ 0 % 4 = 0 ∧ Space.alpha ≠ .src) ∧
    (beyond.host = [.wrb .src 16384 1] ∧ beyond.status.busy = false ∧
      4 * beyond.maxW.toNat * beyond.maxH.toNat ≤ 16384) ∧
    (wordBeyond.host = [.ww .src 16384 1] ∧ wordBeyond.status.busy = false ∧ 16384 % 4 = 0 ∧
      4 * wordBeyond.maxW.toNat * wordBeyond.maxH.toNat ≤ 16384) := by decide

/-- The last byte and the last word of a window. -/
theorem witness_HostReadsTheWindowBytes :
    let s := withHost (bitmap 3 2 [6, 0] [0x90, 9, 0, 0]) [.rdb .alpha 1]
    let u := withHost (bitmap 3 2 [6, 0] [0x90, 9, 0, 0]) [.rdw .color 0]
    (s.host = [.rdb .alpha 1] ∧ s.status.busy = false ∧ 1 < s.windowSize .alpha) ∧
    (u.host = [.rdw .color 0] ∧ u.status.busy = false ∧ 0 % 4 = 0 ∧ 0 + 4 ≤ u.windowSize .color) := by decide

/-- Reset while a command is latched. -/
theorem witness_PlatformResetRestoresTheBlock :
    (withHost (latched 0x20) [.reset]).host = [.reset] ∧ (withHost (latched 0x20) [.reset]).status.busy = true := by decide

end Sys2Proof.Tests
end

/-! PROOFS of the scope's statements (00_scope.md R6): binary64 rounding is to nearest, ties to even.

The one idea is `shiftRoundEven_nearest_significand`: against a value that is a multiple of the answer's unit, the error of
at most half a unit decides; any other value lies below the answer's binade, so the binade's lower end, itself a multiple,
is strictly between it and the exact number. -/

namespace Sys2Proof.Binary64

/-! ### The range of `bitLength`: numbers of up to 2^13 bits -/

theorem add_lt_range {m n l : Nat} (hm : m < 2 ^ l) (hn : n < 2 ^ l) (hl : l < 8192) : m + n < 2 ^ 2 ^ 13 :=
  calc m + n < 2 ^ (l + 1) := by rw [Nat.pow_succ]; omega
    _ ≤ 2 ^ 2 ^ 13 := Nat.pow_le_pow_right (by decide) hl

theorem mul_lt_range {m n l : Nat} (hm : m < 2 ^ l) (hn : n < 2 ^ l) (hl : l + l ≤ 8192) : m * n < 2 ^ 2 ^ 13 :=
  calc m * n < 2 ^ l * 2 ^ l := Nat.mul_lt_mul'' hm hn
    _ = 2 ^ (l + l) := (Nat.pow_add ..).symm
    _ ≤ 2 ^ 2 ^ 13 := Nat.pow_le_pow_right (by decide) hl

/-! ### The rounded significand -/

/-- Settles O13, from the floor and the remainder of `shiftRoundEven_spec`. -/
theorem shiftRoundsToNearestEven : Obligations.ShiftRoundsToNearestEven := by
  intro m t q error
  obtain ⟨d, r, hm, hr, hq⟩ := shiftRoundEven_spec m t
  have hmt : (m : Int) = d * 2 ^ t + r := by rw [hm]; push_cast; rfl
  rcases hq with ⟨hq, hhalf⟩ | ⟨hq, hhalf⟩
  · have herr : error = 2 ^ t - r := by
      have : (m : Int) - (q : Int) * 2 ^ t = r - (2 ^ t : Nat) := by simp only [q, hq, hmt]; push_cast; ring
      simp only [error, this]; omega
    omega
  · have herr : error = r := by
      have : (m : Int) - (q : Int) * 2 ^ t = r := by simp only [q, hq, hmt]; ring
      simp only [error, this]; omega
    omega

theorem shiftRoundEven_of_dvd {m t : Nat} (h : 2 ^ t ∣ m) : shiftRoundEven m t * 2 ^ t = m := by
  obtain ⟨c, rfl⟩ := h
  rw [Nat.mul_comm]
  congr 1
  exact Nat.le_antisymm (shiftRoundEven_le _ t c (Nat.mul_comm _ _).le) (le_shiftRoundEven _ t c (Nat.mul_comm _ _).ge)

/-- No multiple of `2^t` is nearer to `m` than the rounded one, and another is as near only when that one is even. -/
theorem shiftRoundEven_nearest_multiple (m t : Nat) (z : Int) :
    ((shiftRoundEven m t : Int) * 2 ^ t - m).natAbs ≤ (z * 2 ^ t - m).natAbs ∧
      (((shiftRoundEven m t : Int) * 2 ^ t - m).natAbs = (z * 2 ^ t - m).natAbs → z ≠ shiftRoundEven m t →
        shiftRoundEven m t % 2 = 0) := by
  obtain ⟨hhalf, heven⟩ := shiftRoundsToNearestEven m t
  rcases eq_or_ne z (shiftRoundEven m t) with rfl | hne
  · exact ⟨le_rfl, fun _ h => absurd rfl h⟩
  · have hgap : 2 ^ t ≤ (z * 2 ^ t - shiftRoundEven m t * 2 ^ t).natAbs := by
      rw [← Int.sub_mul, Int.natAbs_mul, Int.natAbs_pow]
      exact Nat.le_mul_of_pos_left _ (Int.natAbs_pos.2 (sub_ne_zero.2 hne))
    exact ⟨by omega, fun h _ => heven (by omega)⟩

/-- `y` stands for the value of any binary64 number, which is a multiple of `2^e` unless it lies below the binade. -/
theorem shiftRoundEven_nearest_significand {m k e : Nat} {y : Int} (hy : 2 ^ 52 * 2 ^ e ≤ y.natAbs → 2 ^ e ∣ y.natAbs)
    (hm : e = 0 ∨ 2 ^ 52 * 2 ^ (k + e) ≤ m) :
    let q : Int := shiftRoundEven m (k + e)
    (q * 2 ^ e * 2 ^ k - m).natAbs ≤ (y * 2 ^ k - m).natAbs ∧
      ((q * 2 ^ e * 2 ^ k - m).natAbs = (y * 2 ^ k - m).natAbs → y ≠ q * 2 ^ e →
        shiftRoundEven m (k + e) % 2 = 0) := by
  intro q
  have hunit : ∀ z : Int, z * 2 ^ e * 2 ^ k = z * 2 ^ (k + e) := fun z => by ring
  rw [hunit]
  by_cases hdvd : 2 ^ e ∣ y.natAbs
  · obtain ⟨z, rfl⟩ : ∃ z, y = z * 2 ^ e := by
      obtain ⟨z, hz⟩ := Int.natCast_dvd.2 hdvd
      exact ⟨z, by rw [hz]; push_cast; ring⟩
    rw [hunit]
    obtain ⟨hle, htie⟩ := shiftRoundEven_nearest_multiple m (k + e) z
    exact ⟨hle, fun h hne => htie h fun hz => hne (by rw [hz])⟩
  · have hbinade : 2 ^ 52 * 2 ^ (k + e) ≤ m := hm.resolve_left fun h0 => hdvd (by simp [h0])
    have hbelow : y * 2 ^ k < 2 ^ 52 * 2 ^ (k + e) := by
      have hlt : y < 2 ^ 52 * 2 ^ e := by
        have hlt : y.natAbs < 2 ^ 52 * 2 ^ e := Nat.lt_of_not_le fun h => hdvd (hy h)
        exact lt_of_le_of_lt Int.le_natAbs (by exact_mod_cast hlt)
      calc y * 2 ^ k < 2 ^ 52 * 2 ^ e * 2 ^ k := Int.mul_lt_mul_of_pos_right hlt (by positivity)
        _ = 2 ^ 52 * 2 ^ (k + e) := hunit _
    have hend : (q * 2 ^ (k + e) - m).natAbs ≤ (2 ^ 52 * 2 ^ (k + e) - m : Int).natAbs :=
      (shiftRoundEven_nearest_multiple m (k + e) (2 ^ 52)).1
    have hbinade' : (2 ^ 52 * 2 ^ (k + e) : Int) ≤ m := by exact_mod_cast hbinade
    have hlt : (q * 2 ^ (k + e) - m).natAbs < (y * 2 ^ k - m).natAbs := by
      omega
    exact ⟨hlt.le, fun h _ => absurd h hlt.ne⟩

/-! ### The rounded pattern -/

/-- `p` is `exact * 2^-(1074 + k)` rounded to nearest, ties to even: no number is nearer, and when one of another value is
as near, the significand of `p` is even. -/
def RoundsToNearestEven (p : F64) (exact : Int) (k : Nat) : Prop :=
  ∀ x : F64,
    (value p * 2 ^ k - exact).natAbs ≤ (value x * 2 ^ k - exact).natAbs ∧
    ((value p * 2 ^ k - exact).natAbs = (value x * 2 ^ k - exact).natAbs → value x ≠ value p → p.getLsbD 0 = false)

theorem getLsbD_zero_eq_false {p : F64} (h : p.toNat % 2 = 0) : p.getLsbD 0 = false := by
  rw [BitVec.getLsbD, Nat.testBit_zero, h]; rfl

theorem natAbs_value (x : F64) : (value x).natAbs = magnitude x := by
  unfold value; split <;> simp

theorem value_pattern (neg : Bool) {bits : Nat} (h : bits < 2 ^ 63) :
    value (pattern neg bits) = if neg then -(magnitude (pattern neg bits) : Int) else magnitude (pattern neg bits) := by
  rw [value, signBit_pattern neg h]

theorem value_pattern_zero (neg : Bool) : value (pattern neg 0) = 0 := by cases neg <;> decide

/-- The magnitude is rounded and the sign is kept, so a negative exact number is the mirror image of a positive one. -/
theorem roundMagnitude_nearest {m k : Nat} {neg : Bool} (hm : m < 2 ^ 2 ^ 13)
    (hfin : expField (pattern neg (roundMagnitude m k)) < 2047) :
    RoundsToNearestEven (pattern neg (roundMagnitude m k)) (if neg then -(m : Int) else m) k := by
  intro x
  obtain ⟨hmag, hlow, hlast⟩ := roundMagnitude_spec m k neg hm hfin
  rw [value_pattern neg (roundMagnitude_lt m k), hmag, Nat.cast_mul, Nat.cast_pow, Nat.cast_ofNat]
  have hx : ∀ e, 2 ^ 52 * 2 ^ e ≤ (value x).natAbs → 2 ^ e ∣ (value x).natAbs := by
    rw [natAbs_value]; exact fun e => magnitude_dvd x
  cases neg with
  | false =>
    obtain ⟨hle, htie⟩ := shiftRoundEven_nearest_significand (hx _) hlow
    exact ⟨hle, fun h hne => getLsbD_zero_eq_false (hlast.trans (htie h hne))⟩
  | true =>
    have hmirror : ∀ v : Int, (v * 2 ^ k - -m).natAbs = (-v * 2 ^ k - m).natAbs := fun v => by
      rw [← Int.natAbs_neg]; congr 1; ring
    rw [← Int.natAbs_neg] at hx
    obtain ⟨hle, htie⟩ := shiftRoundEven_nearest_significand (hx _) hlow
    simp only [if_true, hmirror, neg_neg]
    exact ⟨hle, fun h hne => getLsbD_zero_eq_false (hlast.trans (htie h fun hv => hne (neg_eq_iff_eq_neg.1 hv)))⟩

theorem roundSum_nearest {v : Int} {zeroNeg : Bool} (hv : v.natAbs < 2 ^ 2 ^ 13)
    (hfin : expField (roundSum v zeroNeg) < 2047) : RoundsToNearestEven (roundSum v zeroNeg) v 0 := by
  by_cases h0 : v = 0
  · subst h0
    intro x
    rw [roundSum, if_pos rfl, value_pattern_zero]
    exact ⟨by simp, fun h hne => absurd (by simpa using h.symm) hne⟩
  · rw [roundSum, if_neg h0] at hfin ⊢
    have hsign : (if decide (v < 0) then -(v.natAbs : Int) else v.natAbs) = v := by
      split <;> simp only [decide_eq_true_eq] at * <;> omega
    simpa only [hsign] using roundMagnitude_nearest hv hfin

/-! ### Exactness of `f64(n)` -/

theorem bitLength_le {m l : Nat} (hm : m < 2 ^ 2 ^ 13) (h : m < 2 ^ l) : bitLength m ≤ l := by
  rcases Nat.eq_zero_or_pos m with rfl | hpos
  · exact Nat.zero_le _
  · refine Nat.le_of_lt_succ ((Nat.pow_lt_pow_iff_right (le_refl 2)).1 ?_)
    calc 2 ^ bitLength m ≤ 2 * m := (bitLength_spec hm).2 hpos
      _ < 2 ^ (l + 1) := by rw [Nat.pow_succ]; omega

/-- At most 2 above the number of binades: 1 for the hidden bit, 1 for a significand that rounds up to 2^53. -/
theorem expField_roundMagnitude_le {m k : Nat} (neg : Bool) (hm : m < 2 ^ 2 ^ 13) :
    expField (pattern neg (roundMagnitude m k)) ≤ bitLength m - k - 53 + 2 := by
  rw [expField_pattern neg (roundMagnitude_lt m k)]
  have hup : m ≤ 2 ^ 53 * 2 ^ (k + (bitLength m - k - 53)) := by
    rw [← Nat.pow_add]
    exact (bitLength_spec hm).1.le.trans (Nat.pow_le_pow_right (by decide) (by omega))
  have hq := shiftRoundEven_le m _ _ hup
  have hr : roundMagnitude m k ≤
      (bitLength m - k - 53) * 2 ^ 52 + shiftRoundEven m (k + (bitLength m - k - 53)) := by
    rw [roundMagnitude, Nat.shiftLeft_eq]
    exact Nat.min_le_left _ _
  omega

/-- A number of 53 bits in units of `2^t` has at most `t` bits to drop, all 0; 2^53 itself has one bit more, and is a power
of 2. -/
theorem unit_of_le {n t : Nat} (hn : n ≤ 2 ^ 53) (hm : n * 2 ^ t < 2 ^ 2 ^ 13) :
    bitLength (n * 2 ^ t) - 53 ≤ t + 1 ∧ 2 ^ (bitLength (n * 2 ^ t) - 53) ∣ n * 2 ^ t := by
  rcases hn.lt_or_eq with hlt | rfl
  · have hlen : bitLength (n * 2 ^ t) ≤ 53 + t := bitLength_le hm <| by
      rw [Nat.pow_add]
      exact Nat.mul_lt_mul_of_pos_right hlt (Nat.two_pow_pos t)
    exact ⟨by omega, Dvd.dvd.mul_left (pow_dvd_pow 2 (by omega)) n⟩
  · rw [← Nat.pow_add] at hm ⊢
    have hlen : bitLength (2 ^ (53 + t)) ≤ 53 + t + 1 := bitLength_le hm (Nat.pow_lt_pow_succ (by decide))
    exact ⟨by omega, pow_dvd_pow 2 (by omega)⟩

theorem value_ofNat {n : Nat} (hn : n ≤ 2 ^ 53) : value (ofNat n) = (n : Int) * 2 ^ 1074 := by
  rw [ofNat, Nat.shiftLeft_eq]
  have hm : n * 2 ^ 1074 < 2 ^ 2 ^ 13 :=
    mul_lt_range (lt_of_le_of_lt hn (Nat.pow_lt_pow_right (by decide) (by decide)))
      (Nat.pow_lt_pow_succ (by decide)) (by decide)
  obtain ⟨hlen, hdvd⟩ := unit_of_le hn hm
  have hfin : expField (pattern false (roundMagnitude (n * 2 ^ 1074) 0)) < 2047 :=
    lt_of_le_of_lt (expField_roundMagnitude_le false hm) (by omega)
  obtain ⟨hmag, -, -⟩ := roundMagnitude_spec _ _ _ hm hfin
  rw [Nat.zero_add, Nat.sub_zero, shiftRoundEven_of_dvd hdvd] at hmag
  rw [value_pattern false (roundMagnitude_lt _ _), hmag]
  push_cast
  rfl

/-! ### The operations -/

theorem natAbs_add_natAbs_lt (a b : F64) : (value a).natAbs + (value b).natAbs < 2 ^ 2 ^ 13 := by
  rw [natAbs_value, natAbs_value]
  exact add_lt_range (magnitude_lt a) (magnitude_lt b) (by decide)

theorem add_nearest {a b : F64} (hfin : expField (add a b) < 2047) :
    RoundsToNearestEven (add a b) (value a + value b) 0 :=
  roundSum_nearest (lt_of_le_of_lt (Int.natAbs_add_le _ _) (natAbs_add_natAbs_lt a b)) hfin

theorem sub_nearest {a b : F64} (hfin : expField (sub a b) < 2047) :
    RoundsToNearestEven (sub a b) (value a - value b) 0 :=
  roundSum_nearest (lt_of_le_of_lt (Int.natAbs_sub_le _ _) (natAbs_add_natAbs_lt a b)) hfin

theorem value_mul_value (a b : F64) : value a * value b =
    if signBit a != signBit b then -((magnitude a * magnitude b : Nat) : Int) else (magnitude a * magnitude b : Nat) := by
  unfold value
  cases signBit a <;> cases signBit b <;> simp

theorem mul_nearest {a b : F64} (hfin : expField (mul a b) < 2047) :
    RoundsToNearestEven (mul a b) (value a * value b) 1074 := by
  rw [value_mul_value]
  exact roundMagnitude_nearest (mul_lt_range (magnitude_lt a) (magnitude_lt b) (by decide)) hfin

/-- Settles O14: the exactness of `f64(n)`, and the one rounding lemma for sums at the sum and at the difference. -/
theorem additionRoundsToNearest : Obligations.AdditionRoundsToNearest := by
  refine ⟨fun n hn => value_ofNat hn, fun a b x _ _ _ => ⟨fun hfin => ?_, fun hfin => ?_⟩⟩
  · simpa only [pow_zero, mul_one] using add_nearest hfin x
  · simpa only [pow_zero, mul_one] using sub_nearest hfin x

/-- Settles O15: the rounding lemma at the product of the magnitudes. -/
theorem multiplicationRoundsToNearest : Obligations.MultiplicationRoundsToNearest :=
  fun _ _ x _ _ _ hfin => mul_nearest hfin x

end Sys2Proof.Binary64

/-! PROOFS of the statements of 10_state.md about the register block: offsets, palette words, and what a register reads
after a write. -/

namespace Sys2Proof.Machine

/-! ### Offsets (R22) -/

/-- The words of the block from 0xA0 on are reserved. -/
theorem regAt_reserved {i : Nat} (h : 40 ≤ i) : regAt i = .reserved := by
  obtain ⟨j, rfl⟩ := Nat.exists_eq_add_of_le' h
  rfl

theorem regOfOffset_aligned {off : BitVec 8} (h : off.toNat % 4 = 0) : regOfOffset off = some (regAt (off.toNat / 4)) :=
  if_pos h

/-- Settles O55: the registers by evaluation, the reserved offsets from `regAt_reserved`. -/
theorem registerOffsets : Obligations.RegisterOffsets := by
  have reserved (off : BitVec 8) (hlow : 0xA0 ≤ off.toNat) (halign : off.toNat % 4 = 0) :
      regOfOffset off = some .reserved := by
    rw [regOfOffset_aligned halign, regAt_reserved (by omega)]
  exact ⟨rfl, rfl, rfl, rfl, rfl, rfl, rfl, rfl, by decide, rfl, rfl, rfl, rfl, rfl, rfl, rfl, rfl, reserved⟩

/-! ### Palette words (R30) -/

theorem Palette.readWord_byte (p : Palette) (k j : Fin 4) :
    (Palette.readWord p k).extractLsb' (8 * j.val) 8 = p[4 * k.val + j.val] := by
  obtain ⟨h0, h1, h2, h3⟩ := word_bytes p[4 * k.val + 3] p[4 * k.val + 2] p[4 * k.val + 1] p[4 * k.val]
  match j with
  | 0 => exact h0
  | 1 => exact h1
  | 2 => exact h2
  | 3 => exact h3

/-- A word written replaces its own four bytes, the lowest in the lowest slot. -/
theorem Palette.getElem_writeWord (p : Palette) (k : Fin 4) (v : Word) (i : Nat) (hi : i < 16) :
    (Palette.writeWord p k v)[i] = if i / 4 = k.val then v.extractLsb' (8 * (i % 4)) 8 else p[i] := by
  simp only [Palette.writeWord, Vector.getElem_set]
  by_cases hk : i / 4 = k.val
  · have hcases : i = 4 * k.val ∨ i = 4 * k.val + 1 ∨ i = 4 * k.val + 2 ∨ i = 4 * k.val + 3 := by omega
    rw [if_pos hk]
    rcases hcases with rfl | rfl | rfl | rfl <;> simp
  · rw [if_neg hk, if_neg (by omega), if_neg (by omega), if_neg (by omega), if_neg (by omega)]

theorem Palette.readWord_writeWord (p : Palette) (k k' : Fin 4) (v : Word) :
    Palette.readWord (Palette.writeWord p k v) k' = if k' = k then v else Palette.readWord p k' := by
  have hbyte (j : Nat) (hj : j < 4) : (Palette.writeWord p k v)[4 * k'.val + j] =
      if k' = k then v.extractLsb' (8 * j) 8 else p[4 * k'.val + j] := by
    rw [Palette.getElem_writeWord, show (4 * k'.val + j) / 4 = k'.val by omega,
      show (4 * k'.val + j) % 4 = j by omega]
    simp only [Fin.ext_iff]
  rw [Palette.readWord, hbyte 3 (by decide), hbyte 2 (by decide), hbyte 1 (by decide),
    show (Palette.writeWord p k v)[4 * k'.val] = _ from hbyte 0 (by decide)]
  split
  · exact word_of_bytes v
  · rfl

/-- Settles O54, from what a word reads and writes byte by byte. -/
theorem paletteWordsAreLittleEndian : Obligations.PaletteWordsAreLittleEndian :=
  ⟨Palette.readWord_byte, Palette.readWord_writeWord, by decide⟩

/-! ### Registers (R22) -/

/-- A host write to a register other than CMD reaches only the registers of access RW. -/
theorem State.writeReg_frame (s : State) {r : Reg} (hr : r ≠ .cmd) (v : Word) :
    let t := s.writeReg r v
    t = { s with args := t.args, rgnOx := t.rgnOx, rgnOy := t.rgnOy, rgnW := t.rgnW, rgnH := t.rgnH, palIn := t.palIn
                 template := t.template } := by
  cases r with
  | cmd => exact absurd rfl hr
  | _ => rfl

theorem State.writeReg_readOnly (s : State) {r : Reg} (hr : r ≠ .cmd) (h : r.writable = false) (v : Word) :
    s.writeReg r v = s := by
  cases r with
  | cmd => exact absurd rfl hr
  | arg | rgnOx | rgnOy | rgnW | rgnH | palIn | template => cases h
  | _ => rfl

theorem State.readReg_writeReg_same (s : State) {r : Reg} (h : r.writable = true) (v : Word) :
    (s.writeReg r v).readReg r = v := by
  cases r with
  | arg k => exact Vector.getElem_set_self k.isLt
  | rgnOx | rgnOy | rgnW | rgnH => rfl
  | palIn k | template k => exact (Palette.readWord_writeWord _ k k v).trans (if_pos rfl)
  | _ => cases h

/-- Only the other words of the same vector or palette file can be touched by a write, and they are not. -/
theorem State.readReg_writeReg_other (s : State) {r r' : Reg} (hr : r ≠ .cmd) (hne : r' ≠ r) (v : Word) :
    (s.writeReg r v).readReg r' = s.readReg r' := by
  cases r with
  | cmd => exact absurd rfl hr
  | arg k =>
    cases r' with
    | arg j => exact Vector.getElem_set_ne k.isLt j.isLt fun h => hne (congrArg Reg.arg (Fin.ext h.symm))
    | _ => rfl
  | palIn k =>
    cases r' with
    | palIn j => exact (Palette.readWord_writeWord _ k j v).trans (if_neg fun h => hne (congrArg Reg.palIn h))
    | _ => rfl
  | template k =>
    cases r' with
    | template j => exact (Palette.readWord_writeWord _ k j v).trans (if_neg fun h => hne (congrArg Reg.template h))
    | _ => rfl
  | rgnOx =>
    cases r' with
    | rgnOx => exact absurd rfl hne
    | _ => rfl
  | rgnOy =>
    cases r' with
    | rgnOy => exact absurd rfl hne
    | _ => rfl
  | rgnW =>
    cases r' with
    | rgnW => exact absurd rfl hne
    | _ => rfl
  | rgnH =>
    cases r' with
    | rgnH => exact absurd rfl hne
    | _ => rfl
  | _ => rfl

theorem State.readReg_writeReg (s : State) (r r' : Reg) (v : Word) (hr : r ≠ .cmd) :
    (s.writeReg r v).readReg r' = if r' = r ∧ r.writable = true then v else s.readReg r' := by
  by_cases hw : r.writable = true
  · by_cases he : r' = r
    · rw [if_pos ⟨he, hw⟩, he, s.readReg_writeReg_same hw]
    · rw [if_neg fun h => he h.1, s.readReg_writeReg_other hr he]
  · rw [if_neg fun h => hw h.2, s.writeReg_readOnly hr (by simpa using hw)]

/-! ### The host's moves on registers (R23, 20_memory.md R74) -/

/-- No register shows the host's list of moves, and no register write depends on it. -/
theorem State.readReg_withHost (s : State) (l : List HostOp) (r : Reg) :
    ({ s with host := l } : State).readReg r = s.readReg r := by
  cases r <;> rfl

theorem State.writeReg_withHost (s : State) (l : List HostOp) {r : Reg} (hr : r ≠ .cmd) (v : Word) :
    ({ s with host := l } : State).writeReg r v = { s.writeReg r v with host := l } := by
  cases r with
  | cmd => exact absurd rfl hr
  | _ => rfl

theorem step_wr {s : State} {off : BitVec 8} {r : Reg} {v : Word} {rest : List HostOp} (hh : s.host = .wr off v :: rest)
    (hb : s.status.busy = false) (hreg : regOfOffset off = some r) :
    step s = .next (({ s with host := rest } : State).writeReg r v) := by
  rw [step_move (State.engineTurn_of_idle hb) hh, hb]
  simp [State.moveWhileIdle, hreg]

theorem step_rd {s : State} {off : BitVec 8} {r : Reg} {rest : List HostOp} (hh : s.host = .rd off :: rest)
    (hb : s.status.busy = false) (hreg : regOfOffset off = some r) :
    step s = .next { s with host := rest, hostData := s.readReg r } := by
  rw [step_move (State.engineTurn_of_idle hb) hh, hb]
  simp [State.moveWhileIdle, hreg, State.readReg_withHost, State.returnToHost]

theorem step_rd_status {s : State} {rest : List HostOp} (hh : s.host = .rd 0x04 :: rest) :
    step s = .next { s with host := rest, hostData := s.readReg .status } := by
  cases hb : s.status.busy with
  | false => exact step_rd hh hb rfl
  | true =>
    rw [step_move (State.engineTurn_of_move hh (by simp)) hh, hb]
    rfl

/-- A CMD write, whatever BUSY is. -/
theorem step_wr_cmd {s : State} {v : Word} {rest : List HostOp} (hh : s.host = .wr 0 v :: rest) :
    step s = .next (({ s with host := rest } : State).writeCmd v) := by
  cases hb : s.status.busy with
  | false => exact step_wr hh hb rfl
  | true =>
    rw [step_move (State.engineTurn_of_move hh (by simp)) hh, hb]
    rfl

/-- Settles O53: the write of a register, and the host's step on `wr` and `rd` as that access. -/
theorem registerWritesReadBack : Obligations.RegisterWritesReadBack := by
  refine ⟨fun s r r' v hr => ⟨s.readReg_writeReg r r' v hr, fun hw => s.writeReg_readOnly hr hw v⟩, ?_,
    fun _ _ _ _ hh hb hreg => step_rd hh hb hreg, fun _ _ hh => step_rd_status hh⟩
  intro s off r v rest hh hb hreg hr
  rw [step_wr hh hb hreg, State.writeReg_withHost s rest hr]

/-! ### The three cases of a CMD write (R23) -/

theorem State.writeCmd_fatal (s : State) (v : Word) (hf : s.status.fatal = true) : s.writeCmd v = s := if_pos hf

theorem State.writeCmd_busy (s : State) (v : Word) (hb : s.status.busy = true) : s.writeCmd v = s := by
  rw [State.writeCmd, if_pos hb, ite_self]

theorem State.writeCmd_idle (s : State) (v : Word) (hf : s.status.fatal = false) (hb : s.status.busy = false) :
    s.writeCmd v = { s with cmdLatch := v, status := { s.status with busy := true } } := by
  simp [State.writeCmd, hf, hb]

/-- Settles O52: the step is the CMD write, which has three cases. -/
theorem cmdWriteStartsACommand : Obligations.CmdWriteStartsACommand := by
  refine ⟨fun s v rest hh => ?_, fun s r v => by cases r <;> rfl, rfl⟩
  rw [step_wr_cmd hh]
  exact ⟨fun hf => congrArg _ (State.writeCmd_fatal _ v hf), fun _ hb => congrArg _ (State.writeCmd_busy _ v hb),
    fun hf hb => congrArg _ (State.writeCmd_idle _ v hf hb)⟩

end Sys2Proof.Machine

/-! PROOFS of the statements of 10_state.md about every command and every step: what a command writes, and the two
invariants.

The one idea of the cache's invariant is `CommandOutcome.clean_cases`: a command that ends with DIRTY = 0 has either
just recomputed OUT, or started with DIRTY = 0 and touched nothing that OUT is decoded from. The other invariant is kept
by three changes, of STATUS, of the planes, and of the size (`State.Inv.withStatus`, `State.Inv.repaint`,
`State.Inv.reallocate`), and every outcome of a command is one of them. -/

namespace Sys2Proof.Machine

section Commands

variable {i : Instr} {s t : State}

/-! ### What every command does (R24, 20_memory.md R80) -/

theorem exec_next (i : Instr) (s : State) : ∃ t, exec i s = .next t := by
  cases i <;> exact ⟨_, rfl⟩

theorem CommandOutcome.idle (h : CommandOutcome i s t) : t.status.busy = false := by
  cases h <;> rfl

/-- Settles O42: every arm answers, and every outcome ends with BUSY = 0. -/
theorem everyCommandCompletes : Obligations.EveryCommandCompletes := fun i s =>
  let ⟨t, ht⟩ := exec_next i s
  ⟨t, ht, (exec_outcome ht).idle⟩

theorem State.clearRegion_frame (s : State) (r : Region) (c : SlotIx) :
    s.clearRegion r c = { s with
      status := { s.status with dirty := (s.clearRegion r c).status.dirty }
      alpha := (s.clearRegion r c).alpha
      color := (s.clearRegion r c).color } :=
  (s.clearRegion_spec r c).1

/-- A command writes STATUS, the size, the results, PAL_OUT, CACHE_PAL, the planes, OUT, the working state and the
model's count of draws, and nothing else. -/
theorem CommandOutcome.frame (h : CommandOutcome i s t) :
    t = { s with
      status := t.status, width := t.width, height := t.height, res0 := t.res0, res1 := t.res1, palOut := t.palOut
      cachePal := t.cachePal, alpha := t.alpha, color := t.color, out := t.out, work := t.work, draws := t.draws } := by
  cases h with
  | quantized => rw [State.quantize_frame]; rfl
  | clearedRegion => rw [State.clearRegion_frame]; rfl
  | plotted => rw [State.foldl_plot_frame]; rfl
  | _ => rfl

/-- Settles O44, from the frame of a command. -/
theorem commandsKeepTheHostsInputs : Obligations.CommandsKeepTheHostsInputs := by
  intro i s t h
  rw [(exec_outcome h).frame]
  exact ⟨rfl, rfl, rfl, rfl, rfl, rfl, rfl, rfl, rfl, rfl, rfl, rfl, rfl⟩

/-! ### Which commands write which results (R27, R28, R33, R36) -/

theorem CommandOutcome.size_eq (h : CommandOutcome i s t) (hi : i ∉ [Instr.create, .resize, .quantize]) :
    t.width = s.width ∧ t.height = s.height := by
  cases h with
  | created h | resized h | quantized h => exact absurd (by simp [h]) hi
  | clearedRegion => rw [State.clearRegion_frame]; exact ⟨rfl, rfl⟩
  | plotted => rw [State.foldl_plot_frame]; exact ⟨rfl, rfl⟩
  | _ => exact ⟨rfl, rfl⟩

theorem CommandOutcome.result_eq (h : CommandOutcome i s t) (hg : ∀ rgn, i ≠ .getColor rgn)
    (hi : i ∉ [Instr.hw2rgb, .nearest, .gdist, .ldist]) : t.res0 = s.res0 ∧ t.res1 = s.res1 := by
  cases h with
  | result _ _ h =>
    rcases h with ⟨rgn, h⟩ | h
    · exact absurd h (hg rgn)
    · exact absurd h hi
  | quantized => rw [State.quantize_frame]; exact ⟨rfl, rfl⟩
  | clearedRegion => rw [State.clearRegion_frame]; exact ⟨rfl, rfl⟩
  | plotted => rw [State.foldl_plot_frame]; exact ⟨rfl, rfl⟩
  | _ => exact ⟨rfl, rfl⟩

theorem CommandOutcome.palOut_work_eq (h : CommandOutcome i s t) (hi : i ≠ .quantize) :
    t.palOut = s.palOut ∧ t.work = s.work := by
  cases h with
  | quantized h => exact absurd h hi
  | clearedRegion => rw [State.clearRegion_frame]; exact ⟨rfl, rfl⟩
  | plotted => rw [State.foldl_plot_frame]; exact ⟨rfl, rfl⟩
  | _ => exact ⟨rfl, rfl⟩

theorem CommandOutcome.cachePal_eq (h : CommandOutcome i s t) (hi : i ≠ .decode) : t.cachePal = s.cachePal := by
  cases h with
  | recomputed h => exact absurd h hi
  | quantized => rw [State.quantize_frame]; rfl
  | clearedRegion => rw [State.clearRegion_frame]; rfl
  | plotted => rw [State.foldl_plot_frame]; rfl
  | _ => rfl

theorem CommandOutcome.out_eq (h : CommandOutcome i s t) (hi : i ∉ [Instr.create, .resize, .quantize, .decode]) :
    t.out = s.out := by
  cases h with
  | created h | resized h | quantized h | recomputed h => exact absurd (by simp [h]) hi
  | clearedRegion => rw [State.clearRegion_frame]; rfl
  | plotted => rw [State.foldl_plot_frame]; rfl
  | _ => rfl

/-- Settles O45, one lemma for each kind of result. -/
theorem onlyNamedCommandsWriteResults : Obligations.OnlyNamedCommandsWriteResults := by
  intro i s t h
  have ho := exec_outcome h
  exact ⟨ho.size_eq, ho.result_eq, ho.palOut_work_eq, ho.cachePal_eq, ho.out_eq⟩

/-! ### DIRTY and HIT (R35, 20_memory.md R84) -/

/-- CLEAR of a region that ends clean has visited no pixel. -/
theorem State.clearRegion_of_clean {r : Region} {c : SlotIx} (hd : (s.clearRegion r c).status.dirty = false) :
    s.clearRegion r c = s := by
  simp only [State.clearRegion] at hd ⊢
  split at hd
  · next hempty => rw [if_pos hempty, List.isEmpty_iff.1 hempty]; rfl
  · cases hd

/-- A walk of plots that ends clean has plotted no pixel. -/
theorem State.foldl_plot_of_clean {r : Region} {c : SlotIx} {points : List (Int × Int)}
    (hd : (points.foldl (State.plot r c) s).status.dirty = false) : points.foldl (State.plot r c) s = s := by
  have hmiss : ∀ p ∈ points, ¬ s.InRegion r p.1 p.2 := fun p hp hin => by
    have := (s.foldl_plot_dirty r c points).2 (.inr ⟨_, _, p, hp, hin.hits⟩)
    rw [hd] at this
    cases this
  exact foldl_invariant _ (· = s) points (fun u hu p hp => by rw [hu]; exact if_neg (hmiss p hp)) s rfl

/-- Everything that OUT is compared with is as before (R36, R37). -/
structure State.SameImage (s t : State) : Prop where
  width : t.width = s.width
  height : t.height = s.height
  alpha : t.alpha = s.alpha
  color : t.color = s.color
  out : t.out = s.out
  cachePal : t.cachePal = s.cachePal

/-- A command that ends with DIRTY = 0 recomputed OUT, or found DIRTY = 0 and changed no image. -/
theorem CommandOutcome.clean_cases (h : CommandOutcome i s t) (hd : t.status.dirty = false) :
    (i = .decode ∧ t = s.startCommand.recompute.completeCommand) ∨ (s.status.dirty = false ∧ s.SameImage t) := by
  cases h with
  | recomputed h => exact .inl ⟨h, rfl⟩
  | created | resized | clearedFull | clearedAlpha => cases hd
  | quantized => rw [State.quantize_frame] at hd; cases hd
  | clearedRegion =>
    have hsame := State.clearRegion_of_clean hd
    rw [hsame] at hd ⊢
    exact .inr ⟨hd, rfl, rfl, rfl, rfl, rfl, rfl⟩
  | plotted =>
    have hsame := State.foldl_plot_of_clean hd
    rw [hsame] at hd ⊢
    exact .inr ⟨hd, rfl, rfl, rfl, rfl, rfl, rfl⟩
  | _ => exact .inr ⟨hd, rfl, rfl, rfl, rfl, rfl, rfl⟩

/-- A command that ends with DIRTY = 0 has changed neither plane nor the size. -/
theorem CommandOutcome.bitmap_of_clean (h : CommandOutcome i s t) (hd : t.status.dirty = false) :
    t.alpha = s.alpha ∧ t.color = s.color ∧ t.width = s.width ∧ t.height = s.height := by
  rcases h.clean_cases hd with ⟨-, rfl⟩ | ⟨-, hsame⟩
  · exact ⟨rfl, rfl, rfl, rfl⟩
  · exact ⟨hsame.alpha, hsame.color, hsame.width, hsame.height⟩

theorem CommandOutcome.decode_of_hit (h : CommandOutcome i s t) (hh : t.status.hit = true) : i = .decode := by
  cases h with
  | hit h | recomputed h => exact h
  | quantized => rw [State.quantize_frame] at hh; cases hh
  | clearedRegion => rw [State.clearRegion_frame] at hh; cases hh
  | plotted => rw [State.foldl_plot_frame] at hh; cases hh
  | _ => cases hh

/-- Settles O46, from `CommandOutcome.clean_cases`. -/
theorem everyMutationSetsDirty : Obligations.EveryMutationSetsDirty := by
  intro i s t h
  have ho := exec_outcome h
  refine ⟨fun hchanged => ?_, fun hs ht => ?_, ho.decode_of_hit⟩
  · by_contra hd
    obtain ⟨ha, hc, hw, hh⟩ := ho.bitmap_of_clean (by simpa using hd)
    simp [ha, hc, hw, hh] at hchanged
  · rcases ho.clean_cases ht with ⟨hi, -⟩ | ⟨hclean, -⟩
    · exact hi
    · rw [hs] at hclean; cases hclean

end Commands

/-! ### The cache (R37) -/

theorem State.SameImage.alphaGet {s t : State} (h : s.SameImage t) (x y : Nat) : t.alphaGet x y = s.alphaGet x y := by
  simp only [State.alphaGet, State.alphaOffset, State.w, h.width, h.alpha]

theorem State.SameImage.nibGet {s t : State} (h : s.SameImage t) (x y : Nat) : t.nibGet x y = s.nibGet x y := by
  simp only [State.nibGet, State.colorOffset, State.w, h.width, h.color]

theorem State.SameImage.decodeByte {s t : State} (h : s.SameImage t) (p : Palette) (a : Nat) :
    t.decodeByte p a = s.decodeByte p a := by
  simp only [State.decodeByte, State.decodePixel, State.w, h.width, h.alphaGet, h.nibGet]

theorem State.SameImage.cacheCoherent {s t : State} (h : s.SameImage t) (hs : s.CacheCoherent)
    (hd : t.status.dirty = false → s.status.dirty = false) : t.CacheCoherent := by
  intro ht a ha
  rw [h.decodeByte, h.cachePal, h.out]
  refine hs (hd ht) a ?_
  simpa only [State.outSize, State.w, State.h, h.width, h.height] using ha

/-- A recomputing DECODE leaves OUT the decode of the planes under PAL_IN, which it copies to CACHE_PAL (43_decoder.md
R244, R245). -/
theorem State.recompute_cacheCoherent (s : State) : s.recompute.completeCommand.CacheCoherent := by
  intro _ a ha
  have hin : a < s.outSize := ha
  show (Memory.lookup (s.decodeImage s.palIn) a).getD _ = s.decodeByte s.palIn a
  rw [State.decodeImage, Memory.lookup_tabulate, if_pos hin]
  rfl

theorem CommandOutcome.cacheCoherent {i : Instr} {s t : State} (h : CommandOutcome i s t) (hs : s.CacheCoherent) :
    t.CacheCoherent := by
  intro hd
  rcases h.clean_cases hd with ⟨-, rfl⟩ | ⟨hclean, hsame⟩
  · exact s.startCommand.recompute_cacheCoherent hd
  · exact hsame.cacheCoherent hs (fun _ => hclean) hd

/-- No move but the reset, which sets DIRTY, touches an image or DIRTY. -/
theorem MoveOutcome.cacheCoherent {op : HostOp} {s t : State} (h : MoveOutcome s op t) (hs : s.CacheCoherent) :
    t.CacheCoherent := by
  cases h with
  | reset => intro hd; cases hd
  | wroteReg r v hr =>
    rw [s.writeReg_frame hr]
    exact State.SameImage.cacheCoherent ⟨rfl, rfl, rfl, rfl, rfl, rfl⟩ hs id
  | _ => exact State.SameImage.cacheCoherent ⟨rfl, rfl, rfl, rfl, rfl, rfl⟩ hs id

theorem engineStep_cases {s t : State} (h : engineStep s = .next t) :
    (∃ i, CommandOutcome i s t) ∨ t = s.raiseError .cmd := by
  unfold engineStep at h
  split at h
  · exact .inl ⟨_, exec_outcome h⟩
  · exact .inr (by cases h; rfl)

/-- Settles O47, by what a step can do: a command, an idle step, or a move. -/
theorem stepKeepsTheCacheCoherent : Obligations.StepKeepsTheCacheCoherent := by
  intro s t hs h
  rcases step_cases h with ⟨-, he⟩ | ⟨-, -, rfl⟩ | ⟨op, rest, -, -, hm⟩
  · rcases engineStep_cases he with ⟨i, ho⟩ | rfl
    · exact ho.cacheCoherent hs
    · exact State.SameImage.cacheCoherent ⟨rfl, rfl, rfl, rfl, rfl, rfl⟩ hs id
  · exact hs
  · exact (move_outcome (s := { s with host := rest }) hm).cacheCoherent hs

/-! ### The invariant (R27, R33, R34, R36, 60_exceptions.md R302, R306) -/

/-- What STATUS shows of an error (R24) and of the fatal state (60_exceptions.md R306). -/
structure Status.Shown (st : Status) : Prop where
  errIffCode : st.err = true ↔ st.ecode ≠ .ok
  fatalShown : st.fatal = true → st.busy = false ∧ st.err = true ∧ st.ecode = .alloc

theorem Status.shown_of_ok {st : Status} (herr : st.err = false) (hcode : st.ecode = .ok) (hf : st.fatal = false) :
    st.Shown where
  errIffCode := by simp [herr, hcode]
  fatalShown := by simp [hf]

theorem Status.failed_shown {st : Status} (hf : st.fatal = false) {c : ECode} (hc : c ≠ .ok) :
    (st.failed c).Shown where
  errIffCode := by simp [Status.failed, hc]
  fatalShown := by simp [Status.failed, hf]

theorem Status.halted_shown (st : Status) : st.halted.Shown where
  errIffCode := by simp [Status.halted]
  fatalShown := fun _ => ⟨rfl, rfl, rfl⟩

theorem State.Inv.planesHeld {s : State} (h : s.Inv) : s.PlanesHeld :=
  ⟨h.alphaWithin, h.colorWithin, h.alphaSpecified⟩

/-- While a command is latched the block is not in the fatal state, so the command may clear ERR and ECODE. -/
theorem State.Inv.not_fatal {s : State} (h : s.Inv) (hb : s.status.busy = true) : s.status.fatal = false := by
  by_contra hf
  have hidle := (h.fatalShown (by simpa using hf)).1
  rw [hb] at hidle
  cases hidle

theorem State.Inv.withStatus {s : State} (h : s.Inv) {st : Status} (hst : st.Shown) :
    ({ s with status := st } : State).Inv :=
  { h with errIffCode := hst.errIffCode, fatalShown := hst.fatalShown }

/-- Pixels painted, or planes filled, in a bitmap of the same size. -/
theorem State.Inv.repaint {s t : State} (h : s.Inv)
    (hframe : t = { s with status := t.status, alpha := t.alpha, color := t.color }) (hst : t.status.Shown)
    (hplanes : t.PlanesHeld) (hdraw : t.alpha.draw = s.alpha.draw ∧ t.color.draw = s.color.draw) : t.Inv := by
  obtain ⟨hsrc, halpha, hcolor, hout⟩ := h.drawsMade
  rw [← hdraw.1] at halpha
  rw [← hdraw.2] at hcolor
  obtain ⟨haw, hcw, has⟩ := hplanes
  rw [hframe] at haw hcw has ⊢
  exact { h with
    alphaWithin := haw, colorWithin := hcw, alphaSpecified := has, errIffCode := hst.errIffCode
    fatalShown := hst.fatalShown, drawsMade := ⟨hsrc, halpha, hcolor, hout⟩ }

/-- A bitmap of a new size within the capacity, OUT drawn anew. -/
theorem State.Inv.reallocate {s t : State} (h : s.Inv) {w h' : Word} (hcap : ¬ s.ExceedsCapacity w h') {k : Nat}
    (hframe : t = { s with
      status := t.status, width := w, height := h', alpha := t.alpha, color := t.color, out := Window.unspecified k
      palOut := t.palOut, work := t.work, draws := t.draws })
    (hst : t.status.Shown) (hplanes : t.PlanesHeld) (hpal : PaletteLegal t.palOut)
    (hdraw : s.draws ≤ t.draws ∧ t.alpha.draw < t.draws ∧ t.color.draw < t.draws ∧ k < t.draws) : t.Inv := by
  obtain ⟨hdraws, halpha, hcolor, hk⟩ := hdraw
  obtain ⟨haw, hcw, has⟩ := hplanes
  obtain ⟨hw, hh⟩ := not_or.1 hcap
  have hpal' := (paletteLegal_iff _).1 hpal
  have hsrc : s.src.draw < t.draws := lt_of_lt_of_le h.drawsMade.1 hdraws
  rw [hframe] at haw hcw has ⊢
  exact { h with
    widthFits := Nat.not_lt.1 hw, heightFits := Nat.not_lt.1 hh
    alphaWithin := haw, colorWithin := hcw, alphaSpecified := has, outWithin := Memory.within_nil _
    palOutLegal := hpal', errIffCode := hst.errIffCode, fatalShown := hst.fatalShown
    drawsMade := ⟨hsrc, halpha, hcolor, hk⟩ }

theorem State.PlanesHeld.completeCommand {s : State} (h : s.PlanesHeld) : s.completeCommand.PlanesHeld :=
  ⟨h.alphaWithin, h.colorWithin, h.alphaSpecified⟩

theorem State.PlanesHeld.startCommand {s : State} (h : s.PlanesHeld) : s.startCommand.PlanesHeld :=
  ⟨h.alphaWithin, h.colorWithin, h.alphaSpecified⟩

theorem State.PlanesHeld.markDirty {s : State} (h : s.PlanesHeld) : s.markDirty.PlanesHeld :=
  ⟨h.alphaWithin, h.colorWithin, h.alphaSpecified⟩

theorem State.quantize_palOut_legal (s : State) (sw sh : Word) : PaletteLegal (s.quantize sw sh).palOut := by
  rw [State.quantize_palOut]
  exact resolvedPalette_legal _

theorem State.quantize_draws (s : State) (sw sh : Word) : (s.quantize sw sh).draws = s.draws + 1 := by
  rw [State.quantize_frame]

section Commands

variable {i : Instr} {s t : State}

theorem CommandOutcome.shown (h : CommandOutcome i s t) (hf : s.status.fatal = false) : t.status.Shown := by
  cases h with
  | failed c _ hc => exact Status.failed_shown hf hc
  | halted => exact Status.halted_shown _
  | quantized => rw [State.quantize_frame]; exact Status.shown_of_ok rfl rfl hf
  | clearedRegion => rw [State.clearRegion_frame]; exact Status.shown_of_ok rfl rfl hf
  | plotted => rw [State.foldl_plot_frame]; exact Status.shown_of_ok rfl rfl hf
  | _ => exact Status.shown_of_ok rfl rfl hf

/-- A command that starts outside the fatal state keeps the invariant. -/
theorem CommandOutcome.inv (h : CommandOutcome i s t) (hs : s.Inv) (hf : s.status.fatal = false) : t.Inv := by
  have hst := h.shown hf
  have hplanes := hs.planesHeld.startCommand
  have hpal := (paletteLegal_iff _).2 hs.palOutLegal
  obtain ⟨-, halpha, hcolor, -⟩ := hs.drawsMade
  cases h with
  | failed | halted | unchanged | hit => exact hs.withStatus hst
  | result => exact { hs.withStatus hst with }
  | recomputed => exact { hs.withStatus hst with outWithin := s.startCommand.recompute_outWithin }
  | created _ hcap =>
    exact hs.reallocate hcap (k := s.draws) rfl hst (State.createBitmap_planesHeld _ _ _).completeCommand hpal
      ⟨Nat.le_succ _, Nat.lt_succ_of_lt halpha, Nat.lt_succ_of_lt hcolor, Nat.lt_succ_self _⟩
  | resized _ hcap =>
    exact hs.reallocate hcap (k := s.draws + 1) rfl hst (State.resizeBitmap_planesHeld _ _ _).completeCommand hpal
      ⟨Nat.le_add_right _ 2, Nat.lt_add_right 2 halpha, Nat.lt_add_of_pos_right Nat.zero_lt_two, Nat.lt_succ_self _⟩
  | quantized _ _ _ hcap =>
    refine hs.reallocate hcap (k := s.draws) (by rw [State.quantize_frame]; rfl) hst
      (State.quantize_planesHeld _ _ _).completeCommand (State.quantize_palOut_legal _ _ _) ?_
    simp only [State.completeCommand_draws, State.completeCommand_alpha, State.completeCommand_color,
      State.quantize_draws, State.quantize_draw, State.startCommand_draws, State.startCommand_alpha,
      State.startCommand_color]
    omega
  | clearedFull =>
    exact hs.repaint rfl hst (State.clearFull_planesHeld _ _).completeCommand ⟨rfl, rfl⟩
  | clearedAlpha =>
    exact hs.repaint rfl hst (State.fillAlpha_planesHeld 0 hplanes.colorWithin).markDirty.completeCommand ⟨rfl, rfl⟩
  | clearedRegion =>
    exact hs.repaint (by rw [State.clearRegion_frame]; rfl) hst (hplanes.clearRegion _ _).completeCommand
      (State.clearRegion_draw _ _ _)
  | plotted =>
    exact hs.repaint (by rw [State.foldl_plot_frame]; rfl) hst (hplanes.foldl_plot _ _ _).completeCommand
      (State.foldl_plot_draw _ _ _ _)

end Commands

/-- After the platform's reset every window is empty and every register but the capacity is fixed. -/
theorem State.Inv.platformReset {s : State} (h : s.Inv) : s.platformReset.Inv where
  capacityW := h.capacityW
  capacityH := h.capacityH
  widthFits := Nat.zero_le _
  heightFits := Nat.zero_le _
  srcWithin := Memory.within_nil _
  alphaWithin := Memory.within_nil _
  colorWithin := Memory.within_nil _
  outWithin := Memory.within_nil _
  alphaSpecified := fun a ha => absurd (ha.trans_eq (Nat.zero_mul _)) (Nat.not_lt_zero a)
  palOutLegal := fun i => by simp [State.platformReset, State.reset, Palette.slot]
  errIffCode := show Status.reset.err = true ↔ Status.reset.ecode ≠ .ok by decide
  fatalShown := fun hf => by cases hf
  drawsMade := ⟨Nat.lt_succ_self _, Nat.succ_pos _, Nat.succ_pos _, Nat.succ_pos _⟩

theorem MoveOutcome.inv {op : HostOp} {s t : State} (h : MoveOutcome s op t) (hs : s.Inv) : t.Inv := by
  obtain ⟨hsrc, halpha, hcolor, hout⟩ := hs.drawsMade
  cases h with
  | started v _ hf => exact { hs with fatalShown := fun hf' => by rw [hf] at hf'; cases hf' }
  | wroteReg r v hr => rw [s.writeReg_frame hr]; exact { hs with }
  | ignored => exact hs
  | answered v n hn =>
    exact { hs with drawsMade := ⟨hsrc.trans_le hn, halpha.trans_le hn, hcolor.trans_le hn, hout.trans_le hn⟩ }
  | wroteSrc w hw hdraw =>
    exact { hs with srcWithin := hw hs.srcWithin, drawsMade := ⟨hdraw.trans_lt hsrc, halpha, hcolor, hout⟩ }
  | reset => exact hs.platformReset

theorem engineStep_inv {s t : State} (hs : s.Inv) (hb : s.status.busy = true) (h : engineStep s = .next t) : t.Inv := by
  have hf := hs.not_fatal hb
  rcases engineStep_cases h with ⟨i, ho⟩ | rfl
  · exact ho.inv hs hf
  · exact hs.withStatus (Status.failed_shown hf (c := .cmd) (by decide))

/-- Settles O48, by what a step can do; a command runs only outside the fatal state. -/
theorem stepKeepsTheInvariant : Obligations.StepKeepsTheInvariant := by
  intro s t hs h
  rcases step_cases h with ⟨hturn, he⟩ | ⟨-, -, rfl⟩ | ⟨op, rest, -, -, hm⟩
  · exact engineStep_inv hs (Bool.and_eq_true_iff.1 hturn).1 he
  · exact hs
  · exact (move_outcome (s := { s with host := rest }) hm).inv { hs with }

end Sys2Proof.Machine

/-! PROOFS of the statements of 20_memory.md: the engine's step as the decoded command, which moves are answered, and what
the host reads and writes through the windows. -/

namespace Sys2Proof

/-! ### Decoding a command's word (30_encoding.md R92, R93) -/

/-- The reserved bits of a command's word are 0, so R93 comes to the opcode map. -/
theorem decode_encode_eq_decodeOpcode (i : Instr) : decode (encode i) = decodeOpcode i.opcode i.region := by
  rw [decode, cmdFields_encode]
  exact if_neg (not_not_intro rfl)

theorem decode_encode (i : Instr) : decode (encode i) = .ok i := by
  rw [decode_encode_eq_decodeOpcode]
  cases i <;> rfl

end Sys2Proof

namespace Sys2Proof.Machine

/-! ### The engine's step (R80, 30_encoding.md R93) -/

theorem step_of_decode {s : State} {i : Instr} (hturn : s.engineTurn = true) (hdec : decode s.cmdLatch = .ok i) :
    step s = exec i s := by
  rw [step_engine hturn, engineStep, hdec]

theorem State.withFetchWord_engineTurn (s : State) (nbits w : Nat) : (s.withFetchWord nbits w).engineTurn = true := rfl

theorem State.withFetchWord_cmdLatch (s : State) (c : Word) : (s.withFetchWord 32 c.toNat).cmdLatch = c := by
  rw [State.withFetchWord, Nat.mod_eq_of_lt c.isLt, BitVec.ofNat_toNat, BitVec.setWidth_eq]

/-- Settles O3: the latched word decodes to its command, and the engine's step is that command's meaning. -/
theorem stepRunsDecodedCommand : Obligations.StepRunsDecodedCommand := by
  refine ⟨fun _ _ => step_of_decode, fun s i => step_of_decode (s.withFetchWord_engineTurn _ _) ?_⟩
  rw [State.withFetchWord_cmdLatch, decode_encode]

theorem engineStep_goesOn (s : State) : GoesOn (engineStep s) := by
  unfold engineStep
  split
  next i _ => exact exec_next i s
  next => exact ⟨_, rfl⟩

/-! ### Which moves are answered (R63, R73, R77, 70_reset_and_hazards.md R350) -/

theorem step_move_idle {s : State} {op : HostOp} {rest : List HostOp} (hh : s.host = op :: rest)
    (hb : s.status.busy = false) : step s = ({ s with host := rest } : State).moveWhileIdle op := by
  rw [step_move (State.engineTurn_of_idle hb) hh, hb]
  rfl

theorem State.moveWhileBusy_goesOn {s : State} {op : HostOp} (hbusy : s.status.busy = true) (h : s.MoveAnswered op) :
    GoesOn (s.moveWhileBusy op) := by
  cases op with
  | wr off v =>
    obtain ⟨-, hcmd⟩ := h
    obtain rfl := hcmd hbusy
    exact ⟨_, rfl⟩
  | rd off =>
    obtain ⟨-, hstatus⟩ := h
    obtain rfl := hstatus hbusy
    exact ⟨_, rfl⟩
  | wait | reset => exact ⟨_, rfl⟩
  | wrb | rdb => exact absurd (hbusy.symm.trans h) (by decide)
  | ww | rdw => exact absurd (hbusy.symm.trans h.1) (by decide)

theorem State.moveWhileIdle_goesOn {s : State} {op : HostOp} (h : s.MoveAnswered op) : GoesOn (s.moveWhileIdle op) := by
  cases op with
  | wr off v =>
    obtain ⟨halign, -⟩ := h
    exact ⟨s.writeReg (regAt (off.toNat / 4)) v, by rw [State.moveWhileIdle, regOfOffset_aligned halign]⟩
  | rd off =>
    obtain ⟨halign, -⟩ := h
    exact ⟨s.returnToHost (s.readReg (regAt (off.toNat / 4))),
      by rw [State.moveWhileIdle, regOfOffset_aligned halign]⟩
  | ww sp a v => exact ⟨_, if_pos h.2⟩
  | rdw sp a => exact ⟨_, if_pos h.2⟩
  | wrb | rdb | wait | reset => exact ⟨_, rfl⟩

/-- Settles O50, by whose turn it is: the engine's step always goes on, and so does every answered move. -/
theorem answeredMovesGoOn : Obligations.AnsweredMovesGoOn := by
  intro s hanswered
  cases hturn : s.engineTurn with
  | true => exact step_engine hturn ▸ engineStep_goesOn s
  | false =>
    cases hhost : s.host with
    | nil => exact ⟨s, step_idle hturn hhost⟩
    | cons op rest =>
      have hop : ({ s with host := rest } : State).MoveAnswered op := hanswered op rest hhost
      rw [step_move hturn hhost]
      split
      next hbusy => exact State.moveWhileBusy_goesOn hbusy hop
      next => exact State.moveWhileIdle_goesOn hop

/-! ### Host reads (R62, R63, R74) -/

/-- The moves of the host that read: a register, a byte or a word of a window, or STATUS in a wait. -/
def HostOp.IsRead (op : HostOp) : Prop :=
  (∃ off, op = .rd off) ∨ (∃ sp a, op = .rdb sp a) ∨ (∃ sp a, op = .rdw sp a) ∨ op = .wait

/-- Apart from the value for the host, a read can only use up a draw (log 5). -/
theorem State.returnToHost_countHostDraw_frame (s : State) (v : Word) (sp : Space) (a n : Nat) :
    let t := (s.returnToHost v).countHostDraw sp a n
    t = { s with hostData := t.hostData, draws := t.draws } := by
  obtain ⟨k, -, hk⟩ := (s.returnToHost v).countHostDraw_draws_only sp a n
  rw [hk]
  rfl

/-- While a command is in progress the host's reads are the STATUS read and the wait. -/
theorem State.moveWhileBusy_read_frame {s t : State} {op : HostOp} (hread : op.IsRead)
    (h : s.moveWhileBusy op = .next t) : t = { s with hostData := t.hostData, draws := t.draws } := by
  rcases hread with ⟨off, rfl⟩ | ⟨sp, a, rfl⟩ | ⟨sp, a, rfl⟩ | rfl
  · simp only [State.moveWhileBusy] at h
    split at h <;> cases h
    rfl
  · cases h
  · cases h
  · cases h; rfl

theorem State.moveWhileIdle_read_frame {s t : State} {op : HostOp} (hread : op.IsRead)
    (h : s.moveWhileIdle op = .next t) : t = { s with hostData := t.hostData, draws := t.draws } := by
  rcases hread with ⟨off, rfl⟩ | ⟨sp, a, rfl⟩ | ⟨sp, a, rfl⟩ | rfl
  · simp only [State.moveWhileIdle] at h
    split at h <;> cases h
    rfl
  · cases h
    exact s.returnToHost_countHostDraw_frame _ sp a 1
  · simp only [State.moveWhileIdle] at h
    split at h <;> cases h
    exact s.returnToHost_countHostDraw_frame _ sp a 4
  · cases h; rfl

/-- Settles O56: outside the engine's turn the step is the read, busy or idle, and both have the frame. -/
theorem hostReadsHaveNoSideEffect : Obligations.HostReadsHaveNoSideEffect := by
  intro s t op rest hhost hturn hread h
  rw [step_move hturn hhost] at h
  split at h
  next => exact State.moveWhileBusy_read_frame hread h
  next => exact State.moveWhileIdle_read_frame hread h

theorem State.readByte_inside {s : State} {sp : Space} {a : Nat} (h : a < s.windowSize sp) :
    s.readByte sp a = s.returnToHost (((s.window sp).byte a).setWidth 32) := by
  rw [State.readByte, State.hostByte_inside s h]
  exact State.countHostDraw_inside _ h

theorem State.readWindowWord_inside {s : State} {sp : Space} {a : Nat} (h : a + 4 ≤ s.windowSize sp) :
    s.readWindowWord sp a = s.returnToHost ((s.window sp).byte (a + 3) ++ (s.window sp).byte (a + 2) ++
      (s.window sp).byte (a + 1) ++ (s.window sp).byte a) := by
  have hbyte (j : Nat) (hj : j < 4) : s.hostByte sp (a + j) = (s.window sp).byte (a + j) :=
    s.hostByte_inside (by omega)
  rw [State.readWindowWord, hbyte 3 (by decide), hbyte 2 (by decide), hbyte 1 (by decide),
    show s.hostByte sp a = _ from hbyte 0 (by decide)]
  exact State.countHostDraw_inside _ h

/-- No byte of a window depends on the host's list of moves. -/
theorem State.window_withHost (s : State) (l : List HostOp) (sp : Space) :
    ({ s with host := l } : State).window sp = s.window sp := by
  cases sp <;> rfl

theorem State.windowSize_withHost (s : State) (l : List HostOp) (sp : Space) :
    ({ s with host := l } : State).windowSize sp = s.windowSize sp := by
  cases sp <;> rfl

/-- Settles O58: inside the window no draw is used, and the word's bytes are the window's. -/
theorem hostReadsTheWindowBytes : Obligations.HostReadsTheWindowBytes := by
  refine ⟨fun s sp a rest hhost hidle hin => ?_, fun s sp a rest hhost hidle halign hin => ?_⟩
  · rw [← s.windowSize_withHost rest] at hin
    rw [step_move_idle hhost hidle, ← s.window_withHost rest]
    exact congrArg _ (State.readByte_inside hin)
  · rw [← s.windowSize_withHost rest] at hin
    rw [step_move_idle hhost hidle, ← s.window_withHost rest]
    refine ⟨_, (if_pos halign).trans (congrArg _ (State.readWindowWord_inside hin)), rfl, fun j hj => ?_⟩
    generalize ({ s with host := rest } : State).window sp = w
    obtain ⟨h0, h1, h2, h3⟩ := word_bytes (w.byte (a + 3)) (w.byte (a + 2)) (w.byte (a + 1)) (w.byte a)
    match j, hj with
    | 0, _ => exact h0
    | 1, _ => exact h1
    | 2, _ => exact h2
    | 3, _ => exact h3

/-! ### Host writes (R61, R62, R77) -/

theorem State.writeByte_readOnly {s : State} {sp : Space} (h : sp ≠ .src) (a : Nat) (v : Byte) :
    s.writeByte sp a v = s := by
  cases sp with
  | src => exact absurd rfl h
  | _ => rfl

theorem State.writeWindowWord_readOnly {s : State} {sp : Space} (h : sp ≠ .src) (a : Nat) (v : Word) :
    s.writeWindowWord sp a v = s := by
  cases sp with
  | src => exact absurd rfl h
  | _ => rfl

/-- A word written inside SRC: its four bytes at `a .. a+3`, the lowest first, and every other byte as before. -/
theorem State.writeWindowWord_byte {s : State} {a : Nat} (h : a + 3 < s.srcSize) (v : Word) (b : Nat) :
    (s.writeWindowWord .src a v).src.byte b =
      if a ≤ b ∧ b < a + 4 then v.extractLsb' (8 * (b - a)) 8 else s.src.byte b := by
  simp only [State.writeWindowWord, State.writeSrc_byte, State.writeSrc_srcSize]
  by_cases hb : a ≤ b ∧ b < a + 4
  · have hcases : b = a ∨ b = a + 1 ∨ b = a + 2 ∨ b = a + 3 := by omega
    rw [if_pos hb]
    rcases hcases with rfl | rfl | rfl | rfl
    · rw [if_neg (by omega), if_neg (by omega), if_neg (by omega), if_pos (by omega), Nat.sub_self]
    · rw [if_neg (by omega), if_neg (by omega), if_pos (by omega), Nat.add_sub_cancel_left]
    · rw [if_neg (by omega), if_pos (by omega), Nat.add_sub_cancel_left]
    · rw [if_pos (by omega), Nat.add_sub_cancel_left]
  · rw [if_neg hb, if_neg (by omega), if_neg (by omega), if_neg (by omega), if_neg (by omega)]

theorem step_wrb {s : State} {sp : Space} {a : Nat} {v : Byte} {rest : List HostOp} (hh : s.host = .wrb sp a v :: rest)
    (hb : s.status.busy = false) : step s = .next (({ s with host := rest } : State).writeByte sp a v) :=
  step_move_idle hh hb

theorem step_ww {s : State} {sp : Space} {a : Nat} {v : Word} {rest : List HostOp} (hh : s.host = .ww sp a v :: rest)
    (hb : s.status.busy = false) (ha : a % 4 = 0) :
    step s = .next (({ s with host := rest } : State).writeWindowWord sp a v) :=
  (step_move_idle hh hb).trans (if_pos ha)

/-- Settles O57: a write to a read-only window or beyond SRC is the identity, and the bytes of SRC follow each write. -/
theorem hostWritesReachOnlySrc : Obligations.HostWritesReachOnlySrc := by
  constructor
  · intro s sp a v rest hhost hidle
    rw [step_wrb hhost hidle]
    refine ⟨fun hsp => congrArg _ (State.writeByte_readOnly hsp a v), ?_, ?_⟩
    · rintro rfl hin
      refine ⟨_, rfl, rfl, fun b => ?_⟩
      exact (State.writeSrc_byte _ a v b).trans (if_congr (and_iff_left hin) rfl rfl)
    · rintro rfl hout
      exact congrArg _ (State.writeSrc_outside (s := { s with host := rest }) hout v)
  · intro s sp a v rest hhost hidle halign
    rw [step_ww hhost hidle halign]
    refine ⟨fun hsp => congrArg _ (State.writeWindowWord_readOnly hsp a v), ?_, ?_⟩
    · rintro rfl hin
      have hbyte := State.writeWindowWord_byte (s := { s with host := rest }) hin v
      refine ⟨_, rfl, (State.writeWindowWord_src _ a v).1, fun j hj => ?_, fun b hb => ?_⟩
      · rw [hbyte, if_pos (by omega), Nat.add_sub_cancel_left]
      · rw [hbyte, if_neg (by omega)]
    · rintro rfl hout
      exact congrArg _ (State.writeWindowWord_outside (s := { s with host := rest }) hout v)

end Sys2Proof.Machine

/-! PROOFS of the statements of 30_encoding.md: decoder and encoder agree, and the engine decodes in the order of R93. Both
rest on one fact: the legal words are the words of the commands. -/

namespace Sys2Proof

/-! ### The opcode map (R92) -/

/-- Each line of the opcode map answers the command that has its opcode and its RGN; a line without "R" answers one for
`RGN = 0` only. -/
theorem opcode_region_of_decodeOpcode {opc : BitVec 8} {rgn : Bool} {i : Instr} (h : decodeOpcode opc rgn = .ok i) :
    i.opcode = opc ∧ i.region = rgn := by
  unfold decodeOpcode at h
  split at h
  case h_21 => cases h
  all_goals
    next hopc =>
    cases rgn <;> cases h <;> exact ⟨BitVec.eq_of_toNat_eq hopc.symm, rfl⟩

/-- The opcode map has a line for every opcode of R92, with RGN where the opcode is marked "R". -/
theorem decodeOpcode_isOk : ∀ opc ∈ definedOpcodes, ∀ rgn : Bool, (rgn = true → opc ∈ regionOpcodes) →
    (decodeOpcode opc rgn).isOk = true := by
  decide

/-! ### Legal words (R91, R97) -/

theorem decode_of_reservedZero {c : Word} (h : (cmdFields c).ReservedZero) :
    decode c = decodeOpcode (cmdFields c).opc (cmdFields c).rgn :=
  if_neg (not_not_intro h)

theorem reservedZero_of_decode {c : Word} {i : Instr} (h : decode c = .ok i) : (cmdFields c).ReservedZero := by
  by_contra hres
  rw [decode, if_pos hres] at h
  cases h

/-- A word that decodes to a command is that command's word. -/
theorem eq_encode_of_decode {c : Word} {i : Instr} (h : decode c = .ok i) : c = encode i := by
  have hres := reservedZero_of_decode h
  rw [decode_of_reservedZero hres] at h
  obtain ⟨hopc, hrgn⟩ := opcode_region_of_decodeOpcode h
  have hfields : i.fields = cmdFields c := by rw [Instr.fields, hopc, hrgn, ← hres]
  rw [encode, hfields, assembleCmd_cmdFields]

/-- Settles O1: `decode_encode` is one direction, `eq_encode_of_decode` the other. -/
theorem decodeAgreesWithEncode : Obligations.DecodeAgreesWithEncode := by
  refine fun c i => ⟨eq_encode_of_decode, ?_⟩
  rintro rfl
  exact decode_encode i

/-- Every command's word is legal (R97), by the law of its opcode. -/
theorem cmdFields_encode_wellFormed : ∀ i : Instr, (cmdFields (encode i)).WellFormed
  | .nop => Laws.EncodeWellFormed.nop
  | .hw2rgb => Laws.EncodeWellFormed.hw2rgb
  | .nearest => Laws.EncodeWellFormed.nearest
  | .gdist => Laws.EncodeWellFormed.gdist
  | .ldist => Laws.EncodeWellFormed.ldist
  | .create => Laws.EncodeWellFormed.create
  | .resize => Laws.EncodeWellFormed.resize
  | .clear rgn => Laws.EncodeWellFormed.clear rgn
  | .clearAlpha => Laws.EncodeWellFormed.clearAlpha
  | .getColor rgn => Laws.EncodeWellFormed.getColor rgn
  | .quantize => Laws.EncodeWellFormed.quantize
  | .decode => Laws.EncodeWellFormed.decode
  | .point rgn => Laws.EncodeWellFormed.point rgn
  | .line rgn => Laws.EncodeWellFormed.line rgn
  | .rect rgn => Laws.EncodeWellFormed.rect rgn
  | .lineRect rgn => Laws.EncodeWellFormed.lineRect rgn
  | .circle rgn => Laws.EncodeWellFormed.circle rgn
  | .ellipse rgn => Laws.EncodeWellFormed.ellipse rgn
  | .ellipseQb rgn => Laws.EncodeWellFormed.ellipseQb rgn
  | .text rgn => Laws.EncodeWellFormed.text rgn

/-- The legal words are the words of the commands. -/
theorem wellFormed_iff_exists_encode (c : Word) : (cmdFields c).WellFormed ↔ ∃ i, encode i = c := by
  constructor
  · rintro ⟨hres, hopc, hrgn⟩
    have hok := decodeOpcode_isOk _ hopc _ hrgn
    cases hdec : decodeOpcode (cmdFields c).opc (cmdFields c).rgn with
    | error e => rw [hdec] at hok; cases hok
    | ok i => exact ⟨i, (eq_encode_of_decode ((decode_of_reservedZero hres).trans hdec)).symm⟩
  · rintro ⟨i, rfl⟩
    exact cmdFields_encode_wellFormed i

/-- Settles O4: each word is the command's word, bit for bit. -/
theorem wordsOfTheOpcodeMapDecode : Obligations.WordsOfTheOpcodeMapDecode :=
  ⟨decode_encode .hw2rgb, decode_encode .create, decode_encode (.clear true), decode_encode (.getColor false),
    decode_encode .quantize, decode_encode .decode, decode_encode (.line true), decode_encode (.ellipseQb false)⟩

end Sys2Proof

namespace Sys2Proof.Machine

/-! ### The lines of R93 -/

/-- The first three lines of R93: a word that is not legal raises E_CMD (60_exceptions.md R302). -/
theorem step_of_not_wellFormed {s : State} (hturn : s.engineTurn = true) (h : ¬ (cmdFields s.cmdLatch).WellFormed) :
    step s = .next { s with status := s.status.failed .cmd } := by
  rw [step_engine hturn, engineStep]
  cases hdec : decode s.cmdLatch with
  | error e => rfl
  | ok i => exact absurd ((wellFormed_iff_exists_encode _).2 ⟨i, (eq_encode_of_decode hdec).symm⟩) h

/-- Every other word is the word of a command, which the step runs. -/
theorem step_of_wellFormed {s : State} (hturn : s.engineTurn = true) (h : (cmdFields s.cmdLatch).WellFormed) :
    ∃ i, encode i = s.cmdLatch ∧ step s = exec i s := by
  obtain ⟨i, hi⟩ := (wellFormed_iff_exists_encode _).1 h
  exact ⟨i, hi, step_of_decode hturn (hi ▸ decode_encode i)⟩

/-- The commands of the opcodes 0x52 to 0x57 are reserved (44_drawing.md R270). -/
theorem exec_of_reservedOpcode {i : Instr} (s : State) (h : 0x52 ≤ i.opcode.toNat ∧ i.opcode.toNat ≤ 0x57) :
    exec i s = .next { s with status := s.status.failed .unimpl } := by
  cases i with
  | rect | lineRect | circle | ellipse | ellipseQb | text => rfl
  | _ => simp [Instr.opcode] at h

/-- Settles O2: a word stopped by one of the first three tests is not legal, and one that passes them is a command's. -/
theorem engineDecodesInOrder : Obligations.EngineDecodesInOrder := by
  intro s hturn c opc
  split
  case isTrue hres => exact step_of_not_wellFormed hturn fun ⟨hzero, _, _⟩ => hres hzero
  rename_i hres
  split
  case isTrue hopc => exact step_of_not_wellFormed hturn fun ⟨_, hdefined, _⟩ => hopc hdefined
  rename_i hopc
  split
  case isTrue hrgn =>
    obtain ⟨hset, hunmarked⟩ := hrgn
    exact step_of_not_wellFormed hturn fun ⟨_, _, hallowed⟩ => hunmarked (hallowed hset)
  rename_i hrgn
  obtain ⟨i, hi, hstep⟩ := step_of_wellFormed hturn ⟨not_not.1 hres, not_not.1 hopc, not_and_not_right.1 hrgn⟩
  split
  case isTrue hreserved =>
    have hcode : opc = i.opcode := congrArg CmdFields.opc ((congrArg cmdFields hi).symm.trans (cmdFields_encode i))
    rw [hstep]
    exact exec_of_reservedOpcode s (hcode ▸ hreserved)
  case isFalse => exact ⟨i, hi, hstep⟩

end Sys2Proof.Machine

/-! PROOFS of the statements of 40_color_model.md: the two distances, the scan of NEAREST, and the four commands.

Everything about a distance follows from three facts of binary64 arithmetic: `x -. x` is +0.0, `x -. y` and `y -. x`
have the same magnitude, and a sum is zero only when the exact sum is. The scan keeps the first of the smallest
distances (`LowestClosest`). -/

namespace Sys2Proof.Binary64

/-! ### The sign of a rounded number (00_scope.md R6) -/

theorem magnitude_pattern_sign {bits : Nat} (h : bits < 2 ^ 63) (neg neg' : Bool) :
    magnitude (pattern neg bits) = magnitude (pattern neg' bits) := by
  simp only [magnitude, expField_pattern _ h, fracField_pattern _ h]

theorem magnitude_eq_zero_iff (x : F64) : magnitude x = 0 ↔ expField x = 0 ∧ fracField x = 0 := by
  have hb : hiddenBit = 2 ^ 52 := rfl
  unfold magnitude
  split
  · next h0 => simp [h0]
  · next h0 => simp [h0, hb, Nat.shiftLeft_eq]

theorem magnitude_pattern_eq_zero_iff (neg : Bool) {bits : Nat} (h : bits < 2 ^ 63) :
    magnitude (pattern neg bits) = 0 ↔ bits = 0 := by
  rw [magnitude_eq_zero_iff, expField_pattern _ h, fracField_pattern _ h]
  omega

theorem value_eq_zero_iff (x : F64) : value x = 0 ↔ magnitude x = 0 := by
  rw [← Int.natAbs_eq_zero, natAbs_value]

/-- An exact number of whole units of 2^-1074 does not round to zero. -/
theorem roundMagnitude_eq_zero_iff (m : Nat) : roundMagnitude m 0 = 0 ↔ m = 0 := by
  constructor
  · intro h
    have hexact : shiftRoundEven m 0 = m := by simpa using shiftRoundEven_of_dvd (t := 0) (one_dvd m)
    simp only [roundMagnitude, infinityBits, Nat.shiftLeft_eq] at h
    have hexp : bitLength m - 0 - 53 = 0 := by omega
    simp only [hexp, hexact] at h
    omega
  · rintro rfl
    decide

theorem value_roundSum_eq_zero_iff (v : Int) (zeroNeg : Bool) : value (roundSum v zeroNeg) = 0 ↔ v = 0 := by
  unfold roundSum
  split
  · next h0 => simp only [value_pattern_zero, h0]
  · next h0 =>
    rw [value_eq_zero_iff, magnitude_pattern_eq_zero_iff _ (roundMagnitude_lt _ _), roundMagnitude_eq_zero_iff,
      Int.natAbs_eq_zero]

theorem value_roundSum_nonneg {v : Int} (h : 0 ≤ v) (zeroNeg : Bool) : 0 ≤ value (roundSum v zeroNeg) := by
  unfold roundSum
  split
  · exact (value_pattern_zero _).ge
  · rw [value_pattern _ (roundMagnitude_lt _ _), decide_eq_false (by omega)]
    exact Int.natCast_nonneg _

theorem magnitude_roundSum_neg (v : Int) (zeroNeg zeroNeg' : Bool) :
    magnitude (roundSum (-v) zeroNeg) = magnitude (roundSum v zeroNeg') := by
  unfold roundSum
  by_cases h0 : v = 0
  · subst h0
    exact magnitude_pattern_sign (by decide) _ _
  · rw [if_neg h0, if_neg (neg_ne_zero.2 h0), Int.natAbs_neg]
    exact magnitude_pattern_sign (roundMagnitude_lt _ _) _ _

/-! ### Sums, differences and squares -/

theorem value_add_nonneg {a b : F64} (ha : 0 ≤ value a) (hb : 0 ≤ value b) : 0 ≤ value (add a b) :=
  value_roundSum_nonneg (by omega) _

theorem value_add_eq_zero {a b : F64} (ha : 0 ≤ value a) (hb : 0 ≤ value b) (h : value (add a b) = 0) :
    value a = 0 ∧ value b = 0 := by
  have hsum := (value_roundSum_eq_zero_iff _ _).1 h
  omega

theorem sub_self_eq_zero (a : F64) : sub a a = 0 := by
  unfold sub
  rw [Int.sub_self, Bool.and_not_self]
  rfl

theorem magnitude_sub_comm (a b : F64) : magnitude (sub a b) = magnitude (sub b a) := by
  unfold sub
  rw [← Int.neg_sub]
  exact magnitude_roundSum_neg _ _ _

/-- A square depends on the magnitude only. -/
theorem mul_self_eq (d : F64) : mul d d = pattern false (roundMagnitude (magnitude d * magnitude d) 1074) := by
  rw [mul, bne_self_eq_false]

theorem value_mul_self_nonneg (d : F64) : 0 ≤ value (mul d d) := by
  rw [mul_self_eq, value_pattern _ (roundMagnitude_lt _ _)]
  exact Int.natCast_nonneg _

end Sys2Proof.Binary64

namespace Sys2Proof.Machine

open Sys2Proof.Binary64

/-! ### The distances under any transfer table (R124, R125) -/

theorem squaredGap_self (table : List (List F64)) (v : Byte) : squaredGap table v v = 0 := by
  unfold squaredGap
  rw [sub_self_eq_zero]
  decide

theorem squaredGap_comm (table : List (List F64)) (u v : Byte) : squaredGap table u v = squaredGap table v u := by
  unfold squaredGap
  simp only [mul_self_eq, magnitude_sub_comm (tableEntry table u)]

theorem squaredGap_nonneg (table : List (List F64)) (u v : Byte) : 0 ≤ value (squaredGap table u v) :=
  value_mul_self_nonneg _

theorem distanceWith_self (table : List (List F64)) (p : Rgba) : distanceWith table p p = 0 := by
  simp only [distanceWith, squaredGap_self]
  decide

theorem distanceWith_comm (table : List (List F64)) (p q : Rgba) : distanceWith table p q = distanceWith table q p := by
  simp only [distanceWith, squaredGap_comm table p.r, squaredGap_comm table p.g, squaredGap_comm table p.b]

theorem distanceWith_nonneg (table : List (List F64)) (p q : Rgba) : 0 ≤ value (distanceWith table p q) :=
  value_add_nonneg (value_add_nonneg (squaredGap_nonneg ..) (squaredGap_nonneg ..)) (squaredGap_nonneg ..)

/-- Nothing cancels in a distance: it is zero only when each channel's term is. -/
theorem squaredGaps_of_distanceWith_eq_zero {table : List (List F64)} {p q : Rgba}
    (h : value (distanceWith table p q) = 0) :
    value (squaredGap table p.r q.r) = 0 ∧ value (squaredGap table p.g q.g) = 0 ∧
      value (squaredGap table p.b q.b) = 0 := by
  have hred := squaredGap_nonneg table p.r q.r
  have hgreen := squaredGap_nonneg table p.g q.g
  obtain ⟨hrg, hblue⟩ := value_add_eq_zero (value_add_nonneg hred hgreen) (squaredGap_nonneg ..) h
  obtain ⟨hr, hg⟩ := value_add_eq_zero hred hgreen hrg
  exact ⟨hr, hg, hblue⟩

/-- Settles O12: both distances are `distanceWith` of a table. -/
theorem distancesAreSymmetric : Obligations.DistancesAreSymmetric := fun p q =>
  ⟨distanceWith_self _ p, distanceWith_self _ p, distanceWith_comm _ p q, distanceWith_comm _ p q⟩

/-! ### The scan of NEAREST (R126) -/

/-- `best`, a colour with its distance from `p`, is the lowest of the colours in `done` that are closest to `p`. -/
structure LowestClosest (p : Rgba) (done : List HwColor) (best : HwColor × F64) : Prop where
  distance : best.2 = gdist p (rgb best.1)
  member : best.1 ∈ done
  closest : ∀ c ∈ done, value best.2 ≤ value (gdist p (rgb c))
  lowest : ∀ c ∈ done, c.toNat < best.1.toNat → value best.2 < value (gdist p (rgb c))

/-- One turn of the scan, of a colour above those done. -/
theorem LowestClosest.turn {p : Rgba} {done : List HwColor} {best : HwColor × F64} (h : LowestClosest p done best)
    {c : HwColor} (hc : ∀ d ∈ done, d.toNat < c.toNat) : LowestClosest p (done ++ [c]) (nearestStep p best c) := by
  simp only [nearestStep, lt, decide_eq_true_eq]
  split
  case isTrue hcloser =>
    refine ⟨rfl, by simp, ?_, ?_⟩ <;> simp only [List.mem_append, List.mem_singleton]
    · rintro d (hd | rfl)
      · exact hcloser.le.trans (h.closest d hd)
      · exact le_rfl
    · rintro d (hd | rfl) hlow
      · exact lt_of_lt_of_le hcloser (h.closest d hd)
      · exact absurd hlow (lt_irrefl _)
  case isFalse hnot =>
    refine ⟨h.distance, List.mem_append_left _ h.member, ?_, ?_⟩ <;> simp only [List.mem_append, List.mem_singleton]
    · rintro d (hd | rfl)
      · exact h.closest d hd
      · exact not_lt.1 hnot
    · rintro d (hd | rfl) hlow
      · exact h.lowest d hd hlow
      · exact absurd hlow (hc _ h.member).not_gt

theorem lowestClosest_foldl (p : Rgba) (first : HwColor) (l : List HwColor)
    (h : (first :: l).Pairwise fun a b => a.toNat < b.toNat) :
    LowestClosest p (first :: l) (l.foldl (nearestStep p) (first, gdist p (rgb first))) := by
  induction l using List.reverseRecOn with
  | nil =>
    refine ⟨rfl, by simp, ?_, ?_⟩ <;> simp only [List.mem_singleton]
    · rintro c rfl; exact le_rfl
    · rintro c rfl hlow; exact absurd hlow (lt_irrefl _)
  | append_singleton l c ih =>
    rw [← List.cons_append, List.pairwise_append] at h
    obtain ⟨hdone, -, hbelow⟩ := h
    rw [List.foldl_append, ← List.cons_append]
    exact (ih hdone).turn fun d hd => hbelow d hd c (by simp)

theorem allColors_eq_cons : allColors = 0 :: allColors.drop 1 := by decide

theorem nearest_lowestClosest (p : Rgba) : LowestClosest p allColors (nearest p, gdist p (rgb (nearest p))) := by
  have h := lowestClosest_foldl p 0 (allColors.drop 1) (allColors_eq_cons ▸ pairwise_allColors)
  rw [← allColors_eq_cons] at h
  have hpair : (allColors.drop 1).foldl (nearestStep p) (0, gdist p (rgb 0)) = (nearest p, gdist p (rgb (nearest p))) :=
    Prod.ext rfl h.distance
  rwa [hpair] at h

theorem gdist_nearest_le (p : Rgba) (c : HwColor) : value (gdist p (rgb (nearest p))) ≤ value (gdist p (rgb c)) :=
  (nearest_lowestClosest p).closest c (mem_allColors c)

/-- Settles O8: the scan ends with the lowest of the closest of all 64 colours. -/
theorem nearestIsTheLowestMinimum : Obligations.NearestIsTheLowestMinimum := fun p c =>
  ⟨decide_eq_false (gdist_nearest_le p c).not_gt,
    fun hlow => decide_eq_true ((nearest_lowestClosest p).lowest c (mem_allColors c) hlow)⟩

/-! ### Hardware colours (R120, R121) -/

/-- The two bits of a level are the two bits of its index in the list of R120. -/
theorem level_eq_getD (low high : Bool) :
    level low high = ([0, 85, 170, 255] : List Byte).getD (low.toNat + 2 * high.toNat) 0 := by
  cases low <;> cases high <;> rfl

theorem level_injective {low high low' high' : Bool} (h : level low high = level low' high') :
    low = low' ∧ high = high' := by
  revert low high low' high'
  decide

theorem eq_of_channels {a b : HwColor} (hr : (rgb a).r = (rgb b).r) (hg : (rgb a).g = (rgb b).g)
    (hb : (rgb a).b = (rgb b).b) : a = b := by
  obtain ⟨h5, h2⟩ := level_injective hr
  obtain ⟨h4, h1⟩ := level_injective hg
  obtain ⟨h3, h0⟩ := level_injective hb
  refine BitVec.eq_of_getLsbD_eq fun i hi => ?_
  interval_cases i
  exacts [h0, h1, h2, h3, h4, h5]

/-- Settles O6: each channel gives back its two bits of the colour. -/
theorem rgbIsInjective : Obligations.RgbIsInjective := fun _ _ h =>
  eq_of_channels (congrArg Rgba.r h) (congrArg Rgba.g h) (congrArg Rgba.b h)

/-- Two levels of R120 whose gamma entries do not differ are the same level. -/
theorem level_eq_of_squaredGap_eq_zero {low high low' high' : Bool}
    (h : value (squaredGap Config.gammaTable (level low high) (level low' high')) = 0) :
    level low high = level low' high' := by
  revert low high low' high'
  decide

/-- R127(b): no other hardware colour is at distance zero. -/
theorem eq_of_gdist_rgb_eq_zero {a b : HwColor} (h : value (gdist (rgb a) (rgb b)) = 0) : a = b := by
  obtain ⟨hr, hg, hb⟩ := squaredGaps_of_distanceWith_eq_zero h
  exact eq_of_channels (level_eq_of_squaredGap_eq_zero hr) (level_eq_of_squaredGap_eq_zero hg)
    (level_eq_of_squaredGap_eq_zero hb)

/-- Settles O9: the colour itself is at distance zero, so the nearest one is too. -/
theorem nearestOfAHardwareColor : Obligations.NearestOfAHardwareColor := by
  intro t
  have hle := gdist_nearest_le (rgb t) t
  have hself : value (gdist (rgb t) (rgb t)) = 0 := by rw [gdist, distanceWith_self]; decide
  have hnonneg := distanceWith_nonneg Config.gammaTable (rgb t) (rgb (nearest (rgb t)))
  exact (eq_of_gdist_rgb_eq_zero (le_antisymm (hle.trans hself.le) hnonneg)).symm

/-! ### HW2RGB and NEAREST (R128, R129) -/

theorem exec_hw2rgb (s : State) : exec .hw2rgb s = execHw2rgb s := rfl

theorem exec_nearest (s : State) : exec .nearest s = .next { s with
    status := s.status.finished, res0 := (nearest (rgbaOperand s.args[0])).setWidth 32, res1 := 0 } := rfl

theorem rgb_word (c : HwColor) :
    (rgb c).word = 0xFF#8 ++ level (c.getLsbD 3) (c.getLsbD 0) ++ level (c.getLsbD 4) (c.getLsbD 1) ++
      level (c.getLsbD 5) (c.getLsbD 2) := rfl

/-- Settles O5: the operand form of R96 decides between the two cases. -/
theorem hw2rgbGivesTheRgbWord : Obligations.Hw2rgbGivesTheRgbWord := by
  intro s v channel
  constructor
  · intro hlegal
    rw [exec_hw2rgb, execHw2rgb_eq, hwc6Operand_legal hlegal]
    simp [rgb_word, level_eq_getD, channel, v]
  · intro hillegal
    rw [exec_hw2rgb, execHw2rgb_eq, hwc6Operand_illegal hillegal]

theorem gdist_ignores_alpha (p : Rgba) (a : Byte) : gdist { p with a := a } = gdist p := rfl

theorem nearest_ignores_alpha (p : Rgba) (a : Byte) : nearest { p with a := a } = nearest p := by
  have hstep : nearestStep { p with a := a } = nearestStep p := rfl
  unfold nearest
  rw [hstep, gdist_ignores_alpha]

/-- Settles O7: the operand's own alpha may be replaced by 0. -/
theorem nearestGivesTheNearestColor : Obligations.NearestGivesTheNearestColor := by
  intro s v
  rw [exec_nearest, ← nearest_ignores_alpha (rgbaOperand s.args[0]) 0]
  rfl

/-! ### GDIST and LDIST (R130, R131) -/

/-- A table of rows of 32 entries, read row by row, is the list of its entries. -/
theorem getD_rows {table : List (List F64)} (hrows : ∀ row ∈ table, row.length = 32) (n : Nat) :
    (table.getD (n / 32) []).getD (n % 32) 0 = table.flatten.getD n 0 := by
  induction table generalizing n with
  | nil => simp
  | cons row table ih =>
    obtain ⟨hrow, hrest⟩ := List.forall_mem_cons.1 hrows
    rw [List.flatten_cons]
    rcases Nat.lt_or_ge n 32 with hn | hn
    · rw [Nat.div_eq_of_lt hn, Nat.mod_eq_of_lt hn, List.getD_append _ _ _ _ (hrow.symm ▸ hn)]
      rfl
    · obtain ⟨m, rfl⟩ := Nat.exists_eq_add_of_le' hn
      rw [List.getD_append_right _ _ _ _ (hrow.symm ▸ hn), hrow, Nat.add_sub_cancel, ← ih hrest,
        Nat.add_div_right _ (by decide), Nat.add_mod_right]
      rfl

theorem gammaTable_rows : ∀ row ∈ Config.gammaTable, row.length = 32 := by decide

theorem linTable_rows : ∀ row ∈ Config.linTable, row.length = 32 := by decide

/-- The distance of two operands, by the entries of the table in the order of R124. -/
theorem distanceWith_rgbaOperand {table : List (List F64)} (hrows : ∀ row ∈ table, row.length = 32) (u v : Word) :
    let square : Nat → F64 := fun lo =>
      let d := sub (table.flatten.getD (u.extractLsb' lo 8).toNat 0) (table.flatten.getD (v.extractLsb' lo 8).toNat 0)
      mul d d
    distanceWith table (rgbaOperand u) (rgbaOperand v) = add (add (square 0) (square 8)) (square 16) := by
  simp only [distanceWith, squaredGap, tableEntry, getD_rows hrows, rgbaOperand]

/-- The two result words, put together, are the pattern of the distance. -/
theorem State.setDistance_res1_append_res0 (s : State) (d : F64) :
    (s.setDistance d).res1 ++ (s.setDistance d).res0 = d :=
  (BitVec.extractLsb'_append_extractLsb'_eq_extractLsb' rfl).trans BitVec.extractLsb'_eq_self

/-- The entries of the gamma table rise strictly (R122). -/
theorem gammaTable_rises : ∀ v : Byte, v ≠ 255 →
    lt (Config.gammaTable.flatten.getD v.toNat 0) (Config.gammaTable.flatten.getD (v + 1).toNat 0) = true := by
  decide

/-- The entries of the linear table rise strictly (R123). -/
theorem linTable_rises : ∀ v : Byte, v ≠ 255 →
    lt (Config.linTable.flatten.getD v.toNat 0) (Config.linTable.flatten.getD (v + 1).toNat 0) = true := by
  decide

/-- Settles O10: RES1 and RES0 together are `gdist`, which is R124's sum over the gamma table. -/
theorem gdistGivesTheDistancePattern : Obligations.GdistGivesTheDistancePattern := by
  refine ⟨⟨rfl, rfl, rfl, rfl, gammaTable_rises⟩, fun s => ⟨_, rfl, ?_, rfl⟩⟩
  exact (s.startCommand.setDistance_res1_append_res0 _).trans (distanceWith_rgbaOperand gammaTable_rows _ _)

/-- Settles O11: RES1 and RES0 together are `ldist`, which is R124's sum over the linear table. -/
theorem ldistGivesTheDistancePattern : Obligations.LdistGivesTheDistancePattern := by
  refine ⟨⟨rfl, rfl, linTable_rises⟩, fun s => ⟨_, rfl, ?_, rfl⟩⟩
  exact (s.startCommand.setDistance_res1_append_res0 _).trans (distanceWith_rgbaOperand linTable_rows _ _)

end Sys2Proof.Machine

/-! PROOFS of the statements of 41_bitmap_store.md: NOP, and what each command of the packed bitmap store writes.

Each proof cuts a command along its checks, with the equation of the command in one case as a lemma; what the planes
hold after an allocation, a fill or a region's pixels is a law of that operation. -/

namespace Sys2Proof

/-! ### NOP words (R150) -/

theorem eq_nop_of_opcode_eq_zero {i : Instr} (h : i.opcode = 0) : i = .nop := by
  cases i with
  | nop => rfl
  | _ => simp [Instr.opcode] at h

/-- 0 is the one legal word with opcode 0. -/
theorem eq_zero_of_decode {c : Word} {i : Instr} (hopc : c.extractLsb' 0 8 = 0) (h : decode c = .ok i) : c = 0 := by
  have hc := eq_encode_of_decode h
  have hcode : c.extractLsb' 0 8 = i.opcode :=
    congrArg CmdFields.opc ((congrArg cmdFields hc).trans (cmdFields_encode i))
  rw [hc, eq_nop_of_opcode_eq_zero (hcode.symm.trans hopc)]
  rfl

end Sys2Proof

namespace Sys2Proof.Machine

theorem exec_nop (s : State) : exec .nop s = .next { s with status := s.status.finished } := rfl

/-- Settles O16: a word with opcode 0 that decodes is the word 0. -/
theorem nopWritesOnlyStatus : Obligations.NopWritesOnlyStatus := by
  refine ⟨exec_nop, fun c hopc hne => ?_⟩
  cases hdec : decode c with
  | error e => exact ⟨e, rfl⟩
  | ok i => exact absurd (eq_zero_of_decode hopc hdec) hne

/-! ### CREATE and RESIZE (R151 to R157) -/

theorem exec_create (s : State) : exec .create s = execCreate s := rfl

theorem exec_resize (s : State) : exec .resize s = execResize s := rfl

theorem State.not_exceedsCapacity {s : State} {w h : Word} (hw : w.toNat ≤ s.maxW.toNat)
    (hh : h.toNat ≤ s.maxH.toNat) : ¬ s.ExceedsCapacity w h :=
  not_or.2 ⟨hw.not_gt, hh.not_gt⟩

theorem exec_create_of_fits {s : State} (hfits : ¬ s.ExceedsCapacity s.args[0] s.args[1]) :
    exec .create s = .next (s.startCommand.createBitmap s.args[0] s.args[1]).completeCommand := by
  rw [exec_create, execCreate_eq, if_neg hfits]

/-- R155: the test for an unchanged size comes before the allocation. -/
theorem exec_resize_of_ne {s : State} (hne : s.args[0] ≠ s.width ∨ s.args[1] ≠ s.height) :
    exec .resize s = .next (
      if s.ExceedsCapacity s.args[0] s.args[1] then { s with status := s.status.halted }
      else (s.startCommand.resizeBitmap s.args[0] s.args[1]).completeCommand) := by
  rw [exec_resize, execResize_eq, if_neg (not_and_or.2 hne)]

/-- Settles O17: nothing but the two zeroed planes is left open by the frame. -/
theorem createZeroesThePlanes : Obligations.CreateZeroesThePlanes := by
  intro s w h hw hh
  exact ⟨_, exec_create_of_fits (State.not_exceedsCapacity hw hh), rfl,
    fun _ ha => s.startCommand.createBitmap_alpha_byte _ _ ha,
    fun _ ha => s.startCommand.createBitmap_color_byte _ _ ha⟩

/-- Settles O18: both commands make the same test, RESIZE once the size is known to change. -/
theorem allocationFailureHalts : Obligations.AllocationFailureHalts := by
  intro s hbeyond
  have hexceeds : s.ExceedsCapacity s.args[0] s.args[1] := hbeyond
  constructor
  · rw [exec_create, execCreate_eq, if_pos hexceeds]
  · intro hne
    rw [exec_resize_of_ne hne, if_pos hexceeds]

/-- Settles O19, one case for an unchanged size and one for a changed size that fits. -/
theorem resizeDiscardsOrKeeps : Obligations.ResizeDiscardsOrKeeps := by
  intro s w h
  constructor
  · intro hw hh
    rw [exec_resize, execResize_eq, if_pos ⟨hw, hh⟩]
  · intro hne hw hh
    rw [exec_resize_of_ne hne, if_neg (State.not_exceedsCapacity hw hh)]
    exact ⟨_, rfl, rfl, fun _ ha => s.startCommand.resizeBitmap_alpha_byte _ _ ha⟩

/-! ### CLEAR (R160 to R162) -/

theorem exec_clear (rgn : Bool) (s : State) : exec (.clear rgn) s = execClear rgn s := rfl

/-- CLEAR past its operand check: the two fills, by the region (20_memory.md R71). -/
theorem exec_clear_of_legal {s : State} (rgn : Bool) (hlegal : s.args[0].extractLsb' 4 28 = 0) :
    exec (.clear rgn) s = .next
      (if s.resolveRegion rgn = s.fullRegion then s.startCommand.clearFull (s.args[0].extractLsb' 0 4)
       else s.startCommand.clearRegion (s.resolveRegion rgn) (s.args[0].extractLsb' 0 4)).completeCommand := by
  rw [exec_clear, execClear_eq, col4Operand_legal hlegal]

theorem State.clearFull_alpha_byte (s : State) (c : SlotIx) {a : Nat} (ha : a < s.h * alphaRowBytes s.w) :
    (s.clearFull c).alpha.byte a = 0xFF :=
  s.fillAlpha_byte 0xFF ha

theorem State.clearFull_color_byte (s : State) (c : SlotIx) {a : Nat} (ha : a < s.h * colorRowBytes s.w) :
    (s.clearFull c).color.byte a = c ++ c :=
  (s.fillAlpha 0xFF).fillColor_byte (c ++ c) ha

/-- Settles O20: the operand form decides between E_ARG and the fill of both planes. -/
theorem clearOfTheFullRegion : Obligations.ClearOfTheFullRegion := by
  intro s rgn c
  constructor
  · intro hillegal
    rw [exec_clear, execClear_eq, col4Operand_illegal hillegal]
  · intro hlegal hfull
    rw [exec_clear_of_legal rgn hlegal, if_pos hfull]
    exact ⟨_, rfl, rfl, fun _ ha => s.startCommand.clearFull_alpha_byte c ha,
      fun _ ha => s.startCommand.clearFull_color_byte c ha⟩

/-- Settles O21, from `State.clearRegion_spec` and `State.clearRegion_dirty`; the updates of STATUS around the pixels
change no plane and no size. -/
theorem clearOfARegion : Obligations.ClearOfARegion := by
  intro s rgn c r hlegal hregion
  obtain ⟨hframe, hcovered, hother, halpha, hcolor⟩ := s.startCommand.clearRegion_spec r c
  rw [exec_clear_of_legal rgn hlegal, if_neg hregion]
  refine ⟨_, rfl, ?_, s.startCommand.clearRegion_dirty r c, hcovered, fun x y _ => hother x y, halpha, hcolor⟩
  exact congrArg State.completeCommand hframe

/-! ### CLEARALPHA (R165, R166) -/

theorem exec_clearAlpha (s : State) :
    exec .clearAlpha s = .next (s.startCommand.fillAlpha 0).markDirty.completeCommand := rfl

/-- Settles O22: the fill covers ALPHA, and only STATUS changes beside it. -/
theorem clearAlphaZeroesAlpha : Obligations.ClearAlphaZeroesAlpha := fun s =>
  ⟨_, exec_clearAlpha s, rfl, fun _ ha => s.startCommand.fillAlpha_byte 0 ha⟩

/-- Settles O23: COLOR is not an operand of the fill. -/
theorem clearAlphaKeepsColor : Obligations.ClearAlphaKeepsColor := fun s =>
  ⟨_, exec_clearAlpha s, fun a => congrArg (Window.byte · a) (s.startCommand.fillAlpha_color 0)⟩

/-! ### GETCOLOR (R170) -/

theorem exec_getColor (rgn : Bool) (s : State) : exec (.getColor rgn) s = execGetColor rgn s := rfl

/-- Settles O24: `InRegion` is the command's one check. -/
theorem getColorReadsTheNibble : Obligations.GetColorReadsTheNibble := by
  intro s rgn x y r
  rw [exec_getColor, execGetColor_eq]
  exact ⟨fun hin => by rw [if_pos hin], fun hout => by rw [if_neg hout]⟩

end Sys2Proof.Machine

/-! PROOFS of the statements of 42_quantizer.md: the checks of QUANTIZE, the reduction of the nodes, and what PAL_OUT,
the lookup table and the bitmap hold afterwards.

The laws say what each step does from any working state; `reducedWork_spec` and `placedWork_spec` put them together for
the working states that QUANTIZE passes through. The one idea about the result is `SlotsAssigned.lut_eq_slot_of_head`:
the lookup table gives a colour the slot of the head of its list, and the head is alive, so it is the closest retained
node and PAL_OUT holds it in that slot. -/

namespace Sys2Proof.Machine

/-! ### The checks (R192 to R194) -/

theorem exec_quantize (s : State) : exec .quantize s = execQuantize s := rfl

/-- Settles O25: each check is reached only when those before it pass. -/
theorem quantizeChecksInOrder : Obligations.QuantizeChecksInOrder := by
  intro s slot legal
  have hlegal : TemplateLegal s.template ↔ legal := templateLegal_iff s.template
  have hunused : usableSlots s.template = 0 ↔ ∀ i, slot i = 0xFE := usableSlots_eq_zero_iff s.template
  rw [exec_quantize, execQuantize_eq]
  refine ⟨fun h => ?_, fun h hall => ?_, fun h ⟨i, hi⟩ hexceeds => ?_⟩
  · rw [if_pos (mt hlegal.1 h)]
  · rw [if_neg (not_not_intro (hlegal.2 h)), if_pos (hunused.2 hall)]
  · have hcap : s.ExceedsCapacity s.args[0] s.args[1] := hexceeds
    rw [if_neg (not_not_intro (hlegal.2 h)), if_neg fun h0 => hi (hunused.1 h0 i), if_pos hcap]

theorem exec_quantize_of_passes {s : State} (ht : TemplateLegal s.template) (hu : usableSlots s.template ≠ 0)
    (hw : s.args[0].toNat ≤ s.maxW.toNat) (hh : s.args[1].toNat ≤ s.maxH.toNat) :
    exec .quantize s = .next (s.startCommand.quantize s.args[0] s.args[1]).completeCommand := by
  rw [exec_quantize, execQuantize_eq, if_neg (not_not_intro ht), if_neg hu, if_neg (State.not_exceedsCapacity hw hh)]

/-! ### Steps 3 to 7 -/

/-- The working state after step 6. -/
abbrev reducedWork (t : Palette) (pixels : List Rgba) : QuantWork := (buildWork t pixels).reduce 64

/-- The working state after step 7. -/
abbrev retainedWork (t : Palette) (pixels : List Rgba) : QuantWork := (reducedWork t pixels).dropFree

theorem buildWork_cls (t : Palette) (pixels : List Rgba) : (buildWork t pixels).cls = pixels.map classOf := rfl

theorem buildWork_fslot (t : Palette) (pixels : List Rgba) : (buildWork t pixels).fslot = forcedSlots t := rfl

theorem buildWork_tableAt (t : Palette) (pixels : List Rgba) (n c : HwColor) :
    tableAt (buildWork t pixels).dist n c = gdist (rgb n) (rgb c) :=
  tableAt_distanceTable n c

section Template

variable {t : Palette}

/-- A node is removable unless some slot pins it (R198). -/
theorem buildWork_isRemovable_iff (ht : TemplateLegal t) (pixels : List Rgba) (n : HwColor) :
    (buildWork t pixels).isRemovable n = true ↔ ∀ i, Palette.slot t i ≠ n.setWidth 8 := by
  rw [buildWork_isRemovable, Option.isNone_iff_eq_none, Option.eq_none_iff_forall_ne_some]
  exact forall_congr' fun i => not_congr (forcedSlots_getD ht n i)

/-- No more nodes are pinned than the template has usable slots (R193). -/
theorem countP_pinned_le (ht : TemplateLegal t) (pixels : List Rgba) :
    allColors.countP (fun n => !(buildWork t pixels).isRemovable n) ≤ usableSlots t := by
  simp only [buildWork_isRemovable, Option.not_isNone]
  rw [count_pinned ht, usableSlots_eq ht]
  exact Nat.le_add_right _ _

/-- Step 6 ends with one node for each usable slot (R201). -/
theorem reducedWork_spec (ht : TemplateLegal t) (pixels : List Rgba) :
    (reducedWork t pixels).Consistent ∧ (reducedWork t pixels).aliveCount = usableSlots t := by
  have hle := usableSlots_le t
  have hcount := buildWork_aliveCount t pixels
  have htotal : (buildWork t pixels).totalCount = usableSlots t := rfl
  exact (buildWork t pixels).reduce_spec 64 (buildWork_consistent t pixels) (countP_pinned_le ht pixels)
    (by omega) (by omega)

theorem reducedWork_rounds (ht : TemplateLegal t) (hu : usableSlots t ≠ 0) (pixels : List Rgba) :
    Relation.ReflTransGen QuantWork.Round (buildWork t pixels) (reducedWork t pixels) :=
  (buildWork t pixels).reduce_rounds 64 (buildWork_consistent t pixels) List.length_replicate
    (Nat.one_le_iff_ne_zero.2 hu) (countP_pinned_le ht pixels)

/-- A pinned colour survives step 6 (R201). -/
theorem reducedWork_isAlive_of_pinned (ht : TemplateLegal t) (pixels : List Rgba) {i : SlotIx} {c : HwColor}
    (hi : Palette.slot t i = c.setWidth 8) : (reducedWork t pixels).isAlive c = true := by
  have hsame := (buildWork t pixels).reduce_sameProblem 64
  refine (reducedWork_spec ht pixels).1.pinned c (Bool.eq_false_iff.2 fun hrem => ?_)
  rw [hsame.isRemovable, buildWork_isRemovable_iff ht] at hrem
  exact hrem i hi

end Template

/-! ### Steps 8 and 9 -/

/-- The order of step 8 by the comparison of R203. -/
theorem QuantWork.order_pairwise_lt (q : QuantWork) : q.order.Pairwise fun m n =>
    Binary64.lt (q.costAt n) (q.costAt m) = true ∨
      (Binary64.lt (q.costAt m) (q.costAt n) = false ∧ m.toNat < n.toNat) :=
  q.order_pairwise.imp fun h => h.imp decide_eq_true fun ⟨heq, hlow⟩ => ⟨decide_eq_false heq.not_lt, hlow⟩

/-- Step 9 changes `NSLOT` only. -/
theorem PlacingFrom.unchanged {q : QuantWork} {qp : QuantWork × Placement} (h : PlacingFrom q qp) :
    qp.1.targetList = q.targetList ∧ qp.1.isAlive = q.isAlive ∧ qp.1.cls = q.cls := by
  rw [h.frame]
  exact ⟨rfl, rfl, rfl⟩

/-- What step 9 leaves, from the working state `q` of step 7 (R204). -/
structure SlotsAssigned (t : Palette) (q : QuantWork) (qp : QuantWork × Placement) : Prop where
  consistent : q.Consistent
  someAlive : 1 ≤ q.aliveCount
  placing : PlacingFrom q qp
  alive : ∀ n, q.isAlive n = true → ∃ i, qp.1.nslot.getD n.toNat none = some i
  pinned : ∀ (n : HwColor) (i : SlotIx), Palette.slot t i = n.setWidth 8 → qp.1.nslot.getD n.toNat none = some i
  order : ∀ (k : Nat) (n : HwColor), q.order[k]? = some n →
    ∃ i, (freeSlots t)[k]? = some i ∧ qp.1.nslot.getD n.toNat none = some i
  filled : ∀ (n : HwColor) (i : SlotIx), qp.1.nslot.getD n.toNat none = some i →
    Palette.slot t i = n.setWidth 8 ∨ ∃ k : Nat, q.order[k]? = some n ∧ (freeSlots t)[k]? = some i

/-- The working state after step 9, and the nodes by their slots. -/
abbrev placedWork (t : Palette) (pixels : List Rgba) : QuantWork × Placement := (retainedWork t pixels).assignSlots t

theorem QuantWork.Consistent.slotsAssigned {t : Palette} (ht : TemplateLegal t) {q : QuantWork} (hc : q.Consistent)
    (hpos : 1 ≤ q.aliveCount) (hfslot : q.fslot = forcedSlots t)
    (hremov : ∀ n, q.isRemovable n = ((forcedSlots t).getD n.toNat none).isNone)
    (hle : q.aliveCount ≤ usableSlots t) :
    SlotsAssigned t q (q.assignSlots t) := by
  obtain ⟨hplacing, halive, hpinned, horder, hfilled⟩ := QuantWork.assignSlots_spec ht hc hfslot hremov hle
  exact ⟨hc, hpos, hplacing, halive, hpinned, horder, hfilled⟩

theorem placedWork_spec {t : Palette} (ht : TemplateLegal t) (hu : usableSlots t ≠ 0) (pixels : List Rgba) :
    SlotsAssigned t (retainedWork t pixels) (placedWork t pixels) := by
  obtain ⟨hc, hpos, hle, hsame⟩ := retained_spec ht hu pixels
  exact hc.slotsAssigned ht hpos (hsame.fslot.trans (buildWork_fslot t pixels))
    (fun n => (hsame.isRemovable n).trans (buildWork_isRemovable t pixels n)) hle

/-- No step after the classification changes `CLASS` (R195). -/
theorem placedWork_cls {t : Palette} (ht : TemplateLegal t) (hu : usableSlots t ≠ 0) (pixels : List Rgba) :
    (placedWork t pixels).1.cls = pixels.map classOf := by
  obtain ⟨-, -, -, hsame⟩ := retained_spec ht hu pixels
  obtain ⟨-, -, hcls⟩ := (placedWork_spec ht hu pixels).placing.unchanged
  rw [hcls, hsame.cls, buildWork_cls]

/-! ### The lookup table and PAL_OUT (R206 to R209) -/

theorem slot_resolvedPalette (pal : Placement) (i : SlotIx) : Palette.slot (resolvedPalette pal) i =
    match placedAt pal i with
    | some n => n.setWidth 8
    | none => 0 := by
  rw [resolvedPalette, Palette.slot_ofSlots]
  cases placedAt pal i <;> rfl

theorem QuantWork.buildLut_isAlive (q : QuantWork) : q.buildLut.isAlive = q.isAlive := rfl

theorem QuantWork.buildLut_cls (q : QuantWork) : q.buildLut.cls = q.cls := rfl

section Placed

variable {t : Palette} {q : QuantWork} {qp : QuantWork × Placement}

theorem PlacingFrom.slot_resolvedPalette (h : PlacingFrom q qp) {n : HwColor} {i : SlotIx}
    (hn : qp.1.nslot.getD n.toNat none = some i) : Palette.slot (resolvedPalette qp.2) i = n.setWidth 8 := by
  rw [Machine.slot_resolvedPalette, (h.agree n i).1 hn]

/-- The lookup table gives a colour the slot of the head of its list, the retained node that ranks before all others. -/
theorem SlotsAssigned.lut_eq_slot_of_head (h : SlotsAssigned t q qp) (c : HwColor) :
    ∃ n, (q.targetList c).head? = some n ∧ q.isAlive n = true ∧
      (∀ m, q.isAlive m = true → m ≠ n → RanksBefore c n m) ∧
      qp.1.nslot.getD n.toNat none = some (qp.1.buildLut.lut.getD c.toNat 0) := by
  obtain ⟨n, rest, hlist, halive, hfirst⟩ := QuantWork.head_spec h.consistent h.someAlive c
  obtain ⟨i, hi⟩ := h.alive n halive
  refine ⟨n, by rw [hlist]; rfl, halive, hfirst, ?_⟩
  rw [QuantWork.buildLut_getD, QuantWork.lutEntry, h.placing.unchanged.1, hlist]
  simp only [hi, Option.getD_some]

end Placed

theorem RanksBefore.not_lt {c n m : HwColor} (h : RanksBefore c n m) :
    Binary64.lt (gdist (rgb m) (rgb c)) (gdist (rgb n) (rgb c)) = false := by
  rcases h with h | ⟨h, -⟩
  · exact decide_eq_false (of_decide_eq_true h).not_gt
  · exact h

theorem RanksBefore.lt_of_lower {c n m : HwColor} (h : RanksBefore c n m) (hlow : m.toNat < n.toNat) :
    Binary64.lt (gdist (rgb n) (rgb c)) (gdist (rgb m) (rgb c)) = true := by
  rcases h with h | ⟨-, h⟩
  · exact h
  · exact absurd hlow h.not_gt

/-! ### The state after QUANTIZE -/

/-- PAL_OUT and the working state after QUANTIZE are those of the placement of step 9. -/
theorem State.completed_quantize {s : State} {sw sh : Word} {qp : QuantWork × Placement}
    (hqp : placedWork s.template (s.srcPixels (sw.toNat * sh.toNat)) = qp) :
    (s.startCommand.quantize sw sh).completeCommand.palOut = resolvedPalette qp.2 ∧
    (s.startCommand.quantize sw sh).completeCommand.work = qp.1.buildLut := by
  have hresult : quantizePixels s.startCommand.template (s.startCommand.srcPixels (sw.toNat * sh.toNat)) =
      (qp.1.buildLut, qp.2) := by
    rw [← hqp]; exact quantizePixels_eq _ _
  rw [State.completeCommand_palOut, State.quantize_palOut, State.completeCommand_work, State.quantize_work, hresult]
  exact ⟨rfl, rfl⟩

/-- The class that QUANTIZE keeps for a source pixel (R195). -/
theorem State.completed_quantize_class {s : State} (ht : TemplateLegal s.template) (hu : usableSlots s.template ≠ 0)
    {sw sh : Word} {p : Nat} (hp : p < sw.toNat * sh.toNat) :
    (s.startCommand.quantize sw sh).completeCommand.work.cls.getD p 0 = classOf (s.srcPixel p) := by
  have hcls : (s.startCommand.quantize sw sh).completeCommand.work.cls =
      (s.srcPixels (sw.toNat * sh.toNat)).map classOf := by
    rw [(State.completed_quantize rfl).2, QuantWork.buildLut_cls, placedWork_cls ht hu]
  rw [hcls]
  simp [State.srcPixels, List.getD_eq_getElem?_getD, List.getElem?_range hp]

theorem Rgba.opaquePixel_iff (c : Rgba) : c.opaquePixel = true ↔ c.a = 255 := beq_iff_eq

theorem classOf_of_opaque {c : Rgba} (h : c.a = 255) : classOf c = nearest { c with a := 255 } := by
  rw [classOf, if_pos (c.opaquePixel_iff.2 h)]
  exact (nearest_ignores_alpha c 255).symm

/-- What step 11 stores for a pixel, by its SRC bytes (R212). -/
theorem State.completed_quantize_pixel {s : State} (ht : TemplateLegal s.template) (hu : usableSlots s.template ≠ 0)
    {sw sh : Word} {x y : Nat} (hx : x < sw.toNat) (hy : y < sh.toNat) :
    let t := (s.startCommand.quantize sw sh).completeCommand
    let p := s.srcPixel (y * sw.toNat + x)
    if p.a = 255 then
      t.alphaGet x y = true ∧ t.nibGet x y = t.work.lut.getD (nearest { p with a := 255 }).toNat 0
    else t.alphaGet x y = false ∧ t.nibGet x y = 0 := by
  intro t p
  have hp : y * sw.toNat + x < sw.toNat * sh.toNat := by rw [Nat.mul_comm sw.toNat]; exact rowOffset_lt hx hy
  have hclass : t.work.cls.getD (y * sw.toNat + x) 0 = classOf p := State.completed_quantize_class ht hu hp
  obtain ⟨halpha, hnib⟩ : t.alphaGet x y = p.opaquePixel ∧ t.nibGet x y =
      if p.opaquePixel = true then t.work.lut.getD (t.work.cls.getD (y * sw.toNat + x) 0).toNat 0 else 0 :=
    s.startCommand.quantize_pixel sw sh hx hy
  rw [hclass] at hnib
  split
  case isTrue hopaque =>
    have ho := p.opaquePixel_iff.2 hopaque
    rw [if_pos ho, classOf_of_opaque hopaque] at hnib
    exact ⟨halpha.trans ho, hnib⟩
  case isFalse hclear =>
    have ho := mt p.opaquePixel_iff.1 hclear
    rw [if_neg ho] at hnib
    exact ⟨halpha.trans (Bool.eq_false_iff.2 ho), hnib⟩

/-- Settles O26, from the frame of QUANTIZE and what it leaves in the pixels and in the padding. -/
theorem quantizeStoresTheImage : Obligations.QuantizeStoresTheImage := by
  intro s sw sh ht hu hw hh
  refine ⟨_, exec_quantize_of_passes ht hu hw hh, ?_, fun x hx y hy => State.completed_quantize_pixel ht hu hx hy,
    fun x y hx hy => s.startCommand.quantize_padding _ _ hx hy⟩
  rw [State.quantize_frame]
  rfl

/-- Settles O27: the closest retained node is the head of the colour's list. -/
theorem quantizeCodesTheClosestRetainedColor : Obligations.QuantizeCodesTheClosestRetainedColor := by
  intro s ht hu hw hh
  refine ⟨_, exec_quantize_of_passes ht hu hw hh, fun c => ?_⟩
  have hassigned := placedWork_spec ht hu (s.srcPixels (s.args[0].toNat * s.args[1].toNat))
  generalize hqp : placedWork s.template (s.srcPixels (s.args[0].toNat * s.args[1].toNat)) = qp at hassigned
  obtain ⟨hpal, hwork⟩ := State.completed_quantize hqp
  obtain ⟨-, hretained, -⟩ := hassigned.placing.unchanged
  obtain ⟨n, -, halive, hfirst, hslot⟩ := hassigned.lut_eq_slot_of_head c
  simp only [hpal, hwork, QuantWork.buildLut_isAlive, hretained]
  refine ⟨n, hassigned.placing.slot_resolvedPalette hslot, halive, fun m hm => ?_⟩
  by_cases hne : m = n
  · subst hne
    exact ⟨decide_eq_false (lt_irrefl _), fun hlt => absurd hlt (lt_irrefl _)⟩
  · exact ⟨(hfirst m hm hne).not_lt, (hfirst m hm hne).lt_of_lower⟩

/-- Settles O28: each part is the law of its step. The placement is made opaque before its facts are used, so that no
unification runs the rounds of step 6. -/
theorem reductionReachesTheTotal : Obligations.ReductionReachesTheTotal := by
  refine ⟨fun t pixels ht hu => ?_, fun s ht hu hw hh => ?_⟩
  · intro start reduced kept placed free nslot
    obtain ⟨hconsistent, hcount⟩ := reducedWork_spec ht pixels
    have hpos : 1 ≤ (reducedWork t pixels).aliveCount := by omega
    have hassigned : SlotsAssigned t kept placed := placedWork_spec ht hu pixels
    clear_value placed
    exact ⟨buildWork_cnt t pixels, buildWork_tableAt t pixels, buildWork_targetList t pixels,
      fun n => ⟨buildWork_isAlive t pixels n, buildWork_isRemovable_iff ht pixels n⟩,
      reducedWork_rounds ht hu pixels, rfl, hcount, fun i c hi => reducedWork_isAlive_of_pinned ht pixels hi,
      QuantWork.dropFree_turns _ hconsistent hpos, QuantWork.mem_order _, QuantWork.order_pairwise_lt _,
      hassigned.pinned, hassigned.order, hassigned.placing.agree, hassigned.filled⟩
  · intro pixels kept placed
    obtain ⟨hpal, hwork⟩ := State.completed_quantize (show placedWork s.template _ = placed from rfl)
    have hassigned : SlotsAssigned s.template kept placed := placedWork_spec ht hu pixels
    clear_value placed
    refine ⟨_, exec_quantize_of_passes ht hu hw hh, fun i => ?_, fun c => ?_⟩
    · rw [hpal]
      exact slot_resolvedPalette _ i
    · rw [hwork]
      obtain ⟨n, hhead, -, -, hslot⟩ := hassigned.lut_eq_slot_of_head c
      exact ⟨n, hhead, hslot⟩

/-- Settles O29: every slot is pinned, so step 9 puts each colour of the template in its own slot. -/
theorem allForcedTemplateIsThePalette : Obligations.AllForcedTemplateIsThePalette := by
  intro s hpinned hdistinct hw hh
  have ht : TemplateLegal s.template :=
    (templateLegal_iff _).2 ⟨fun i => .inl (hpinned i), fun i j hne _ => hdistinct i j hne⟩
  have hu : usableSlots s.template ≠ 0 := fun h => by
    have h0 := hpinned 0
    rw [(usableSlots_eq_zero_iff _).1 h 0] at h0
    exact absurd h0 (by decide)
  refine ⟨_, exec_quantize_of_passes ht hu hw hh, by rw [State.quantize_frame]; rfl, Palette.ext_slot fun i => ?_⟩
  have hassigned := placedWork_spec ht hu (s.srcPixels (s.args[0].toNat * s.args[1].toNat))
  have hcolor : Palette.slot s.template i = ((Palette.slot s.template i).setWidth 6 : HwColor).setWidth 8 := by
    have := hpinned i
    rw [slot_eq_setWidth_iff, BitVec.toNat_setWidth]
    omega
  rw [(State.completed_quantize rfl).1, hassigned.placing.slot_resolvedPalette (hassigned.pinned _ i hcolor),
    ← hcolor]

end Sys2Proof.Machine

/-! PROOFS of the statements of 43_decoder.md: the checks of DECODE, its cache, and the image it writes.

DECODE takes one of four ways, by its checks and by the cache test. `State.PassesDecode` names the checks, one lemma per
way says what DECODE answers, and each statement is a use of those lemmas. The one idea about the image is that OUT after
a recompute is the decode of the planes (`State.recompute_cacheCoherent`), whose bytes `4*(y*W + x) + 0..3` are the four
channels of pixel `(x, y)`. -/

namespace Sys2Proof.Machine

/-! ### The checks and the cache test (R241 to R244) -/

theorem exec_decode (s : State) : exec .decode s = execDecode s := rfl

/-- The state passes both checks of DECODE (R241). -/
structure State.PassesDecode (s : State) : Prop where
  width : s.args[0] = s.width
  height : s.args[1] = s.height
  palette : PaletteLegal s.palIn

theorem exec_decode_of_size_ne {s : State} (hne : s.args[0] ≠ s.width ∨ s.args[1] ≠ s.height) :
    exec .decode s = .next { s with status := s.status.failed .size } := by
  rw [exec_decode, execDecode_eq, if_pos hne]

/-- DECODE at the current size: the palette check comes next. -/
theorem exec_decode_of_size_eq {s : State} (hw : s.args[0] = s.width) (hh : s.args[1] = s.height) :
    exec .decode s = .next (
      if ¬ PaletteLegal s.palIn then { s with status := s.status.failed .palette }
      else if s.status.dirty = false ∧ s.palIn = s.cachePal then
        { s with status := { s.status.finished with hit := true } }
      else s.startCommand.recompute.completeCommand) := by
  rw [exec_decode, execDecode_eq, if_neg (not_or.2 ⟨not_not_intro hw, not_not_intro hh⟩)]

theorem State.PassesDecode.exec_eq {s : State} (hp : s.PassesDecode) :
    exec .decode s = .next (
      if s.status.dirty = false ∧ s.palIn = s.cachePal then
        { s with status := { s.status.finished with hit := true } }
      else s.startCommand.recompute.completeCommand) := by
  rw [exec_decode_of_size_eq hp.width hp.height, if_neg (not_not_intro hp.palette)]

theorem State.PassesDecode.exec_hit {s : State} (hp : s.PassesDecode) (hclean : s.status.dirty = false)
    (hpal : s.palIn = s.cachePal) :
    exec .decode s = .next { s with status := { s.status.finished with hit := true } } := by
  rw [hp.exec_eq, if_pos ⟨hclean, hpal⟩]

theorem State.PassesDecode.exec_recompute {s : State} (hp : s.PassesDecode)
    (hmiss : ¬ (s.status.dirty = false ∧ s.palIn = s.cachePal)) :
    exec .decode s = .next s.startCommand.recompute.completeCommand := by
  rw [hp.exec_eq, if_neg hmiss]

/-- A DECODE without an error passed its checks: each failed check raises one. -/
theorem passesDecode_of_success {s t : State} (h : exec .decode s = .next t) (herr : t.status.err = false) :
    s.PassesDecode := by
  rw [exec_decode, execDecode_eq] at h
  injection h with h
  subst h
  by_cases hne : s.args[0] ≠ s.width ∨ s.args[1] ≠ s.height
  · rw [if_pos hne] at herr; cases herr
  by_cases hpal : PaletteLegal s.palIn
  · obtain ⟨hw, hh⟩ := not_or.1 hne
    exact ⟨not_not.1 hw, not_not.1 hh, hpal⟩
  · rw [if_neg hne, if_pos hpal] at herr; cases herr

/-- Settles O31: the palette is looked at only when the size matches, the cache only when both checks pass. -/
theorem decodeChecksInOrder : Obligations.DecodeChecksInOrder := by
  refine fun s => ⟨exec_decode_of_size_ne, fun hw hh ⟨i, hi⟩ => ?_⟩
  have hillegal : ¬ PaletteLegal s.palIn := fun hlegal => ((paletteLegal_iff _).1 hlegal i).not_ge hi
  rw [exec_decode_of_size_eq hw hh, if_pos hillegal]

/-- Settles O32. -/
theorem decodeHitsTheCache : Obligations.DecodeHitsTheCache := fun _ hw hh hlegal hclean hpal =>
  State.PassesDecode.exec_hit ⟨hw, hh, (paletteLegal_iff _).2 hlegal⟩ hclean hpal

/-- Settles O34: a hit keeps what the cache test reads, and a recompute clears DIRTY and copies PAL_IN to CACHE_PAL, so
the second DECODE passes the same checks and the cache test. -/
theorem decodeTwiceHits : Obligations.DecodeTwiceHits := by
  intro s t h herr
  have hp := passesDecode_of_success h herr
  by_cases hcached : s.status.dirty = false ∧ s.palIn = s.cachePal
  · rw [hp.exec_hit hcached.1 hcached.2] at h
    cases h
    exact State.PassesDecode.exec_hit ⟨hp.width, hp.height, hp.palette⟩ hcached.1 hcached.2
  · rw [hp.exec_recompute hcached] at h
    cases h
    exact State.PassesDecode.exec_hit ⟨hp.width, hp.height, hp.palette⟩ rfl rfl

/-! ### The image (R245) -/

/-- The four bytes of a pixel inside the bitmap lie in OUT (20_memory.md R70). -/
theorem State.pixelByte_lt_outSize {s : State} {x y k : Nat} (hx : x < s.w) (hy : y < s.h) (hk : k < 4) :
    4 * (y * s.w + x) + k < s.outSize := by
  have hrow : (y + 1) * s.w ≤ s.h * s.w := Nat.mul_le_mul_right _ hy
  rw [State.outSize, Nat.mul_assoc, Nat.mul_comm s.w]
  rw [Nat.succ_mul] at hrow
  omega

/-- Byte `4*(y*W + x) + k` of the decoded image is channel `k` of pixel `(x, y)`. -/
theorem State.decodeByte_pixelByte {s : State} (p : Palette) {x k : Nat} (y : Nat) (hx : x < s.w) (hk : k < 4) :
    s.decodeByte p (4 * (y * s.w + x) + k) = (s.decodePixel p x y).channel k := by
  have hpixel : (4 * (y * s.w + x) + k) / 4 = y * s.w + x := by omega
  have hchannel : (4 * (y * s.w + x) + k) % 4 = k := by omega
  have hcolumn : (y * s.w + x) % s.w = x := by rw [Nat.mul_add_mod', Nat.mod_eq_of_lt hx]
  have hrow : (y * s.w + x) / s.w = y := by
    rw [Nat.mul_comm, Nat.mul_add_div (Nat.zero_lt_of_lt hx), Nat.div_eq_of_lt hx, Nat.add_zero]
  rw [State.decodeByte, hpixel, hchannel, hcolumn, hrow]

/-- OUT after a recomputing DECODE, pixel by pixel. -/
theorem State.recompute_out_pixelByte {s : State} {x y k : Nat} (hx : x < s.w) (hy : y < s.h) (hk : k < 4) :
    s.recompute.out.byte (4 * (y * s.w + x) + k) = (s.decodePixel s.palIn x y).channel k :=
  (s.recompute_cacheCoherent rfl _ (s.pixelByte_lt_outSize hx hy hk)).trans (s.decodeByte_pixelByte _ y hx hk)

theorem State.decodePixel_of_alpha {s : State} (p : Palette) {x y : Nat} (h : s.alphaGet x y = true) :
    s.decodePixel p x y = rgb ((Palette.slot p (s.nibGet x y)).setWidth 6) := if_pos h

theorem State.decodePixel_of_not_alpha {s : State} (p : Palette) {x y : Nat} (h : ¬ s.alphaGet x y = true) :
    s.decodePixel p x y = { r := 0, g := 0, b := 0, a := 0 } := if_neg h

/-- Settles O33: the frame is `State.recompute`'s, and the channels are those of `DecodeImage`'s pixel. -/
theorem decodeRecomputesTheImage : Obligations.DecodeRecomputesTheImage := by
  intro s hw hh hlegal hstale
  have hp : s.PassesDecode := ⟨hw, hh, (paletteLegal_iff _).2 hlegal⟩
  have hmiss : ¬ (s.status.dirty = false ∧ s.palIn = s.cachePal) := fun ⟨hclean, hpal⟩ =>
    hstale.elim (fun hdirty => by rw [hclean] at hdirty; cases hdirty) (· hpal)
  refine ⟨_, hp.exec_recompute hmiss, rfl, fun x hx y hy => ?_⟩
  intro channel c
  have hchannel : ∀ k < 4, channel k = (s.decodePixel s.palIn x y).channel k := fun k hk =>
    s.startCommand.recompute_out_pixelByte hx hy hk
  rw [hchannel 0 (by decide), hchannel 1 (by decide), hchannel 2 (by decide), hchannel 3 (by decide)]
  split_ifs with halpha
  · rw [State.decodePixel_of_alpha _ halpha]
    exact ⟨rfl, rfl, rfl, rfl⟩
  · rw [State.decodePixel_of_not_alpha _ halpha]
    exact ⟨rfl, rfl, rfl, rfl⟩

/-! ### DECODE after QUANTIZE (R246(d)) -/

/-- A QUANTIZE without an error reached its last step: each failed check raises one, and so does the halt. -/
theorem eq_quantize_of_success {s t : State} (h : exec .quantize s = .next t) (herr : t.status.err = false) :
    t = (s.startCommand.quantize s.args[0] s.args[1]).completeCommand := by
  cases exec_outcome h with
  | failed | halted => cases herr
  | quantized => rfl
  | result _ _ hi => simp at hi
  | unchanged hi | plotted _ _ _ hi => simp at hi
  | hit hi | recomputed hi | created hi | resized hi | clearedFull _ _ hi | clearedRegion _ _ hi | clearedAlpha hi =>
    cases hi

/-- Settles O30: QUANTIZE sets WIDTH and HEIGHT to its operands, leaves a legal palette in PAL_OUT (10_state.md R33) and
sets DIRTY, so DECODE passes its checks and cannot hit. -/
theorem quantizedPaletteDecodes : Obligations.QuantizedPaletteDecodes := by
  intro s t h herr
  have ht := eq_quantize_of_success h herr
  have hlegal : PaletteLegal t.palOut := by rw [ht]; exact State.quantize_palOut_legal _ _ _
  have hframe := s.startCommand.quantize_frame s.args[0] s.args[1]
  have hw : t.args[0] = t.width := by rw [ht, hframe]; rfl
  have hh : t.args[1] = t.height := by rw [ht, hframe]; rfl
  have hdirty : t.status.dirty = true := by rw [ht, hframe]; rfl
  have hp : ({ t with palIn := t.palOut } : State).PassesDecode := ⟨hw, hh, hlegal⟩
  exact ⟨_, hp.exec_recompute fun hcached => Bool.noConfusion (hdirty.symm.trans hcached.1), rfl, rfl, rfl, rfl⟩

end Sys2Proof.Machine

/-! PROOFS of the statements of 44_drawing.md: POINT and LINE as plots, and which points a line's walk has.

The one idea about the walk is `orderedWalk_eq_map_range`: at the end point, which R265 plots on its own, the formula of
the other points gives the end point's minor coordinate, so a walk is one formula over `0, ..., n`. Its count, its ends,
its order and its points are read off that list; `SteppedAlong` states them for either major axis. -/

namespace Sys2Proof.Machine

/-! ### Plots (R260, R266(d)) -/

theorem State.plot_of_inRegion {s : State} {r : Region} {p : Int × Int} (c : SlotIx) (h : s.InRegion r p.1 p.2) :
    State.plot r c s p = (s.setPixel (r.ox + p.1).toNat (r.oy + p.2).toNat c).markDirty := if_pos h

theorem State.plot_of_not_inRegion {s : State} {r : Region} {p : Int × Int} (c : SlotIx)
    (h : ¬ s.InRegion r p.1 p.2) : State.plot r c s p = s := if_neg h

/-- A pixel that a walk hits is a pixel of the bitmap. -/
theorem State.Hits.lt {s : State} {r : Region} {points : List (Int × Int)} {x y : Nat} (h : s.Hits r points x y) :
    x < s.w ∧ y < s.h := by
  obtain ⟨p, -, hin, hx, hy⟩ := h
  have hlt := hin.lt
  rwa [hx, hy] at hlt

/-! ### POINT (R260, R261) -/

theorem exec_point (rgn : Bool) (s : State) : exec (.point rgn) s = execPoint rgn s := rfl

theorem exec_point_of_illegal {s : State} (rgn : Bool) (hillegal : s.args[2].extractLsb' 4 28 ≠ 0) :
    exec (.point rgn) s = .next { s with status := s.status.failed .arg } := by
  rw [exec_point, execPoint_eq, col4Operand_illegal hillegal]

/-- POINT past its operand check is one plot. -/
theorem exec_point_of_legal {s : State} (rgn : Bool) (hlegal : s.args[2].extractLsb' 4 28 = 0) :
    exec (.point rgn) s = .next (State.plot (s.resolveRegion rgn) (s.args[2].extractLsb' 0 4) s.startCommand
      (s.args[0].toInt, s.args[1].toInt)).completeCommand := by
  rw [exec_point, execPoint_eq, col4Operand_legal hlegal]

theorem exec_point_of_outside {s : State} (rgn : Bool) (hlegal : s.args[2].extractLsb' 4 28 = 0)
    (hout : ¬ s.InRegion (s.resolveRegion rgn) s.args[0].toInt s.args[1].toInt) :
    exec (.point rgn) s = .next { s with status := s.status.finished } := by
  rw [exec_point_of_legal rgn hlegal, State.plot_of_not_inRegion _ hout, State.start_complete]

/-- Settles O35, from the laws of `State.setPixel`: the updates of STATUS around the pixel change no plane. -/
theorem pointSetsOnePixel : Obligations.PointSetsOnePixel := by
  intro s rgn x y c r px py
  refine ⟨exec_point_of_illegal rgn, exec_point_of_outside rgn, fun hlegal hin => ?_⟩
  have hpx : px < s.w := hin.lt.1
  have halpha := fun x' y' (hx' : x' < 8 * alphaRowBytes s.w) =>
    s.startCommand.alphaGet_setPixel (y := py) (y' := y') c hpx hx'
  have hnib := fun x' y' (hx' : x' < 2 * colorRowBytes s.w) =>
    s.startCommand.nibGet_setPixel (y := py) (y' := y') c hpx hx'
  rw [exec_point_of_legal rgn hlegal, State.plot_of_inRegion _ hin]
  refine ⟨_, rfl, rfl, ?_, ?_, fun x' y' _ hother => ⟨fun hx' => ?_, fun hx' => ?_⟩, fun a ha => ?_, fun a ha => ?_⟩
  · exact (halpha px py (lt_alphaBits hpx)).trans (if_pos ⟨rfl, rfl⟩)
  · exact (hnib px py (lt_colorNibbles hpx)).trans (if_pos ⟨rfl, rfl⟩)
  · exact (halpha x' y' hx').trans (if_neg hother)
  · exact (hnib x' y' hx').trans (if_neg hother)
  · exact s.startCommand.setPixel_alpha_byte_other px py c ha
  · exact s.startCommand.setPixel_color_byte_other px py c ha

/-- Settles O36: outside the extent both ways of POINT write STATUS only, and neither writes DIRTY. -/
theorem pointOutsideTheRegionIsClipped : Obligations.PointOutsideTheRegionIsClipped := by
  intro s rgn x y r hside
  have hout : ¬ s.InRegion r x y := fun ⟨hx, hxw, hy, hyh, _⟩ => by omega
  by_cases hlegal : s.args[2].extractLsb' 4 28 = 0
  · exact ⟨_, exec_point_of_outside rgn hlegal hout, rfl, rfl, rfl⟩
  · exact ⟨_, exec_point_of_illegal rgn hlegal, rfl, rfl, rfl⟩

/-! ### LINE (R265) -/

theorem exec_line (rgn : Bool) (s : State) : exec (.line rgn) s = execLine rgn s := rfl

/-- LINE past its operand check is the fold of the plots over its walk. -/
theorem exec_line_of_legal {s : State} (rgn : Bool) (hlegal : s.args[4].extractLsb' 4 28 = 0) :
    exec (.line rgn) s = .next
      ((linePoints s.args[0].toInt s.args[1].toInt s.args[2].toInt s.args[3].toInt).foldl
        (State.plot (s.resolveRegion rgn) (s.args[4].extractLsb' 0 4)) s.startCommand).completeCommand := by
  rw [exec_line, execLine_eq, col4Operand_legal hlegal]

/-- Settles O37, from the `foldl_plot` laws: starting and completing the command changes no plane and no hit. -/
theorem lineDrawsItsWalk : Obligations.LineDrawsItsWalk := by
  intro s rgn points c r
  constructor
  · intro hillegal
    rw [exec_line, execLine_eq, col4Operand_illegal hillegal]
  · intro hlegal
    rw [exec_line_of_legal rgn hlegal]
    refine ⟨_, rfl, ?_, s.startCommand.foldl_plot_dirty r c points, fun x y hhit => ⟨?_, ?_⟩,
      fun x y _ hmiss => ⟨fun hx => ?_, fun hx => ?_⟩,
      fun a ha => s.startCommand.foldl_plot_alpha_byte r c points ha,
      fun a ha => s.startCommand.foldl_plot_color_byte r c points ha⟩
    · exact congrArg State.completeCommand (s.startCommand.foldl_plot_frame r c points)
    · exact (s.startCommand.alphaGet_foldl_plot r c points (lt_alphaBits hhit.lt.1)).1 hhit
    · exact (s.startCommand.nibGet_foldl_plot r c points (lt_colorNibbles hhit.lt.1)).1 hhit
    · exact (s.startCommand.alphaGet_foldl_plot r c points hx).2 hmiss
    · exact (s.startCommand.nibGet_foldl_plot r c points hx).2 hmiss

/-! ### The walk along its major axis (R265) -/

/-- The end point has the minor coordinate that the formula of the other points gives at `i = n`. -/
theorem orderedWalk_eq_map_range {u1 u2 : Int} (v1 v2 : Int) (h : u1 < u2) :
    orderedWalk u1 v1 u2 v2 = (List.range ((u2 - u1).toNat + 1)).map fun (i : Nat) =>
      (u1 + i, Int.tdiv (v1 * (u2 - u1) + (v2 - v1) * i) (u2 - u1)) := by
  have hn : ((u2 - u1).toNat : Int) = u2 - u1 := Int.toNat_of_nonneg (by omega)
  have hend : v1 * (u2 - u1) + (v2 - v1) * (u2 - u1) = v2 * (u2 - u1) := by ring
  rw [List.range_succ, List.map_append, List.map_singleton, hn, hend, Int.mul_tdiv_cancel _ (by omega),
    add_sub_cancel]
  rfl

theorem majorWalk_of_lt {u1 u2 : Int} (v1 v2 : Int) (h : u1 < u2) :
    majorWalk u1 v1 u2 v2 = orderedWalk u1 v1 u2 v2 := if_neg (by omega)

theorem majorWalk_of_gt {u1 u2 : Int} (v1 v2 : Int) (h : u2 < u1) :
    majorWalk u1 v1 u2 v2 = orderedWalk u2 v2 u1 v1 := if_pos (by omega)

/-- R266(a) along one axis: the swap leaves the lower end point first. -/
theorem majorWalk_comm {u1 u2 : Int} (v1 v2 : Int) (h : u1 ≠ u2) :
    majorWalk u1 v1 u2 v2 = majorWalk u2 v2 u1 v1 := by
  rcases Int.lt_or_gt_of_ne h with hlt | hgt
  · rw [majorWalk_of_lt v1 v2 hlt, majorWalk_of_gt v2 v1 hlt]
  · rw [majorWalk_of_gt v1 v2 hgt, majorWalk_of_lt v2 v1 hgt]

/-! ### The choice of the major axis (R265) -/

theorem linePoints_self (x y : Int) : linePoints x y x y = [] := if_pos ⟨rfl, rfl⟩

theorem linePoints_of_xMajor {x1 y1 x2 y2 : Int} (hne : ¬ (x1 = x2 ∧ y1 = y2))
    (hmajor : (y2 - y1).natAbs ≤ (x2 - x1).natAbs) : linePoints x1 y1 x2 y2 = majorWalk x1 y1 x2 y2 := by
  rw [linePoints, if_neg hne, if_pos hmajor]

theorem linePoints_of_yMajor {x1 y1 x2 y2 : Int} (hmajor : ¬ (y2 - y1).natAbs ≤ (x2 - x1).natAbs) :
    linePoints x1 y1 x2 y2 = (majorWalk y1 x1 y2 x2).map Prod.swap := by
  rw [linePoints, if_neg (by omega), if_neg hmajor]

/-- Settles O38: the major axis does not depend on the order of the end points, and neither does the walk along it. -/
theorem lineIsSymmetric : Obligations.LineIsSymmetric := by
  intro x1 y1 x2 y2
  by_cases heq : x1 = x2 ∧ y1 = y2
  · obtain ⟨rfl, rfl⟩ := heq
    rfl
  by_cases hmajor : (y2 - y1).natAbs ≤ (x2 - x1).natAbs
  · rw [linePoints_of_xMajor heq hmajor, linePoints_of_xMajor (by omega) (by omega), majorWalk_comm _ _ (by omega)]
  · rw [linePoints_of_yMajor hmajor, linePoints_of_yMajor (by omega), majorWalk_comm _ _ (by omega)]

/-! ### The points of a walk in order (R266(b)) -/

/-- The points go from `lower` to `upper` in `n` steps of one along the major axis, with the exact minor coordinate
rounded toward zero at each step. -/
structure SteppedAlong (major minor : Int × Int → Int) (lower upper : Int × Int) (n : Nat)
    (points : List (Int × Int)) : Prop where
  length : points.length = n + 1
  rising : (points.map major).Pairwise (· < ·)
  first : points.head? = some lower
  last : points.getLast? = some upper
  stepped : ∀ i < n, ∃ p, points[i]? = some p ∧ major p = major lower + i ∧
    minor p = Int.tdiv (minor lower * n + (minor upper - minor lower) * i) n

theorem orderedWalk_steppedAlong {u1 u2 : Int} (v1 v2 : Int) (h : u1 < u2) :
    SteppedAlong Prod.fst Prod.snd (u1, v1) (u2, v2) (u2 - u1).natAbs (orderedWalk u1 v1 u2 v2) := by
  have hn : ((u2 - u1).natAbs : Int) = u2 - u1 := by omega
  have hrange := orderedWalk_eq_map_range v1 v2 h
  rw [show (u2 - u1).toNat = (u2 - u1).natAbs by omega] at hrange
  constructor
  case length => rw [hrange, List.length_map, List.length_range]
  case rising =>
    rw [hrange, List.map_map, List.pairwise_map]
    exact List.pairwise_lt_range.imp fun hij => Int.add_lt_add_left (Int.ofNat_lt.2 hij) u1
  case first =>
    rw [hrange, List.head?_map, List.head?_range, if_neg (Nat.succ_ne_zero _), Option.map_some]
    simp [Int.mul_tdiv_cancel v1 (show u2 - u1 ≠ 0 by omega)]
  case last => rw [orderedWalk, List.getLast?_concat]
  case stepped =>
    intro i hi
    refine ⟨(u1 + i, _), ?_, rfl, rfl⟩
    rw [hn, hrange, List.getElem?_map, List.getElem?_range (by omega)]
    rfl

/-- Exchanging the coordinates of every point exchanges the axes. -/
theorem SteppedAlong.swap {lower upper : Int × Int} {n : Nat} {points : List (Int × Int)}
    (h : SteppedAlong Prod.fst Prod.snd lower upper n points) :
    SteppedAlong Prod.snd Prod.fst lower.swap upper.swap n (points.map Prod.swap) where
  length := by rw [List.length_map, h.length]
  rising := by rw [List.map_map]; exact h.rising
  first := by rw [List.head?_map, h.first]; rfl
  last := by rw [List.getLast?_map, h.last]; rfl
  stepped i hi := by
    obtain ⟨p, hp, hmajor, hminor⟩ := h.stepped i hi
    exact ⟨p.swap, by rw [List.getElem?_map, hp]; rfl, hmajor, hminor⟩

/-- A walk along a major axis starts at the end point with the lower major coordinate. -/
theorem majorWalk_steppedAlong {u1 u2 : Int} (v1 v2 : Int) (h : u1 ≠ u2) :
    SteppedAlong Prod.fst Prod.snd (if u2 < u1 then (u2, v2) else (u1, v1)) (if u2 < u1 then (u1, v1) else (u2, v2))
      (u2 - u1).natAbs (majorWalk u1 v1 u2 v2) := by
  rcases Int.lt_or_gt_of_ne h with hlt | hgt
  · rw [majorWalk_of_lt v1 v2 hlt, if_neg hlt.not_gt, if_neg hlt.not_gt]
    exact orderedWalk_steppedAlong v1 v2 hlt
  · rw [majorWalk_of_gt v1 v2 hgt, if_pos hgt, if_pos hgt, ← Int.natAbs_neg, Int.neg_sub]
    exact orderedWalk_steppedAlong v2 v1 hgt

/-- `tdiv` as R265 defines it. -/
theorem tdiv_natCast (a : Int) (n : Nat) : Int.tdiv a n = if 0 ≤ a then a / n else -(-a / n) := by
  split_ifs with h
  · exact Int.tdiv_eq_ediv_of_nonneg h
  · rw [← Int.tdiv_eq_ediv_of_nonneg (by omega), Int.neg_tdiv, Int.neg_neg]

/-- Settles O39: `SteppedAlong` for the major axis that the line takes. -/
theorem lineStepsAlongItsMajorAxis : Obligations.LineStepsAlongItsMajorAxis := by
  refine ⟨linePoints_self, fun x1 y1 x2 y2 hne => ?_⟩
  by_cases hmajor : (y2 - y1).natAbs ≤ (x2 - x1).natAbs
  · have hwalk := majorWalk_steppedAlong y1 y2 (show x1 ≠ x2 by omega)
    simp only [if_pos hmajor, Nat.max_eq_left hmajor, ← tdiv_natCast, linePoints_of_xMajor hne hmajor]
    exact ⟨hwalk.length, hwalk.rising, hwalk.first, hwalk.last, hwalk.stepped⟩
  · have hwalk := (majorWalk_steppedAlong x1 x2 (show y1 ≠ y2 by omega)).swap
    simp only [apply_ite Prod.swap, Prod.swap_prod_mk] at hwalk
    simp only [if_neg hmajor, Nat.max_eq_right (Nat.le_of_not_le hmajor), ← tdiv_natCast, linePoints_of_yMajor hmajor]
    exact ⟨hwalk.length, hwalk.rising, hwalk.first, hwalk.last, hwalk.stepped⟩

/-! ### Lines of an integer slope (R266(c)) -/

theorem mem_orderedWalk {u1 u2 : Int} (v1 v2 : Int) (h : u1 < u2) (p : Int × Int) :
    p ∈ orderedWalk u1 v1 u2 v2 ↔
      u1 ≤ p.1 ∧ p.1 ≤ u2 ∧ p.2 = Int.tdiv (v1 * (u2 - u1) + (v2 - v1) * (p.1 - u1)) (u2 - u1) := by
  rw [orderedWalk_eq_map_range v1 v2 h, List.mem_map]
  constructor
  · rintro ⟨i, hi, rfl⟩
    rw [List.mem_range] at hi
    exact ⟨by omega, by omega, by rw [add_sub_cancel_left]⟩
  · rintro ⟨hlower, hupper, hminor⟩
    have hi : ((p.1 - u1).toNat : Int) = p.1 - u1 := Int.toNat_of_nonneg (by omega)
    refine ⟨(p.1 - u1).toNat, List.mem_range.2 (by omega), Prod.ext ?_ ?_⟩
    · rw [hi, add_sub_cancel]
    · rw [hi, hminor]

/-- With an integer slope `k` no step is rounded. -/
theorem mem_orderedWalk_of_slope {u1 v1 u2 v2 k : Int} (h : u1 < u2) (hk : v2 - v1 = k * (u2 - u1)) (p : Int × Int) :
    p ∈ orderedWalk u1 v1 u2 v2 ↔ u1 ≤ p.1 ∧ p.1 ≤ u2 ∧ p.2 = v1 + k * (p.1 - u1) := by
  have hexact : v1 * (u2 - u1) + (v2 - v1) * (p.1 - u1) = (v1 + k * (p.1 - u1)) * (u2 - u1) := by rw [hk]; ring
  rw [mem_orderedWalk v1 v2 h, hexact, Int.mul_tdiv_cancel _ (by omega)]

theorem mem_majorWalk_of_slope {u1 v1 u2 v2 k : Int} (h : u1 ≠ u2) (hk : v2 - v1 = k * (u2 - u1)) (p : Int × Int) :
    p ∈ majorWalk u1 v1 u2 v2 ↔ min u1 u2 ≤ p.1 ∧ p.1 ≤ max u1 u2 ∧ p.2 = v1 + k * (p.1 - u1) := by
  rcases Int.lt_or_gt_of_ne h with hlt | hgt
  · rw [majorWalk_of_lt v1 v2 hlt, mem_orderedWalk_of_slope hlt hk, min_eq_left hlt.le, max_eq_right hlt.le]
  · have hsame : v2 + k * (p.1 - u2) = v1 + k * (p.1 - u1) := by linear_combination hk
    have hk' : v1 - v2 = k * (u1 - u2) := by linear_combination -hk
    rw [majorWalk_of_gt v1 v2 hgt, mem_orderedWalk_of_slope hgt hk', hsame, min_eq_right hgt.le, max_eq_left hgt.le]

/-- A diagonal's cross product is the equation of its slope. -/
theorem cross_eq_iff_of_slope {x1 y1 x2 y2 k : Int} (h : x1 ≠ x2) (hk : y2 - y1 = k * (x2 - x1)) (p : Int × Int) :
    (p.2 - y1) * (x2 - x1) = (p.1 - x1) * (y2 - y1) ↔ p.2 = y1 + k * (p.1 - x1) := by
  have hdx : x2 - x1 ≠ 0 := by omega
  rw [hk, ← Int.mul_assoc, mul_left_inj' hdx]
  constructor <;> intro heq <;> linear_combination heq

/-- Settles O40: horizontal and vertical lines have slope 0 along their major axis, diagonals slope 1 or -1. -/
theorem straightLinesAreSegments : Obligations.StraightLinesAreSegments := by
  refine ⟨fun x1 x2 y hne p => ?_, fun x y1 y2 hne p => ?_, fun x1 y1 x2 y2 hne hdiagonal p => ?_⟩
  · rw [linePoints_of_xMajor (by omega) (by omega), mem_majorWalk_of_slope (k := 0) hne (by ring), Int.zero_mul,
      Int.add_zero]
    tauto
  · rw [linePoints_of_yMajor (by omega), List.mem_map_swap, mem_majorWalk_of_slope (k := 0) hne (by ring), Int.zero_mul,
      Int.add_zero]
    tauto
  · have hslope : ∃ k, y2 - y1 = k * (x2 - x1) := by
      rcases Int.natAbs_eq_natAbs_iff.1 hdiagonal.symm with hup | hdown
      · exact ⟨1, by rw [hup, Int.one_mul]⟩
      · exact ⟨-1, by rw [hdown, Int.neg_one_mul]⟩
    obtain ⟨k, hk⟩ := hslope
    rw [linePoints_of_xMajor (by omega) (by omega), mem_majorWalk_of_slope hne hk, cross_eq_iff_of_slope hne hk]

/-! ### The reserved commands (R270) -/

/-- Settles O41: each of the six arms raises E_UNIMPL and reads no operand. -/
theorem reservedPrimitivesAreUnimplemented : Obligations.ReservedPrimitivesAreUnimplemented := by
  intro s rgn i hi
  simp only [List.mem_cons, List.not_mem_nil, or_false] at hi
  rcases hi with rfl | rfl | rfl | rfl | rfl | rfl <;> exact congrArg Host.Outcome.next (s.start_raise .unimpl)

end Sys2Proof.Machine

/-! PROOFS of the statements of 60_exceptions.md: what a failing command writes, and what the host can still do while an
error or the fatal state is shown.

Both statements come down to one frame: a step that is neither the engine's nor a reset is an idle step or a move of the
host (`step_host_cases`), and such a move reaches the host's own registers, SRC, and of the rest only CMD_LATCH and BUSY
(`MoveOutcome.frame`). In the fatal state the CMD write is ignored, so these two stay as well (`MoveOutcome.fatal_eq`). -/

namespace Sys2Proof.Machine

/-! ### Failing commands (R302, R306) -/

/-- A command that ends with ERR = 1 has raised an error or halted: every success clears ERR (10_state.md R24). -/
theorem CommandOutcome.failure_cases {i : Instr} {s t : State} (h : CommandOutcome i s t) (herr : t.status.err = true) :
    (∃ c, c ≠ .alloc ∧ t = { s with status := s.status.failed c }) ∨ t = { s with status := s.status.halted } := by
  cases h with
  | failed c hc => exact .inl ⟨c, hc, rfl⟩
  | halted => exact .inr rfl
  | quantized => rw [State.quantize_frame] at herr; cases herr
  | clearedRegion => rw [State.clearRegion_frame] at herr; cases herr
  | plotted => rw [State.foldl_plot_frame] at herr; cases herr
  | _ => cases herr

/-! ### Moves other than the reset -/

theorem step_host_cases {s t : State} (hturn : s.engineTurn = false) (hreset : ∀ rest, s.host ≠ .reset :: rest)
    (h : step s = .next t) :
    t = s ∨ ∃ op rest, op ≠ .reset ∧ MoveOutcome { s with host := rest } op t := by
  rcases step_cases h with ⟨hengine, -⟩ | ⟨-, -, hidle⟩ | ⟨op, rest, -, hhost, hmove⟩
  · rw [hturn] at hengine; cases hengine
  · exact .inl hidle
  · exact .inr ⟨op, rest, fun hop => hreset rest (hop ▸ hhost), move_outcome (s := { s with host := rest }) hmove⟩

section Moves

variable {op : HostOp} {s t : State}

/-- A move of the host reaches CMD_LATCH, BUSY, the registers of access RW, SRC and the model's own fields. -/
theorem MoveOutcome.frame (h : MoveOutcome s op t) (hop : op ≠ .reset) :
    t = { s with
      cmdLatch := t.cmdLatch, status := { s.status with busy := t.status.busy }, args := t.args, rgnOx := t.rgnOx
      rgnOy := t.rgnOy, rgnW := t.rgnW, rgnH := t.rgnH, palIn := t.palIn, template := t.template, src := t.src
      draws := t.draws, hostData := t.hostData } := by
  cases h with
  | reset hreset => exact absurd hreset hop
  | wroteReg r v hr => rw [s.writeReg_frame hr]
  | _ => rfl

/-- In the fatal state no move but the reset starts a command (10_state.md R23). -/
theorem MoveOutcome.fatal_eq (h : MoveOutcome s op t) (hop : op ≠ .reset) (hfatal : s.status.fatal = true) :
    t.status = s.status ∧ t.cmdLatch = s.cmdLatch := by
  cases h with
  | reset hreset => exact absurd hreset hop
  | started _ _ hf => rw [hfatal] at hf; cases hf
  | wroteReg r v hr => rw [s.writeReg_frame hr]; exact ⟨rfl, rfl⟩
  | _ => exact ⟨rfl, rfl⟩

end Moves

theorem step_reset {s : State} {rest : List HostOp} (hhost : s.host = .reset :: rest) :
    step s = .next ({ s with host := rest } : State).platformReset := by
  rw [step_move (State.engineTurn_of_move hhost (by simp)) hhost]
  exact ite_self _

/-! ### The statements -/

/-- Settles O43: an outcome with ERR = 1 is an error or the halt, and a move of the host reaches of STATUS only BUSY. -/
theorem failureChangesOnlyStatus : Obligations.FailureChangesOnlyStatus := by
  constructor
  · intro i s t h herr
    rcases (exec_outcome h).failure_cases herr with ⟨c, hc, rfl⟩ | rfl
    · exact ⟨rfl, (if_neg hc).symm⟩
    · exact ⟨rfl, (if_pos rfl).symm⟩
  · intro s t hturn hreset h
    rcases step_host_cases hturn hreset h with rfl | ⟨op, rest, hop, hmove⟩
    · exact ⟨rfl, rfl⟩
    · rw [hmove.frame hop]; exact ⟨rfl, rfl⟩

/-- Settles O51: an idle block's step is the host's, whose CMD writes are ignored while FATAL = 1; and STATUS after the
reset is `Status.reset`. -/
theorem fatalLastsUntilReset : Obligations.FatalLastsUntilReset := by
  refine ⟨fun s t hfatal hidle hreset h => ?_, fun s rest hhost => ⟨_, step_reset hhost, rfl⟩⟩
  rcases step_host_cases (State.engineTurn_of_idle hidle) hreset h with rfl | ⟨op, rest, hop, hmove⟩
  · exact ⟨rfl, rfl, rfl, rfl, rfl, rfl, rfl, rfl, rfl⟩
  · obtain ⟨hstatus, hlatch⟩ := hmove.fatal_eq hop hfatal
    refine ⟨hstatus, hlatch, ?_⟩
    rw [hmove.frame hop]
    exact ⟨rfl, rfl, rfl, rfl, rfl, rfl, rfl⟩

end Sys2Proof.Machine

/-! PROOFS of the statements of 70_reset_and_hazards.md: the reset state has the invariants, what the host reads there, and
the platform's reset as a step. -/

namespace Sys2Proof.Machine

/-! ### The capacity (00_scope.md R4) -/

/-- A number below 2^16 plus 1 is in [1, 2^16] as a register too. -/
theorem capacityWord_bounds (n : Fin 65536) :
    1 ≤ (BitVec.ofNat 32 (n.val + 1)).toNat ∧ (BitVec.ofNat 32 (n.val + 1)).toNat ≤ 65536 := by
  have hfits : n.val + 1 < 2 ^ 32 := by omega
  rw [BitVec.toNat_ofNat, Nat.mod_eq_of_lt hfits]
  omega

/-! ### The invariants at reset (R340) -/

/-- Every window is empty and `W = H = 0`, so only the capacity needs an argument. -/
theorem State.reset_inv : State.reset.Inv where
  capacityW := capacityWord_bounds Config.maxWPred
  capacityH := capacityWord_bounds Config.maxHPred
  widthFits := Nat.zero_le _
  heightFits := Nat.zero_le _
  srcWithin := Memory.within_nil _
  alphaWithin := Memory.within_nil _
  colorWithin := Memory.within_nil _
  outWithin := Memory.within_nil _
  alphaSpecified := fun a ha => absurd (ha.trans_eq (Nat.zero_mul _)) (Nat.not_lt_zero a)
  palOutLegal := fun i => by simp [State.reset, Palette.slot]
  errIffCode := by decide
  fatalShown := nofun
  drawsMade := ⟨Nat.one_pos, Nat.one_pos, Nat.one_pos, Nat.one_pos⟩

/-- DIRTY is 1 after reset, so nothing is asked of OUT (10_state.md R37). -/
theorem State.reset_cacheCoherent : State.reset.CacheCoherent := nofun

/-- Settles O49: the base case of O47 and O48. -/
theorem resetHasTheInvariants : Obligations.ResetHasTheInvariants :=
  ⟨State.reset_inv, State.reset_cacheCoherent⟩

/-! ### The registers as the host reads them at reset (R340, 10_state.md R22) -/

theorem Palette.readWord_replicate (b : Byte) (k : Fin 4) :
    Palette.readWord (Vector.replicate 16 b) k = b ++ b ++ b ++ b := by
  simp only [Palette.readWord, Vector.getElem_replicate]

theorem State.reset_readReg_arg (k : Fin 8) : State.reset.readReg (.arg k) = 0 :=
  Vector.getElem_replicate _

theorem State.reset_readReg_palettes (k : Fin 4) :
    State.reset.readReg (.palIn k) = 0 ∧ State.reset.readReg (.template k) = 0xFFFFFFFF ∧
    State.reset.readReg (.palOut k) = 0 ∧ State.reset.readReg (.cachePal k) = 0 :=
  have hzero : Palette.readWord (Vector.replicate 16 0) k = 0 := Palette.readWord_replicate 0 k
  have hfree : Palette.readWord (Vector.replicate 16 0xFF) k = 0xFFFFFFFF := Palette.readWord_replicate 0xFF k
  ⟨hzero, hfree, hzero, hzero⟩

/-- No bitmap stands at reset, so the windows that hold it are empty. -/
theorem State.reset_windowSizes :
    State.reset.alphaSize = 0 ∧ State.reset.colorSize = 0 ∧ State.reset.outSize = 0 :=
  ⟨Nat.zero_mul _, Nat.zero_mul _, Nat.mul_zero _⟩

/-- Settles O59: the register files by the lemmas above, every other register by its field. -/
theorem resetValues : Obligations.ResetValues := by
  obtain ⟨halpha, hcolor, hout⟩ := State.reset_windowSizes
  have hstatus : Status.reset.word = 0x00000008 := by decide
  exact ⟨rfl, hstatus, rfl, rfl, rfl, rfl, rfl, rfl, State.reset_readReg_arg, rfl, rfl, rfl, rfl, rfl, rfl,
    State.reset_readReg_palettes, rfl, rfl, halpha, hcolor, hout, rfl⟩

/-! ### The platform's reset (R340, R342) -/

/-- Settles O60: a reset is a move of the host whatever BUSY is, so the latched command does not run. -/
theorem platformResetRestoresTheBlock : Obligations.PlatformResetRestoresTheBlock :=
  fun _ _ hhost => step_reset hhost

end Sys2Proof.Machine
